-- ==== Sys2Proof/Word.lean ====
section
/-! DEFINITION. The byte, and the 512-byte logical sector that the store moves (R9, R11). -/

namespace Sys2Proof

/-- A byte: 8 bits, unsigned (R11). Every host access is one byte (R70). -/
abbrev Byte := BitVec 8

/-- A logical sector: 512 bytes, whatever the image packs it to (R9, R66, R69). -/
abbrev Sector := Vector Byte 512

end Sys2Proof
end

