-- ==== Sys2Proof/Config.lean ====
section
/-! DEFINITION. What an implementation fixes (the parameters of R9 and R10, as types) and the free
values (constants with no body, so that nothing can be proved of what they are). The parameters'
default values are in Machine/Params.lean. -/

namespace Sys2Proof

/-- The data-bus policy of a channel, an argument of ATA_NEW and fixed from then on (R9, R20). -/
inductive Databus where
  | d8            -- 8-bit
  | d16           -- 16-bit
  | d16Byteswap   -- 16-bit-byteswap
  | d16Data2      -- 16-bit-with-secondary-register
  deriving DecidableEq, Repr

/-- The two drive slots of a channel: unit 0 and unit 1 (R9, R21). -/
inductive DriveUnit where
  | master
  | slave
  deriving DecidableEq, Repr

/-- The parameter record ATA_RESET: construction values of the task file, and of `status` and
`error` of a new drive (R10, R50). -/
structure AtaReset where
  sectorCount : Byte
  sector : Byte
  cylinderLow : Byte
  cylinderHigh : Byte
  head : Byte
  status : Byte
  error : Byte
  deriving DecidableEq, Repr

/-- The parameters of R10 that are data. State holds one such record, which no operation writes, so
a statement about every state is a statement about every value of the parameters (log 6). -/
structure Params where
  /-- ATA_RESET. -/
  ataReset : AtaReset
  /-- ATA_ABSENT_READ: what a register read returns with the selected slot empty (R150). -/
  ataAbsentRead : Byte
  /-- ATA8_HIGH_FILL: the odd buffer byte of an 8-bit data write (R175). -/
  ata8HighFill : Byte
  /-- ATA_IDNF_WITH_ABRT (R207). -/
  ataIdnfWithAbrt : Bool
  /-- ATA_UNC_WITH_ABRT (R210). -/
  ataUncWithAbrt : Bool
  /-- MMC_RESET_IDLE: the IDLE bit after MMC_NEW and MMC_INSERT (R51, R131). -/
  mmcResetIdle : Bool
  /-- MMC_ACMD24_ENTERS_DATA_PHASE (R260). -/
  mmcAcmd24EntersDataPhase : Bool
  /-- MMC_WRITE_ERR_RESPONSE as a template: `none` stands for the R1 byte, `some b` for b (R278,
  log 19). -/
  mmcWriteErrResponse : List (Option Byte)
  /-- The eleven bytes of the CSD that R264 does not model: bytes 1 to 4, 6, and 10 to 15 (log 18). -/
  mmcCsdFill : Vector Byte 11
  /-- MMC_CID (R266). -/
  mmcCid : Vector Byte 16
  deriving DecidableEq, Repr

/-! Free values. Each is a constant without a body: every claim holds whatever it is. -/

/-- The oracle FileOK (R80): does the k-th file operation it is asked about succeed? (log 8) -/
opaque Config.fileOK : Nat → Bool

/-- Of a file write that failed (R137): does byte i of the k-th such write hold the new byte?
The image may be left with old bytes, new bytes or a mixture (log 9). -/
opaque Config.tornByte : Nat → Nat → Bool

/-- COMMIT_ORDER (R137): the k-th commit visits the cached sectors in rising rank, any order (log 10). -/
opaque Config.commitRank : Nat → Nat → Nat

/-- The values R50 and R51 leave unspecified: byte i of what the k-th construction leaves (log 14). -/
opaque Config.freeByte : Nat → Nat → Byte

/-- MMC_RESET_IDLE, a free input with no default (R10, R51, log 7). -/
opaque Config.mmcResetIdle : Bool

/-- MMC_CID, a free parameter with no default (R10, R266, log 7). -/
opaque Config.mmcCid : Vector Byte 16

end Sys2Proof
end

