-- ==== Sys2Proof/Syntax.lean ====
section
/-! DEFINITION. The host operations: one constructor per row of spec/opcode_table.json. -/

namespace Sys2Proof

/-- One host operation. The register reads have no operand (R90: the data field of a read is
ignored). A command frame carries its 32-bit argument and its CRC byte (R100); a frame that a row
names by exclusion carries its index as well. -/
inductive Instr where
  -- ATA register reads (R151 to R159)
  | ataRdData
  | ataRdError
  | ataRdSectorCount
  | ataRdSector
  | ataRdCylinderLow
  | ataRdCylinderHigh
  | ataRdHeadDrive
  | ataRdStatus
  | ataRdData2
  -- ATA register writes (R160 to R168)
  | ataWrData (b : Byte)
  | ataWrFeature (b : Byte)
  | ataWrSectorCount (b : Byte)
  | ataWrSector (b : Byte)
  | ataWrCylinderLow (b : Byte)
  | ataWrCylinderHigh (b : Byte)
  | ataWrHeadDrive (b : Byte)
  | ataWrCommand (b : Byte)
  | ataWrData2 (b : Byte)
  -- ATA commands, carried by a write to COMMAND (R192 to R199)
  | readSectorRetry
  | readSectorNoretry
  | writeSectorRetry
  | writeSectorNoretry
  | identifyDriveAta
  | identifyDriveAtapi
  | initializeDeviceParameters
  | ataCmdOther (op : Byte)
  -- SPI bytes (R230 to R242)
  | spiWr (b : Byte)
  | spiRd
  -- MMC command frames (R261 to R277)
  | cmd0GoIdleState (arg : BitVec 32) (crc : Byte)
  | cmd8SendIfCond (arg : BitVec 32) (crc : Byte)
  | cmd9SendCsd (arg : BitVec 32) (crc : Byte)
  | cmd10SendCid (arg : BitVec 32) (crc : Byte)
  | cmd17ReadSingleBlock (arg : BitVec 32) (crc : Byte)
  | cmd24WriteBlock (arg : BitVec 32) (crc : Byte)
  | cmd32EraseWrBlkStart (arg : BitVec 32) (crc : Byte)
  | cmd33EraseWrBlkEnd (arg : BitVec 32) (crc : Byte)
  | cmd38Erase (arg : BitVec 32) (crc : Byte)
  | cmd55AppCmd (arg : BitVec 32) (crc : Byte)
  | cmd58ReadOcr (arg : BitVec 32) (crc : Byte)
  | cmdOther (index : BitVec 6) (arg : BitVec 32) (crc : Byte)
  | acmd41SdSendOpCond (arg : BitVec 32) (crc : Byte)
  | acmdOther (index : BitVec 6) (arg : BitVec 32) (crc : Byte)
  -- the data block of WRITE_BLOCK (R109, R278)
  | mmcDataBlock (data : Sector) (crc1 crc2 : Byte)
  -- host calls (R93, R130 to R138, R330)
  | ataNew (databus : Databus)
  | ataInsert (unit : DriveUnit) (image : Nat)
  | ataEject (unit : DriveUnit)
  | ataCommit (unit : DriveUnit)
  | ataDirty (unit : DriveUnit)
  | mmcNew
  | mmcInsert (image : Nat)
  | mmcEject
  | mmcCommit
  | mmcDirty
  deriving DecidableEq, Repr

end Sys2Proof
end

