-- ==== Sys2Proof/WellFormed.lean ====
section
/-! DEFINITION. Which instruction terms stand for a host operation: the rows that are named by
exclusion must not carry an index or an opcode of another row, and an image number must fit its
operand. -/

namespace Sys2Proof

/-- The seven recognised ATA opcodes (R97). -/
def ataOpcodes : List Byte := [0x20, 0x21, 0x30, 0x31, 0x91, 0xA1, 0xEC]

/-- The eleven standard command indices (R102). -/
def mmcIndices : List (BitVec 6) := [0, 8, 9, 10, 17, 24, 32, 33, 38, 55, 58]

/-- Image numbers are two bytes in a host call (log 3). -/
def imageLimit : Nat := 65536

/-- The check an instruction term must pass to stand for a host operation. -/
def Instr.wellFormed : Instr → Bool
  | .ataCmdOther op => !(ataOpcodes.contains op)
  | .cmdOther index _ _ => !(mmcIndices.contains index)
  | .acmdOther index _ _ => index != 41
  | .ataInsert _ image => decide (image < imageLimit)
  | .mmcInsert image => decide (image < imageLimit)
  | .ataRdData | .ataRdError | .ataRdSectorCount | .ataRdSector | .ataRdCylinderLow
  | .ataRdCylinderHigh | .ataRdHeadDrive | .ataRdStatus | .ataRdData2
  | .ataWrData _ | .ataWrFeature _ | .ataWrSectorCount _ | .ataWrSector _ | .ataWrCylinderLow _
  | .ataWrCylinderHigh _ | .ataWrHeadDrive _ | .ataWrCommand _ | .ataWrData2 _
  | .readSectorRetry | .readSectorNoretry | .writeSectorRetry | .writeSectorNoretry
  | .identifyDriveAta | .identifyDriveAtapi | .initializeDeviceParameters
  | .spiWr _ | .spiRd
  | .cmd0GoIdleState _ _ | .cmd8SendIfCond _ _ | .cmd9SendCsd _ _ | .cmd10SendCid _ _
  | .cmd17ReadSingleBlock _ _ | .cmd24WriteBlock _ _ | .cmd32EraseWrBlkStart _ _
  | .cmd33EraseWrBlkEnd _ _ | .cmd38Erase _ _ | .cmd55AppCmd _ _ | .cmd58ReadOcr _ _
  | .acmd41SdSendOpCond _ _ | .mmcDataBlock _ _ _
  | .ataNew _ | .ataEject _ | .ataCommit _ | .ataDirty _
  | .mmcNew | .mmcEject | .mmcCommit | .mmcDirty => true

end Sys2Proof
end

