-- ==== Sys2Proof/Decode.lean ====
section
/-! DEFINITION. The decoder, total on any raw transaction and rejecting by name; then the encoder,
written from the same tables (R90 to R109); then the reading of a number of spec/opcode_table.json
as a raw transaction. -/

namespace Sys2Proof

/-- The interfaces a transaction arrives on, one per format of 30_encoding.md. -/
inductive Format where
  | ataXact    -- one ATA register access, 13 bits in two bytes (R90)
  | ataCmd     -- one ATA command opcode (R97)
  | spiXact    -- one SPI byte access, 9 bits in two bytes (R92)
  | mmcFrame   -- a command frame, six bytes in the order sent (R100)
  | mmcData    -- a host data block: token, 512 bytes, two CRC bytes (R109)
  | hostCall   -- a host call: selector and arguments, four bytes (R93, log 3)
  deriving DecidableEq, Repr

/-- A raw transaction: the interface and the bytes, in order. The two-byte formats store their word
low byte first (log 3). -/
structure Xact where
  fmt : Format
  bytes : List Byte
  deriving DecidableEq, Repr

/-- Why bytes are no transaction of their format. -/
inductive DecodeError where
  | wrongLength                    -- not as many bytes as the format has (R114)
  | reservedBits                   -- a bit outside the format's word is set
  | noSuchRegister (index : Nat)   -- register indices 9 to 15 are not transactions (R90)
  | notACommandByte (b : Byte)     -- the first byte of a frame is not 01cccccc (R100)
  | notAStartToken (b : Byte)      -- the first byte of a data block is not 0xFE (R109)
  | noSuchCall (selector : Nat)    -- a selector that R93 does not list
  | badOperand                     -- an argument of a host call that R93 does not allow
  deriving DecidableEq, Repr

/-- The first n bytes of a list, zeros where it ends early. -/
def padTo : Nat → List Byte → List Byte
  | 0, _ => []
  | n + 1, [] => 0 :: padTo n []
  | n + 1, b :: bs => b :: padTo n bs

@[simp] theorem padTo_length (n : Nat) (l : List Byte) : (padTo n l).length = n := by
  induction n generalizing l with
  | zero => rfl
  | succ n ih => cases l <;> simp [padTo, ih]

/-- The first n bytes of a list as a block of n bytes. -/
def blockOf (n : Nat) (l : List Byte) : Vector Byte n := ⟨⟨padTo n l⟩, by simp⟩

/-! ### The decoder -/

/-- The register access with selector `T[12:8]` (w and reg of R90, indices of R91) and data byte b. -/
def decodeAtaXact (selector : Nat) (b : Byte) : Except DecodeError Instr :=
  match selector with
  | 0 => .ok .ataRdData
  | 1 => .ok .ataRdError
  | 2 => .ok .ataRdSectorCount
  | 3 => .ok .ataRdSector
  | 4 => .ok .ataRdCylinderLow
  | 5 => .ok .ataRdCylinderHigh
  | 6 => .ok .ataRdHeadDrive
  | 7 => .ok .ataRdStatus
  | 8 => .ok .ataRdData2
  | 16 => .ok (.ataWrData b)
  | 17 => .ok (.ataWrFeature b)
  | 18 => .ok (.ataWrSectorCount b)
  | 19 => .ok (.ataWrSector b)
  | 20 => .ok (.ataWrCylinderLow b)
  | 21 => .ok (.ataWrCylinderHigh b)
  | 22 => .ok (.ataWrHeadDrive b)
  | 23 => .ok (.ataWrCommand b)
  | 24 => .ok (.ataWrData2 b)
  | n => if n < 32 then .error (.noSuchRegister (n % 16)) else .error .reservedBits

/-- The ATA command opcodes (R97, R98): any value is some command. -/
def decodeAtaCmd (op : Byte) : Instr :=
  match op.toNat with
  | 0x20 => .readSectorRetry
  | 0x21 => .readSectorNoretry
  | 0x30 => .writeSectorRetry
  | 0x31 => .writeSectorNoretry
  | 0x91 => .initializeDeviceParameters
  | 0xA1 => .identifyDriveAtapi
  | 0xEC => .identifyDriveAta
  | _ => .ataCmdOther op

/-- A standard command index (R102). -/
def decodeCmd (index : BitVec 6) (arg : BitVec 32) (crc : Byte) : Instr :=
  match index.toNat with
  | 0 => .cmd0GoIdleState arg crc
  | 8 => .cmd8SendIfCond arg crc
  | 9 => .cmd9SendCsd arg crc
  | 10 => .cmd10SendCid arg crc
  | 17 => .cmd17ReadSingleBlock arg crc
  | 24 => .cmd24WriteBlock arg crc
  | 32 => .cmd32EraseWrBlkStart arg crc
  | 33 => .cmd33EraseWrBlkEnd arg crc
  | 38 => .cmd38Erase arg crc
  | 55 => .cmd55AppCmd arg crc
  | 58 => .cmd58ReadOcr arg crc
  | _ => .cmdOther index arg crc

/-- An application command index (R102, R103). -/
def decodeAcmd (index : BitVec 6) (arg : BitVec 32) (crc : Byte) : Instr :=
  if index = 41 then .acmd41SdSendOpCond arg crc else .acmdOther index arg crc

/-- The argument bytes, first byte most significant (R104). -/
def argOfBytes (a0 a1 a2 a3 : Byte) : BitVec 32 := a0 ++ a1 ++ a2 ++ a3

/-- A unit operand: 0 or 1 (R93). -/
def decodeUnit (b : Byte) : Option DriveUnit :=
  match b.toNat with
  | 0 => some .master
  | 1 => some .slave
  | _ => none

/-- A databus operand, in the order of R9. -/
def decodeDatabus (b : Byte) : Option Databus :=
  match b.toNat with
  | 0 => some .d8
  | 1 => some .d16
  | 2 => some .d16Byteswap
  | 3 => some .d16Data2
  | _ => none

/-- A call whose one argument is a unit; its image operand must be zero. -/
def unitCall (call : DriveUnit → Instr) (x : Byte) (image : Nat) : Except DecodeError Instr :=
  match decodeUnit x with
  | some u => if image = 0 then .ok (call u) else .error .badOperand
  | none => .error .badOperand

/-- A call with no argument; its operands must be zero. -/
def plainCall (call : Instr) (x : Byte) (image : Nat) : Except DecodeError Instr :=
  if x = 0 ∧ image = 0 then .ok call else .error .badOperand

/-- The host calls (R93): selector, the unit or databus operand x, the image number. -/
def decodeHostCall (selector : Nat) (x : Byte) (image : Nat) : Except DecodeError Instr :=
  match selector with
  | 0 =>
    match decodeDatabus x with
    | some d => if image = 0 then .ok (.ataNew d) else .error .badOperand
    | none => .error .badOperand
  | 1 =>
    match decodeUnit x with
    | some u => .ok (.ataInsert u image)
    | none => .error .badOperand
  | 2 => unitCall .ataEject x image
  | 3 => unitCall .ataCommit x image
  | 4 => unitCall .ataDirty x image
  | 8 => plainCall .mmcNew x image
  | 9 => if x = 0 then .ok (.mmcInsert image) else .error .badOperand
  | 10 => plainCall .mmcEject x image
  | 11 => plainCall .mmcCommit x image
  | 12 => plainCall .mmcDirty x image
  | n => if n < 16 then .error (.noSuchCall n) else .error .reservedBits

/-- Reading a raw transaction. `app` is the mode bit `cmd55_issued`, the only one that changes
decoding: it says whether a frame is an application command (R103). -/
def decode (app : Bool) (x : Xact) : Except DecodeError Instr :=
  match x.fmt, x.bytes with
  | .ataXact, [lo, hi] => decodeAtaXact hi.toNat lo
  | .ataCmd, [op] => .ok (decodeAtaCmd op)
  | .spiXact, [lo, hi] =>
    if hi = 0 then .ok .spiRd
    else if hi = 1 then .ok (.spiWr lo)
    else .error .reservedBits
  | .mmcFrame, [c, a0, a1, a2, a3, k] =>
    if c &&& 0xC0 ≠ 0x40 then .error (.notACommandByte c)
    else if app then .ok (decodeAcmd (c.setWidth 6) (argOfBytes a0 a1 a2 a3) k)
    else .ok (decodeCmd (c.setWidth 6) (argOfBytes a0 a1 a2 a3) k)
  | .mmcData, token :: rest =>
    if token ≠ 0xFE then .error (.notAStartToken token)
    else if rest.length ≠ 514 then .error .wrongLength
    else .ok (.mmcDataBlock (blockOf 512 rest) (rest.getD 512 0) (rest.getD 513 0))
  | .hostCall, [sel, x, lo, hi] => decodeHostCall sel.toNat x (lo.toNat + 256 * hi.toNat)
  | _, _ => .error .wrongLength

/-! ### The encoder -/

/-- Whether the instruction is one only after APP_CMD (the `context` of its table row). -/
def Instr.isApp : Instr → Bool
  | .acmd41SdSendOpCond _ _ | .acmdOther _ _ _ => true
  | _ => false

/-- The transaction of a register read, its ignored data field written as 0 (R90). -/
def encodeRead (reg : Byte) : Xact := ⟨.ataXact, [0, reg]⟩

/-- The transaction of a register write: bit 12 of the word set (R90). -/
def encodeWrite (reg b : Byte) : Xact := ⟨.ataXact, [b, 0x10 ||| reg]⟩

/-- The transaction of an ATA opcode (R97). -/
def encodeOpcode (op : Byte) : Xact := ⟨.ataCmd, [op]⟩

/-- The six bytes of a command frame (R100). -/
def frameBytes (index : BitVec 6) (arg : BitVec 32) (crc : Byte) : List Byte :=
  [0x40 ||| index.setWidth 8, arg.extractLsb' 24 8, arg.extractLsb' 16 8, arg.extractLsb' 8 8,
    arg.extractLsb' 0 8, crc]

/-- The transaction of a command frame. -/
def encodeFrame (index : BitVec 6) (arg : BitVec 32) (crc : Byte) : Xact :=
  ⟨.mmcFrame, frameBytes index arg crc⟩

/-- The bytes of a host data block (R109). -/
def dataBlockBytes (data : Sector) (crc1 crc2 : Byte) : List Byte :=
  0xFE :: (data.toList ++ [crc1, crc2])

/-- The transaction of a host call (R93, log 3). -/
def encodeCall (selector x : Byte) (image : Nat) : Xact :=
  ⟨.hostCall, [selector, x, BitVec.ofNat 8 image, BitVec.ofNat 8 (image / 256)]⟩

/-- The number of a unit (R93). -/
def encodeUnit : DriveUnit → Byte
  | .master => 0
  | .slave => 1

/-- The number of a databus policy, in the order of R9. -/
def encodeDatabus : Databus → Byte
  | .d8 => 0
  | .d16 => 1
  | .d16Byteswap => 2
  | .d16Data2 => 3

/-- The raw transaction of a well-formed instruction. -/
def encode : Instr → Xact
  | .ataRdData => encodeRead 0
  | .ataRdError => encodeRead 1
  | .ataRdSectorCount => encodeRead 2
  | .ataRdSector => encodeRead 3
  | .ataRdCylinderLow => encodeRead 4
  | .ataRdCylinderHigh => encodeRead 5
  | .ataRdHeadDrive => encodeRead 6
  | .ataRdStatus => encodeRead 7
  | .ataRdData2 => encodeRead 8
  | .ataWrData b => encodeWrite 0 b
  | .ataWrFeature b => encodeWrite 1 b
  | .ataWrSectorCount b => encodeWrite 2 b
  | .ataWrSector b => encodeWrite 3 b
  | .ataWrCylinderLow b => encodeWrite 4 b
  | .ataWrCylinderHigh b => encodeWrite 5 b
  | .ataWrHeadDrive b => encodeWrite 6 b
  | .ataWrCommand b => encodeWrite 7 b
  | .ataWrData2 b => encodeWrite 8 b
  | .readSectorRetry => encodeOpcode 0x20
  | .readSectorNoretry => encodeOpcode 0x21
  | .writeSectorRetry => encodeOpcode 0x30
  | .writeSectorNoretry => encodeOpcode 0x31
  | .identifyDriveAta => encodeOpcode 0xEC
  | .identifyDriveAtapi => encodeOpcode 0xA1
  | .initializeDeviceParameters => encodeOpcode 0x91
  | .ataCmdOther op => encodeOpcode op
  | .spiWr b => ⟨.spiXact, [b, 1]⟩
  | .spiRd => ⟨.spiXact, [0, 0]⟩
  | .cmd0GoIdleState arg crc => encodeFrame 0 arg crc
  | .cmd8SendIfCond arg crc => encodeFrame 8 arg crc
  | .cmd9SendCsd arg crc => encodeFrame 9 arg crc
  | .cmd10SendCid arg crc => encodeFrame 10 arg crc
  | .cmd17ReadSingleBlock arg crc => encodeFrame 17 arg crc
  | .cmd24WriteBlock arg crc => encodeFrame 24 arg crc
  | .cmd32EraseWrBlkStart arg crc => encodeFrame 32 arg crc
  | .cmd33EraseWrBlkEnd arg crc => encodeFrame 33 arg crc
  | .cmd38Erase arg crc => encodeFrame 38 arg crc
  | .cmd55AppCmd arg crc => encodeFrame 55 arg crc
  | .cmd58ReadOcr arg crc => encodeFrame 58 arg crc
  | .cmdOther index arg crc => encodeFrame index arg crc
  | .acmd41SdSendOpCond arg crc => encodeFrame 41 arg crc
  | .acmdOther index arg crc => encodeFrame index arg crc
  | .mmcDataBlock data crc1 crc2 => ⟨.mmcData, dataBlockBytes data crc1 crc2⟩
  | .ataNew databus => encodeCall 0 (encodeDatabus databus) 0
  | .ataInsert unit image => encodeCall 1 (encodeUnit unit) image
  | .ataEject unit => encodeCall 2 (encodeUnit unit) 0
  | .ataCommit unit => encodeCall 3 (encodeUnit unit) 0
  | .ataDirty unit => encodeCall 4 (encodeUnit unit) 0
  | .mmcNew => encodeCall 8 0 0
  | .mmcInsert image => encodeCall 9 0 image
  | .mmcEject => encodeCall 10 0 0
  | .mmcCommit => encodeCall 11 0 0
  | .mmcDirty => encodeCall 12 0 0

/-! ### Numbers of the opcode table -/

/-- The low n bytes of a number, low byte first. -/
def bytesOfNat (n w : Nat) : List Byte := (List.range n).map fun i => BitVec.ofNat 8 (w >>> (8 * i))

/-- A word of sixteen bits: a register access or an SPI access. The two formats number the same
words where the value is below 0x200; there a word with a zero data field is read as the register
access and any other as the SPI access (log 4). -/
def tableFormat16 (w : Nat) : Format :=
  if w < 0x200 ∧ w % 256 ≠ 0 then .spiXact else .ataXact

/-- A word of eight bits: a host call selector, the token of a data block, or an ATA opcode (log 4). -/
def tableFormat8 (w : Nat) : Format :=
  if w ∈ [0, 1, 2, 3, 4, 8, 9, 10, 11, 12] then .hostCall
  else if w = 0xFE then .mmcData
  else .ataCmd

/-- The format of a table row that gives nbits bits, the row's own width or that in whole bytes. -/
def tableFormat (nbits w : Nat) : Format :=
  match nbits with
  | 4 => .hostCall
  | 8 => tableFormat8 w
  | 9 => .spiXact
  | 13 => .ataXact
  | 48 => .mmcFrame
  | 4120 => .mmcData
  | _ => tableFormat16 w

/-- The bytes a format lays out for a table number: a frame's number has its first byte most
significant (R100), every other format its first byte least significant. -/
def tableBytes (fmt : Format) (w : Nat) : List Byte :=
  match fmt with
  | .ataXact | .spiXact => bytesOfNat 2 w
  | .ataCmd => bytesOfNat 1 w
  | .mmcFrame => (bytesOfNat 6 w).reverse
  | .mmcData => bytesOfNat 515 w
  | .hostCall => bytesOfNat 4 w

/-- The raw transaction of a table number, every bit above nbits zero. -/
def tableXact (nbits w : Nat) : Xact :=
  ⟨tableFormat nbits (w % 2 ^ nbits), tableBytes (tableFormat nbits (w % 2 ^ nbits)) (w % 2 ^ nbits)⟩

/-- The mode under which a table number is read: the one frame that the table names as an
application command is read as that, every other frame as a standard command (R102, log 4). -/
def tableApp (nbits w : Nat) : Bool :=
  nbits == 48 && (w % 2 ^ nbits) >>> 40 == 0x69

/-- The instruction the decoder reads from a table number. -/
def decodeTableWord (nbits w : Nat) : Option Instr :=
  match decode (tableApp nbits w) (tableXact nbits w) with
  | .ok i => some i
  | .error _ => none

end Sys2Proof
end

