-- ==== Sys2Proof/Machine/Params.lean ====
section
/-! DEFINITION. The parameters' default values, as R10 recommends them; the two free inputs without
a default are the opaque constants of Config (log 6, log 7). -/

namespace Sys2Proof.Machine

/-- The defaults of ATA_RESET (R50). -/
def ataResetDefault : AtaReset :=
  { sectorCount := 0x01, sector := 0x01, cylinderLow := 0x00, cylinderHigh := 0x00, head := 0x00,
    status := 0x40, error := 0x01 }

/-- The defaults of R10. -/
def paramsDefault : Params :=
  { ataReset := ataResetDefault
    ataAbsentRead := 0xFF
    ata8HighFill := 0xFF
    ataIdnfWithAbrt := false
    ataUncWithAbrt := false
    mmcResetIdle := Config.mmcResetIdle
    mmcAcmd24EntersDataPhase := false
    mmcWriteErrResponse := [none]
    mmcCsdFill := Vector.replicate 11 0
    mmcCid := Config.mmcCid }

/-- The IDLE bit of `r1_status` after construction and insert (R51, R131). -/
def r1AtReset (p : Params) : Byte := if p.mmcResetIdle then 0x01 else 0x00

end Sys2Proof.Machine
end

