-- ==== Sys2Proof/Machine/State.lean ====
section
/-! DEFINITION. All state of the block (10_state.md), as plain data; the values after construction,
the only reset (R50, R51, R330); the reasons a step can stop. -/

namespace Sys2Proof.Machine

/-- Bytes stored per sector in the image and in the cache (R22). -/
inductive SectorSize where
  | s256
  | s512
  deriving DecidableEq, Repr

/-- The transfer phase of a channel (R34). -/
inductive Phase where
  | ready
  | pioOut
  | pioIn
  deriving DecidableEq, Repr

/-- The state of the card's receiver (R41). -/
inductive CommandState where
  | waitingForCommand
  | waitingForData0
  | waitingForData1
  | waitingForData2
  | waitingForData3
  | waitingForCrc
  | waitingForDataToken
  | waitingForData
  | waitingForDataCrc1
  | waitingForDataCrc2
  deriving DecidableEq, Repr

/-- How far the erase handshake has come: the `None`, `Start` and `End` of R46. -/
inductive EraseSequence where
  | closed
  | started
  | ended
  deriving DecidableEq, Repr

/-- The error results of the insert calls, the only ones the block returns (R130, R131, R81). -/
inductive InsertError where
  | invalidFormat
  | ioError
  | insertRejected
  deriving DecidableEq, Repr

/-- What a host operation returns to the host (R12, R93). The model's own field (log 22). -/
inductive Result where
  | nothing
  | byte (b : Byte)
  | flag (b : Bool)
  | ok
  | error (e : InsertError)
  deriving DecidableEq, Repr

/-- The write-back cache of a drive (R52): sector number and packed bytes, keys strictly rising. -/
abbrev Cache := List (Nat × List Byte)

/-- Sparse bytes: addresses strictly rising, no entry equal to what an unlisted address reads as. -/
abbrev Mem := List Host.Cell

/-- A drive record, created by insert and destroyed by eject (R21, R22). -/
structure Drive where
  /-- The handle of the image: the number of its file (log 11). -/
  image : Nat
  dataOffset : Nat
  sectorSize : SectorSize
  cylinders : BitVec 16
  heads : BitVec 16
  sectors : BitVec 16
  identity : Vector Byte 106
  error : Byte
  status : Byte
  cache : Cache
  deriving DecidableEq, Repr

/-- An ATA channel (R20, R21, R26 to R36). -/
structure Channel where
  databus : Databus
  drive0 : Option Drive
  drive1 : Option Drive
  selected : DriveUnit
  feature : Byte
  sectorCount : Byte
  sector : Byte
  cylinderLow : Byte
  cylinderHigh : Byte
  head : Byte
  data2 : Byte
  phase : Phase
  datacounter : Nat
  buffer : Sector
  deriving DecidableEq, Repr

/-- What the card slot holds: the drive, and the two values derived at insert (R39). -/
structure Medium where
  drive : Drive
  totalSectors : Nat
  cSize : Nat
  deriving DecidableEq, Repr

/-- The card controller (R39 to R48). -/
structure Card where
  slot : Option Medium
  r1Status : Byte
  commandState : CommandState
  currentCommand : BitVec 6
  arg0 : Byte
  arg1 : Byte
  arg2 : Byte
  arg3 : Byte
  sendBuffer : Sector
  dataCount : Nat
  responseBuffer : Vector Byte 516
  rd : Nat
  wr : Nat
  eraseSequence : EraseSequence
  eraseStart : BitVec 32
  eraseEnd : BitVec 32
  cmd8Issued : Bool
  cmd55Issued : Bool
  deriving DecidableEq, Repr

/-- The file platform behind the block (R80, R82), with the model's own bookkeeping of free inputs. -/
structure Env where
  /-- The bytes of every image file (log 11). -/
  files : Mem
  /-- The answers of the environment to the next file operations, oldest first (log 8). -/
  fileScript : List Bool
  /-- How many file operations the free oracle has answered (log 8). -/
  fileAsked : Nat
  /-- How often free values other than FileOK have been taken (log 8). -/
  freeUsed : Nat
  deriving DecidableEq, Repr

/-- The machine: one channel, one card, the parameters, the file platform, the host operations not
yet performed (oldest first), and what the last one returned. -/
structure State where
  cfg : Params
  chan : Channel
  card : Card
  env : Env
  inbox : List Xact
  result : Result
  deriving DecidableEq, Repr

/-- The reasons for a fault. -/
inductive Fault where
  /-- Raised by step when a transaction names an ATA register index 9 to 15: an address that does
  not exist (R60, R90). Safe: the machine stops where the spec gives the access no meaning. -/
  | noSuchRegister (index : Nat)
  deriving DecidableEq, Repr

/-- The reasons for a refusal. -/
inductive Refusal where
  /-- Raised by exec for an instruction that has no meaning yet. Safe. -/
  | notModelled (mnemonic : String)
  /-- Raised by step for bytes that are no transaction of their format. Safe. -/
  | notATransaction (e : DecodeError)
  /-- Raised by ATA_INSERT and MMC_INSERT when the slot is not empty (R141). Safe: outside the host
  duties the spec gives the call no meaning, and says to refuse it. -/
  | slotOccupied
  /-- Raised by eject, commit and dirty when the slot is empty (R141). Safe, as above. -/
  | slotEmpty
  /-- Raised by ATA_INSERT and ATA_EJECT while the phase is not Ready (R141, R340). Safe, as above. -/
  | transferOpen
  /-- Raised by MMC_EJECT while the receiver is not waiting for a command (R141, R340). Safe, as
  above. -/
  | frameOpen
  /-- Raised by the insert calls for an image that the other instance holds: R314 and U14 give two
  instances on one image no meaning. Safe, as above. -/
  | imageShared
  deriving DecidableEq, Repr

/-! ### After construction -/

/-- A channel after `ATA_NEW databus` (R50), given the values that R50 leaves unspecified. -/
def Channel.fresh (p : Params) (databus : Databus) (feature data2 : Byte) (buffer : Sector) :
    Channel :=
  { databus, drive0 := none, drive1 := none, selected := .master, feature,
    sectorCount := p.ataReset.sectorCount, sector := p.ataReset.sector,
    cylinderLow := p.ataReset.cylinderLow, cylinderHigh := p.ataReset.cylinderHigh,
    head := p.ataReset.head, data2, phase := .ready, datacounter := 0, buffer }

/-- A card controller after `MMC_NEW` (R51), given the values that R51 leaves unspecified. -/
def Card.fresh (p : Params) (currentCommand : BitVec 6) (arg0 arg1 arg2 arg3 : Byte)
    (sendBuffer : Sector) (responseBuffer : Vector Byte 516) (eraseStart eraseEnd : BitVec 32) :
    Card :=
  { slot := none, r1Status := r1AtReset p, commandState := .waitingForCommand, currentCommand,
    arg0, arg1, arg2, arg3, sendBuffer, dataCount := 0, responseBuffer, rd := 0, wr := 0,
    eraseSequence := .closed, eraseStart, eraseEnd, cmd8Issued := false, cmd55Issued := false }

/-- The state right after construction: R50 under the 8-bit policy (log 15), R51, unspecified values
zero (log 14), no file byte listed, no host operation waiting. -/
def State.reset : State :=
  { cfg := paramsDefault
    chan := Channel.fresh paramsDefault .d8 0 0 (Vector.replicate 512 0)
    card := Card.fresh paramsDefault 0 0 0 0 0 (Vector.replicate 512 0) (Vector.replicate 516 0) 0 0
    env := { files := [], fileScript := [], fileAsked := 0, freeUsed := 0 }
    inbox := []
    result := .nothing }

end Sys2Proof.Machine
end

