-- ==== Sys2Proof/Machine/Flags.lean ====
section
/-! DEFINITION. Every flag computation: the ATA status and error registers (R24, R25) and the R1
bits of the card (R40). -/

namespace Sys2Proof.Machine

/-! ### The ATA status byte (R25, R94) -/

def statusErr : Byte := 0x01
def statusDrq : Byte := 0x08
def statusDrdy : Byte := 0x40
def statusBsy : Byte := 0x80

/-- `status.ERR <- 1`. -/
def setErr (status : Byte) : Byte := status ||| statusErr

/-- `status.DRQ <- 1`. -/
def setDrq (status : Byte) : Byte := status ||| statusDrq

/-- `status.DRQ <- 0`. -/
def clearDrq (status : Byte) : Byte := status &&& ~~~statusDrq

/-- What every accepted command does to the status first (R191). -/
def preambleStatus (status : Byte) : Byte := (status &&& ~~~(statusErr ||| statusBsy)) ||| statusDrdy

/-! ### The ATA error byte (R24, R95) -/

def errorAbrt : Byte := 0x04
def errorIdnf : Byte := 0x10
def errorUnc : Byte := 0x40

/-- The error byte of an address out of range (R207). -/
def rangeErrorByte (p : Params) : Byte := errorIdnf ||| (if p.ataIdnfWithAbrt then errorAbrt else 0)

/-- The error byte of a failed store read (R210). -/
def readErrorByte (p : Params) : Byte := errorUnc ||| (if p.ataUncWithAbrt then errorAbrt else 0)

/-! ### The R1 byte of the card (R40, R106) -/

def r1Idle : Byte := 0x01
def r1EraseReset : Byte := 0x02
def r1IllegalCommand : Byte := 0x04
def r1EraseSeqError : Byte := 0x10
def r1ParameterError : Byte := 0x40

/-- The four result bits start clear; IDLE is kept (R260). -/
def clearResultBits (r1 : Byte) : Byte := r1 &&& r1Idle

/-- Is the card in the idle state? -/
def isIdle (r1 : Byte) : Bool := r1 &&& r1Idle != 0

end Sys2Proof.Machine
end

