-- ==== Sys2Proof/Machine/Operands.lean ====
section
/-! DEFINITION. Every operand form: words of a block (R11, R63), the image header (R62, R64), the
ATA sector address (R99, R206) and its increment (R208, R209), the argument of a command frame
(R104, R274), the CSD (R264). -/

namespace Sys2Proof.Machine

/-! ### Bytes and words of a block -/

/-- Byte i of a block. -/
def byteAt {n : Nat} (v : Vector Byte n) (i : Nat) : Byte := v[i]?.getD 0

/-- `buf[i] <- b`. -/
def setByte {n : Nat} (v : Vector Byte n) (i : Nat) (b : Byte) : Vector Byte n := v.setIfInBounds i b

/-- `word(buf, i)`: low byte at the even index (R11, R63). -/
def wordAt {n : Nat} (v : Vector Byte n) (i : Nat) : BitVec 16 := byteAt v (2 * i + 1) ++ byteAt v (2 * i)

/-- `setword(buf, i, v)` (R11). -/
def setWord {n : Nat} (v : Vector Byte n) (i : Nat) (w : BitVec 16) : Vector Byte n :=
  setByte (setByte v (2 * i) (w.extractLsb' 0 8)) (2 * i + 1) (w.extractLsb' 8 8)

/-- `x[15:0]` of a natural number. -/
def lowWord (x : Nat) : BitVec 16 := BitVec.ofNat 16 x

/-- `x[31:16]` of a natural number. -/
def highWord (x : Nat) : BitVec 16 := BitVec.ofNat 16 (x / 65536)

/-! ### Drives -/

/-- The bytes a packed sector holds (R22). -/
def SectorSize.bytes : SectorSize → Nat
  | .s256 => 256
  | .s512 => 512

/-- `T(d)`: the number of logical sectors, without overflow (R23, R11). -/
def Drive.total (d : Drive) : Nat := d.cylinders.toNat * d.heads.toNat * d.sectors.toNat

/-- Where the packed bytes of sector n lie in the image (R65). -/
def Drive.sectorOffset (d : Drive) (n : Nat) : Nat := d.dataOffset + n * d.sectorSize.bytes

/-! ### The image header (R62) -/

/-- The length of the header (R62, R130). -/
def headerLength : Nat := 128

/-- The signature, the ASCII bytes of RS-IDE (R62). -/
def headerSignature : List Byte := [0x52, 0x53, 0x2D, 0x49, 0x44, 0x45]

/-- Is this the header of an HDF image: signature and id byte (R62, R130)? -/
def headerValid (header : List Byte) : Bool :=
  header.take 6 == headerSignature && header.getD 6 0 == 0x1A

/-- `sector_size`: flag bit 0 (R64). -/
def headerSectorSize (header : List Byte) : SectorSize :=
  if (header.getD 8 0).getLsbD 0 then .s256 else .s512

/-- `data_offset`: two bytes, little-endian (R62, R64). -/
def headerDataOffset (header : List Byte) : Nat :=
  (header.getD 9 0).toNat + 256 * (header.getD 10 0).toNat

/-- The drive identity block: the 106 bytes from offset 0x16 (R62). -/
def headerIdentity (header : List Byte) : Vector Byte 106 := blockOf 106 (header.drop 0x16)

/-! ### The ATA sector address -/

/-- The LBA bit of HEAD/DRIVE (R32). -/
def Channel.lba (c : Channel) : Bool := c.head.getLsbD 6

/-- The head nibble of HEAD/DRIVE (R32). -/
def Channel.headNibble (c : Channel) : BitVec 4 := c.head.extractLsb' 0 4

/-- The unit that bit 4 of a HEAD/DRIVE byte names (R26, R32). -/
def unitOfHead (b : Byte) : DriveUnit := if b.getLsbD 4 then .slave else .master

/-- The 28-bit sector number of LBA mode (R99). -/
def Channel.lbaNumber (c : Channel) : BitVec 28 :=
  c.headNibble ++ c.cylinderHigh ++ c.cylinderLow ++ c.sector

/-- The 16-bit cylinder of CHS mode (R99). -/
def Channel.cylinder (c : Channel) : BitVec 16 := c.cylinderHigh ++ c.cylinderLow

/-- `address()`: the sector number that the task file names, if it is valid for the drive (R206). -/
def address (c : Channel) (d : Drive) : Option Nat :=
  if c.lba then
    if c.lbaNumber.toNat < d.total then some c.lbaNumber.toNat else none
  else
    if c.cylinder.toNat < d.cylinders.toNat ∧ c.headNibble.toNat < d.heads.toNat ∧
        1 ≤ c.sector.toNat ∧ c.sector.toNat ≤ d.sectors.toNat then
      some ((c.cylinder.toNat * d.heads.toNat + c.headNibble.toNat) * d.sectors.toNat
        + (c.sector.toNat - 1))
    else none

/-- A HEAD/DRIVE byte with its low nibble replaced. -/
def withNibble (head : Byte) (nibble : BitVec 4) : Byte := head.extractLsb' 4 4 ++ nibble

/-- `advance()` in LBA mode: the carry ripples through the four registers and is dropped at the end
(R208). -/
def advanceLba (c : Channel) : Channel :=
  if c.sector + 1 ≠ 0 then { c with sector := c.sector + 1 }
  else if c.cylinderLow + 1 ≠ 0 then { c with sector := 0, cylinderLow := c.cylinderLow + 1 }
  else if c.cylinderHigh + 1 ≠ 0 then
    { c with sector := 0, cylinderLow := 0, cylinderHigh := c.cylinderHigh + 1 }
  else
    { c with sector := 0, cylinderLow := 0, cylinderHigh := 0,
             head := withNibble c.head (c.headNibble + 1) }

/-- `advance()` in CHS mode; the comparisons are between natural numbers (R209). -/
def advanceChs (c : Channel) (d : Drive) : Channel :=
  if c.sector.toNat = d.sectors.toNat then
    if c.headNibble.toNat + 1 = d.heads.toNat then
      { c with sector := 1, head := withNibble c.head 0,
               cylinderLow := (c.cylinder + 1).extractLsb' 0 8,
               cylinderHigh := (c.cylinder + 1).extractLsb' 8 8 }
    else
      { c with sector := 1, head := withNibble c.head (c.headNibble + 1) }
  else { c with sector := c.sector + 1 }

/-- `advance()` (R208, R209). -/
def advance (c : Channel) (d : Drive) : Channel := if c.lba then advanceLba c else advanceChs c d

/-! ### The card's operands -/

/-- `BE32`: four bytes, the first most significant (R11). -/
def be32 (b0 b1 b2 b3 : Byte) : BitVec 32 := b0 ++ b1 ++ b2 ++ b3

/-- The argument of the current frame (R43, R104). -/
def Card.argument (c : Card) : BitVec 32 := be32 c.arg0 c.arg1 c.arg2 c.arg3

/-- `sector`: the argument as a sector number, neither scaled nor translated (R274). -/
def Card.sectorArg (c : Card) : Nat := c.argument.toNat

/-- `MMC_CSD(c_size)`: the layout of R264, its unmodelled bytes from the parameters (log 18). -/
def csdBytes (p : Params) (cSize : Nat) : List Byte :=
  [0x40, byteAt p.mmcCsdFill 0, byteAt p.mmcCsdFill 1, byteAt p.mmcCsdFill 2, byteAt p.mmcCsdFill 3,
    0x09, byteAt p.mmcCsdFill 4, BitVec.ofNat 8 (cSize / 65536 % 64), BitVec.ofNat 8 (cSize / 256),
    BitVec.ofNat 8 cSize, byteAt p.mmcCsdFill 5, byteAt p.mmcCsdFill 6, byteAt p.mmcCsdFill 7,
    byteAt p.mmcCsdFill 8, byteAt p.mmcCsdFill 9, byteAt p.mmcCsdFill 10]

/-- `MMC_WRITE_ERR_RESPONSE(r1_status)` (R278, log 19). -/
def writeErrResponse (p : Params) (r1 : Byte) : List Byte :=
  p.mmcWriteErrResponse.map fun item => item.getD r1

end Sys2Proof.Machine
end

