-- ==== Sys2Proof/Machine/Ops.lean ====
section
/-! DEFINITION. The named operations over memory, cache, files, drives and registers that the
meanings share. The block takes no exception and returns from none (R300, R308, R309); recording an
error in band, which stands in its place, is `recordError`. -/

namespace Sys2Proof.Machine

/-! ### Sparse memory -/

/-- What an unlisted address reads as (log 11). -/
def unlistedByte : Byte := 0x00

/-- The byte at an address. -/
def readByte : Mem → Nat → Byte
  | [], _ => unlistedByte
  | (a, b) :: rest, x => if x = a then b else if x < a then unlistedByte else readByte rest x

/-- Put a byte in front of a memory whose addresses are all above, unless it is the unlisted byte. -/
def consByte (x : Nat) (v : Byte) (rest : Mem) : Mem :=
  if v = unlistedByte then rest else (x, v) :: rest

/-- Store a byte, keeping the canonical form. -/
def writeByte : Mem → Nat → Byte → Mem
  | [], x, v => consByte x v []
  | (a, b) :: rest, x, v =>
    if x < a then consByte x v ((a, b) :: rest)
    else if x = a then consByte x v rest
    else (a, b) :: writeByte rest x v

/-- n bytes from an address on. -/
def readBytes (m : Mem) (addr n : Nat) : List Byte := (List.range n).map fun i => readByte m (addr + i)

/-- Store bytes from an address on. -/
def writeBytes : Mem → Nat → List Byte → Mem
  | m, _, [] => m
  | m, addr, b :: bs => writeBytes (writeByte m addr b) (addr + 1) bs

/-- Every address of a memory is above x. -/
def Mem.above (x : Nat) : Mem → Bool
  | [] => true
  | (a, _) :: _ => decide (x < a)

/-- The canonical form: addresses strictly rising, no entry equal to the unlisted byte. -/
def Mem.wf : Mem → Bool
  | [] => true
  | (a, b) :: rest => b != unlistedByte && Mem.above a rest && Mem.wf rest

/-! ### Files -/

/-- Addresses set apart for one file; no offset of R65 reaches it (log 11). -/
def fileSpan : Nat := 2 ^ 64

/-- The address of an offset of a file. -/
def fileAddr (image offset : Nat) : Nat := image * fileSpan + offset

/-- n bytes of a file. -/
def Env.fileBytes (e : Env) (image offset n : Nat) : List Byte :=
  readBytes e.files (fileAddr image offset) n

/-- `FileOK`: the answer to the next file operation, and the environment after giving it (R80,
log 8). -/
def Env.ask (e : Env) : Bool × Env :=
  match e.fileScript with
  | answer :: rest => (answer, { e with fileScript := rest })
  | [] => (Config.fileOK e.fileAsked, { e with fileAsked := e.fileAsked + 1 })

/-- Two file operations, the second tried only if the first succeeds: open and read the header,
seek and read, seek and write. Answers whether each succeeded. -/
def Env.askTwice (e : Env) : (Bool × Bool) × Env :=
  if e.ask.1 then ((true, e.ask.2.ask.1), e.ask.2.ask.2) else ((false, false), e.ask.2)

/-- What a failed write leaves of old and new bytes: each byte one of the two (R137, log 9). -/
def tornBytes (k : Nat) (old new : List Byte) : List Byte :=
  (List.range new.length).map fun i =>
    if Config.tornByte k i then new.getD i 0 else old.getD i 0

/-! ### Packing (R66, R134, R136) -/

/-- Every other byte of a list, from the first. -/
def everyOther : List Byte → List Byte
  | [] => []
  | [b] => [b]
  | b :: _ :: rest => b :: everyOther rest

/-- Each byte followed by 0xFF. -/
def interleaveFF : List Byte → List Byte
  | [] => []
  | b :: rest => b :: 0xFF :: interleaveFF rest

/-- `pack(v)` (R136). -/
def pack (size : SectorSize) (v : Sector) : List Byte :=
  match size with
  | .s512 => v.toList
  | .s256 => everyOther v.toList

/-- `unpack(p)` (R134). -/
def unpack (size : SectorSize) (p : List Byte) : Sector :=
  match size with
  | .s512 => blockOf 512 p
  | .s256 => blockOf 512 (interleaveFF p)

/-! ### The cache (R52) -/

/-- The entry of a sector. -/
def cacheFind : Cache → Nat → Option (List Byte)
  | [], _ => none
  | (k, p) :: rest, n => if n = k then some p else cacheFind rest n

/-- Insert or replace the entry of a sector, keys kept strictly rising. -/
def cacheUpsert : Cache → Nat → List Byte → Cache
  | [], n, p => [(n, p)]
  | (k, q) :: rest, n, p =>
    if n < k then (n, p) :: (k, q) :: rest
    else if n = k then (n, p) :: rest
    else (k, q) :: cacheUpsert rest n p

/-- Remove the entry of a sector. -/
def cacheErase : Cache → Nat → Cache
  | [], _ => []
  | (k, q) :: rest, n => if n = k then rest else (k, q) :: cacheErase rest n

/-! ### The sector primitives -/

/-- `MemRead(d, n, 512)`: the cache entry, else the image; `none` is IoFail (R133). -/
def memRead (d : Drive) (n : Nat) (e : Env) : Option Sector × Env :=
  match cacheFind d.cache n with
  | some p => (some (unpack d.sectorSize p), e)
  | none =>
    if e.askTwice.1.2 then
      (some (unpack d.sectorSize
        (e.fileBytes d.image (d.sectorOffset n) d.sectorSize.bytes)), e.askTwice.2)
    else (none, e.askTwice.2)

/-- `MemWrite(d, n, 512, v)`: into the cache only; it cannot fail (R135). -/
def memWrite (d : Drive) (n : Nat) (v : Sector) : Drive :=
  { d with cache := cacheUpsert d.cache n (pack d.sectorSize v) }

/-- The bytes of logical sector n as the store would give them now, no file operation failing
(`Sector(d, n)` of R67). -/
def sectorOf (d : Drive) (n : Nat) (e : Env) : Sector :=
  match cacheFind d.cache n with
  | some p => unpack d.sectorSize p
  | none => unpack d.sectorSize (e.fileBytes d.image (d.sectorOffset n) d.sectorSize.bytes)

/-! ### Commit (R137) -/

/-- Insert an entry behind those of lower or equal rank. -/
def insertRanked (rank : Nat → Nat) (x : Nat × List Byte) :
    List (Nat × List Byte) → List (Nat × List Byte)
  | [] => [x]
  | y :: rest => if rank x.1 < rank y.1 then x :: y :: rest else y :: insertRanked rank x rest

/-- The order in which a commit visits the entries: rising rank, which is any order (log 10). -/
def commitOrder (rank : Nat → Nat) : Cache → List (Nat × List Byte)
  | [] => []
  | x :: rest => insertRanked rank x (commitOrder rank rest)

/-- Where an entry's bytes go in the files (R65, R137). -/
def entryAddr (d : Drive) (entry : Nat × List Byte) : Nat :=
  fileAddr d.image (d.sectorOffset entry.1)

/-- The files after an entry was written. -/
def commitWritten (d : Drive) (entry : Nat × List Byte) (e : Env) : Env :=
  { e with files := writeBytes e.files (entryAddr d entry) entry.2 }

/-- The files after the write of an entry failed: old bytes, new bytes or a mixture (log 9). -/
def commitTorn (d : Drive) (entry : Nat × List Byte) (e : Env) : Env :=
  { e with
      files := writeBytes e.files (entryAddr d entry)
        (tornBytes e.freeUsed (readBytes e.files (entryAddr d entry) entry.2.length) entry.2)
      freeUsed := e.freeUsed + 1 }

/-- One entry of a commit: seek, write; removed if both succeed, kept otherwise. -/
def commitEntry (de : Drive × Env) (entry : Nat × List Byte) : Drive × Env :=
  if de.2.askTwice.1.1 then
    if de.2.askTwice.1.2 then
      ({ de.1 with cache := cacheErase de.1.cache entry.1 },
        commitWritten de.1 entry de.2.askTwice.2)
    else (de.1, commitTorn de.1 entry de.2.askTwice.2)
  else (de.1, de.2.askTwice.2)

/-- COMMIT: every entry is tried once; a failure does not stop the loop (R137). -/
def commit (d : Drive) (e : Env) : Drive × Env :=
  (commitOrder (Config.commitRank e.freeUsed) d.cache).foldl commitEntry
    (d, { e with freeUsed := e.freeUsed + 1 })

/-- `dirty`: has the cache an entry (R138)? -/
def Drive.dirty (d : Drive) : Bool := !d.cache.isEmpty

/-! ### Opening an image (R130) -/

/-- The drive that a valid header describes (R130, R64). -/
def driveOfHeader (p : Params) (image : Nat) (header : List Byte) : Drive :=
  { image, dataOffset := headerDataOffset header, sectorSize := headerSectorSize header,
    cylinders := wordAt (headerIdentity header) 1, heads := wordAt (headerIdentity header) 3,
    sectors := wordAt (headerIdentity header) 6, identity := headerIdentity header,
    error := p.ataReset.error, status := p.ataReset.status, cache := [] }

/-- Open an image, read its header and build the drive, or the error result (R130). -/
def openDrive (p : Params) (image : Nat) (e : Env) : Except InsertError Drive × Env :=
  if e.askTwice.1.2 then
    if headerValid (e.fileBytes image 0 headerLength) then
      (.ok (driveOfHeader p image (e.fileBytes image 0 headerLength)), e.askTwice.2)
    else (.error .invalidFormat, e.askTwice.2)
  else (.error .ioError, e.askTwice.2)

/-! ### Drive slots -/

/-- The slot of a unit. -/
def Channel.drive (c : Channel) : DriveUnit → Option Drive
  | .master => c.drive0
  | .slave => c.drive1

/-- Put a content into the slot of a unit. -/
def Channel.setDrive (c : Channel) (u : DriveUnit) (d : Option Drive) : Channel :=
  match u with
  | .master => { c with drive0 := d }
  | .slave => { c with drive1 := d }

/-- `drv`: the selected drive, if present (R12). -/
def Channel.drv (c : Channel) : Option Drive := c.drive c.selected

/-- Change the selected drive, if present. -/
def Channel.mapDrv (f : Drive → Drive) (c : Channel) : Channel :=
  c.setDrive c.selected (c.drv.map f)

/-- Does a slot content hold this image? -/
def holdsImage (d : Option Drive) (image : Nat) : Bool :=
  match d with
  | some d => d.image == image
  | none => false

/-! ### State updates -/

/-- Change the channel. -/
def State.mapChan (f : Channel → Channel) (s : State) : State := { s with chan := f s.chan }

/-- Change the card. -/
def State.mapCard (f : Card → Card) (s : State) : State := { s with card := f s.card }

/-- `return v`: what the host gets (R12, log 22). -/
def State.returns (r : Result) (s : State) : State := { s with result := r }

/-- An operation that completes and returns a result: its next state. -/
def completes (r : Result) (s : State) : Host.Outcome State Fault Refusal := .next (s.returns r)

/-! ### Errors in band, and the end of a transfer -/

/-- `status.ERR <- 1; error <- code`, the way every ATA error is recorded (R300, R306). -/
def recordError (code : Byte) (d : Drive) : Drive := { d with status := setErr d.status, error := code }

/-- `phase <- Ready; drv.status.DRQ <- 0`. -/
def endTransfer (c : Channel) : Channel :=
  { c.mapDrv (fun d => { d with status := clearDrq d.status }) with phase := .ready }

/-- Enter a phase with the counter at the start of the buffer and DRQ set. -/
def openTransfer (phase : Phase) (c : Channel) : Channel :=
  { c.mapDrv (fun d => { d with status := setDrq d.status }) with phase := phase, datacounter := 0 }

end Sys2Proof.Machine
end

