-- ==== Sys2Proof/Machine/AtaTransfer.lean ====
section
/-! DEFINITION. The shared procedures of the ATA channel: seek and its range error (R205 to R209),
load_sector (R210), store_sector (R211), the data-bus policies (R170 to R178), and the end-of-buffer
steps (R179, R180). -/

namespace Sys2Proof.Machine

/-! ### seek -/

/-- What a successful `seek()` does to the task file: the count is decremented modulo 256, and the
address advances if sectors remain (R205). -/
def seekAdvance (d : Drive) (c : Channel) : Channel :=
  if c.sectorCount - 1 ≠ 0 then advance { c with sectorCount := c.sectorCount - 1 } d
  else { c with sectorCount := c.sectorCount - 1 }

/-- `range_error()` on the selected drive (R207). -/
def rangeError (p : Params) (c : Channel) : Channel := c.mapDrv (recordError (rangeErrorByte p))

/-! ### Moving a sector -/

/-- `buffer <- d` and into PioIn (R210). -/
def receiveSector (v : Sector) (c : Channel) : Channel := openTransfer .pioIn { c with buffer := v }

/-- `load_sector()` for the selected drive d (R210). After a failed store read the count and the
address stay advanced. -/
def loadSector (d : Drive) (s : State) : State :=
  match address s.chan d with
  | none => s.mapChan fun c => endTransfer (rangeError s.cfg c)
  | some n =>
    match memRead d n s.env with
    | (some v, e) =>
      { s with chan := receiveSector v (seekAdvance d s.chan), env := e }
    | (none, e) =>
      { s with
          chan := endTransfer ((seekAdvance d s.chan).mapDrv (recordError (readErrorByte s.cfg)))
          env := e }

/-- After a sector was stored: the next buffer if sectors remain, else Ready (R180). -/
def nextBufferOrReady (c : Channel) : Channel :=
  if c.sectorCount ≠ 0 then { c with datacounter := 0 } else endTransfer c

/-- `store_sector()` followed by the choice at the end of a PioOut buffer, for the selected drive d
(R180, R211): a failed `seek()` ends the transfer and drops the data; otherwise the sector goes to
the store and the transfer goes on if sectors remain. -/
def storeSector (d : Drive) (s : State) : State :=
  match address s.chan d with
  | none => s.mapChan fun c => endTransfer (rangeError s.cfg c)
  | some n =>
    { s with
        chan := nextBufferOrReady ((seekAdvance d s.chan).mapDrv fun d => memWrite d n s.chan.buffer) }

/-! ### The data-bus policies -/

/-- How many buffer bytes one DATA access moves (R170 to R178). -/
def busStep : Databus → Nat
  | .d8 => 2
  | .d16 => 1
  | .d16Byteswap => 1
  | .d16Data2 => 2

/-- The buffer index of the byte that passes through DATA (R170 to R178). -/
def busIndex : Databus → Nat → Nat
  | .d8, dc => dc
  | .d16, dc => dc
  | .d16Byteswap, dc => dc ^^^ 1
  | .d16Data2, dc => dc

/-- The byte that `read_by_policy()` returns (R170 to R173). -/
def busReadByte (c : Channel) : Byte := byteAt c.buffer (busIndex c.databus c.datacounter)

/-- `read_by_policy()`: the counter advances; with a secondary register, DATA2 latches the odd byte
(R170 to R173). -/
def busRead (c : Channel) : Channel :=
  { c with
      data2 := if c.databus = .d16Data2 then byteAt c.buffer (c.datacounter + 1) else c.data2
      datacounter := c.datacounter + busStep c.databus }

/-- The buffer after `write_by_policy(b)` (R175 to R178): the 8-bit bus fills the odd byte with
ATA8_HIGH_FILL, the secondary register supplies it. -/
def busWriteBuffer (p : Params) (b : Byte) (c : Channel) : Sector :=
  let stored := setByte c.buffer (busIndex c.databus c.datacounter) b
  match c.databus with
  | .d8 => setByte stored (c.datacounter + 1) p.ata8HighFill
  | .d16 => stored
  | .d16Byteswap => stored
  | .d16Data2 => setByte stored (c.datacounter + 1) c.data2

/-- `write_by_policy(b)` (R175 to R178). -/
def busWrite (p : Params) (b : Byte) (c : Channel) : Channel :=
  { c with buffer := busWriteBuffer p b c, datacounter := c.datacounter + busStep c.databus }

/-! ### The end of a buffer -/

/-- `end_of_buffer_in()` for the selected drive d (R179). -/
def endOfBufferIn (d : Drive) (s : State) : State :=
  if 512 ≤ s.chan.datacounter then
    if s.chan.sectorCount ≠ 0 then loadSector d s else s.mapChan endTransfer
  else s

/-- `end_of_buffer_out()` for the selected drive d (R180). -/
def endOfBufferOut (d : Drive) (s : State) : State :=
  if 512 ≤ s.chan.datacounter then storeSector d s else s

end Sys2Proof.Machine
end

