-- ==== Sys2Proof/Machine/AtaCommands.lean ====
section
/-! DEFINITION. The ATA commands (42_ata_commands.md) and the write to COMMAND that carries them. -/

namespace Sys2Proof.Machine

/-- `preamble()` on a drive (R191). -/
def preambleDrive (d : Drive) : Drive := { d with error := 0x00, status := preambleStatus d.status }

/-- Acceptance (R150, R190): with the selected slot empty or outside Ready the write is ignored;
otherwise the preamble runs, then the command's procedure on the selected drive. -/
def acceptCommand (body : Drive → State → State) (s : State) : State :=
  match s.chan.drv with
  | none => s
  | some d =>
    if s.chan.phase = .ready then
      body (preambleDrive d) (s.mapChan fun c => c.mapDrv preambleDrive)
    else s

/-! ### The procedures -/

/-- `read_begin()` (R200). -/
def readBegin (d : Drive) (s : State) : State := loadSector d s

/-- `write_begin()` (R201): no address check here. -/
def writeBegin (_ : Drive) (s : State) : State := s.mapChan (openTransfer .pioOut)

/-- The buffer of the stored identity, extended with zeros (R202). -/
def identityBuffer (d : Drive) : Sector := blockOf 512 d.identity.toList

/-- The buffer with the current geometry and capacity (R202, words 54 to 58). -/
def currentBuffer (d : Drive) : Sector :=
  setWord (setWord (setWord (setWord (setWord (identityBuffer d) 54 d.cylinders) 55 d.heads)
    56 d.sectors) 57 (lowWord d.total)) 58 (highWord d.total)

/-- The 512 bytes of IDENTIFY: words 60 and 61 only if the capabilities word says LBA (R202). -/
def identifyBuffer (d : Drive) : Sector :=
  if (wordAt (currentBuffer d) 49).getLsbD 9 then
    setWord (setWord (currentBuffer d) 60 (lowWord d.total)) 61 (highWord d.total)
  else currentBuffer d

/-- `identify_device()` (R202). -/
def identifyDevice (d : Drive) (s : State) : State :=
  s.mapChan fun c =>
    openTransfer .pioIn { c with buffer := identifyBuffer d, sectorCount := 0 }

/-- ATA_INIT_PARAMS_EFFECT: the default, the identity on the geometry (R203, 90_conflicts C6,
log 17). -/
def initParamsEffect (geometry : BitVec 16 × BitVec 16 × BitVec 16) (_sectorCount _head : Byte) :
    BitVec 16 × BitVec 16 × BitVec 16 := geometry

/-- `init_device_params()` (R203). -/
def initDeviceParams (d : Drive) (s : State) : State :=
  let g := initParamsEffect (d.cylinders, d.heads, d.sectors) s.chan.sectorCount s.chan.head
  s.mapChan fun c => c.mapDrv fun d => { d with cylinders := g.1, heads := g.2.1, sectors := g.2.2 }

/-- `abort()` (R204). -/
def abort (_ : Drive) (s : State) : State := s.mapChan fun c => c.mapDrv (recordError errorAbrt)

/-! ### The opcodes -/

/-- `READ_SECTOR_RETRY`, 0x20 (R192). -/
def execReadSectorRetry (s : State) : Host.Outcome State Fault Refusal :=
  completes .nothing (acceptCommand readBegin s)

/-- `READ_SECTOR_NORETRY`, 0x21: an alias (R193). -/
def execReadSectorNoretry (s : State) : Host.Outcome State Fault Refusal :=
  completes .nothing (acceptCommand readBegin s)

/-- `WRITE_SECTOR_RETRY`, 0x30 (R194). -/
def execWriteSectorRetry (s : State) : Host.Outcome State Fault Refusal :=
  completes .nothing (acceptCommand writeBegin s)

/-- `WRITE_SECTOR_NORETRY`, 0x31: an alias (R195). -/
def execWriteSectorNoretry (s : State) : Host.Outcome State Fault Refusal :=
  completes .nothing (acceptCommand writeBegin s)

/-- `IDENTIFY_DRIVE_ATA`, 0xEC (R196). -/
def execIdentifyDriveAta (s : State) : Host.Outcome State Fault Refusal :=
  completes .nothing (acceptCommand identifyDevice s)

/-- `IDENTIFY_DRIVE_ATAPI`, 0xA1: an alias (R197). -/
def execIdentifyDriveAtapi (s : State) : Host.Outcome State Fault Refusal :=
  completes .nothing (acceptCommand identifyDevice s)

/-- `INITIALIZE_DEVICE_PARAMETERS`, 0x91 (R198). -/
def execInitializeDeviceParameters (s : State) : Host.Outcome State Fault Refusal :=
  completes .nothing (acceptCommand initDeviceParams s)

/-- `ATA_CMD_OTHER`: every other opcode (R199). -/
def execAtaCmdOther (_op : Byte) (s : State) : Host.Outcome State Fault Refusal :=
  completes .nothing (acceptCommand abort s)

/-- `ATA_WR COMMAND, b` (R167, R190): nothing is stored; the byte goes to the command decoder. -/
def execAtaWrCommand (b : Byte) (s : State) : Host.Outcome State Fault Refusal :=
  match b.toNat with
  | 0x20 => execReadSectorRetry s
  | 0x21 => execReadSectorNoretry s
  | 0x30 => execWriteSectorRetry s
  | 0x31 => execWriteSectorNoretry s
  | 0xEC => execIdentifyDriveAta s
  | 0xA1 => execIdentifyDriveAtapi s
  | 0x91 => execInitializeDeviceParameters s
  | _ => execAtaCmdOther b s

end Sys2Proof.Machine
end

