-- ==== Sys2Proof/Machine/AtaRegisters.lean ====
section
/-! DEFINITION. ATA register reads and writes (41_ata_register_access.md), but for a write to
COMMAND, which is in Machine/AtaCommands.lean. -/

namespace Sys2Proof.Machine

/-- A read of a register other than DATA: ATA_ABSENT_READ with the selected slot empty (R150), else
the value the register's rule gives; no state of the block changes. -/
def readRegister (value : Channel → Drive → Byte) (s : State) : Host.Outcome State Fault Refusal :=
  match s.chan.drv with
  | none => completes (.byte s.cfg.ataAbsentRead) s
  | some d => completes (.byte (value s.chan d)) s

/-- A write to a register other than DATA and COMMAND: stored whether or not a drive is selected, in
every phase (R150). -/
def writeRegister (store : Channel → Channel) (s : State) : Host.Outcome State Fault Refusal :=
  completes .nothing (s.mapChan store)

/-! ### Reads -/

/-- `ATA_RD DATA` (R151, R169): the next buffer byte in PioIn, taken before the end-of-buffer step;
0xFF without effect in another phase. -/
def execAtaRdData (s : State) : Host.Outcome State Fault Refusal :=
  match s.chan.drv with
  | none => completes (.byte s.cfg.ataAbsentRead) s
  | some d =>
    if s.chan.phase = .pioIn then
      completes (.byte (busReadByte s.chan)) (endOfBufferIn d (s.mapChan busRead))
    else completes (.byte 0xFF) s

/-- `ATA_RD ERROR` (R152). -/
def execAtaRdError (s : State) : Host.Outcome State Fault Refusal := readRegister (fun _ d => d.error) s

/-- `ATA_RD SECTOR_COUNT` (R153). -/
def execAtaRdSectorCount (s : State) : Host.Outcome State Fault Refusal :=
  readRegister (fun c _ => c.sectorCount) s

/-- `ATA_RD SECTOR` (R154). -/
def execAtaRdSector (s : State) : Host.Outcome State Fault Refusal := readRegister (fun c _ => c.sector) s

/-- `ATA_RD CYLINDER_LOW` (R155). -/
def execAtaRdCylinderLow (s : State) : Host.Outcome State Fault Refusal :=
  readRegister (fun c _ => c.cylinderLow) s

/-- `ATA_RD CYLINDER_HIGH` (R156). -/
def execAtaRdCylinderHigh (s : State) : Host.Outcome State Fault Refusal :=
  readRegister (fun c _ => c.cylinderHigh) s

/-- `ATA_RD HEAD_DRIVE` (R157): all eight bits as stored. -/
def execAtaRdHeadDrive (s : State) : Host.Outcome State Fault Refusal := readRegister (fun c _ => c.head) s

/-- `ATA_RD STATUS` (R158): the read clears nothing. -/
def execAtaRdStatus (s : State) : Host.Outcome State Fault Refusal := readRegister (fun _ d => d.status) s

/-- `ATA_RD DATA2` (R159). -/
def execAtaRdData2 (s : State) : Host.Outcome State Fault Refusal := readRegister (fun c _ => c.data2) s

/-! ### Writes -/

/-- `ATA_WR DATA, b` (R160, R174): into the buffer in PioOut; ignored in another phase (R174) and
with the selected slot empty (R150). -/
def execAtaWrData (b : Byte) (s : State) : Host.Outcome State Fault Refusal :=
  match s.chan.drv with
  | none => completes .nothing s
  | some d =>
    if s.chan.phase = .pioOut then
      completes .nothing (endOfBufferOut d (s.mapChan (busWrite s.cfg b)))
    else completes .nothing s

/-- `ATA_WR FEATURE, b` (R161). -/
def execAtaWrFeature (b : Byte) (s : State) : Host.Outcome State Fault Refusal :=
  writeRegister (fun c => { c with feature := b }) s

/-- `ATA_WR SECTOR_COUNT, b` (R162). -/
def execAtaWrSectorCount (b : Byte) (s : State) : Host.Outcome State Fault Refusal :=
  writeRegister (fun c => { c with sectorCount := b }) s

/-- `ATA_WR SECTOR, b` (R163). -/
def execAtaWrSector (b : Byte) (s : State) : Host.Outcome State Fault Refusal :=
  writeRegister (fun c => { c with sector := b }) s

/-- `ATA_WR CYLINDER_LOW, b` (R164). -/
def execAtaWrCylinderLow (b : Byte) (s : State) : Host.Outcome State Fault Refusal :=
  writeRegister (fun c => { c with cylinderLow := b }) s

/-- `ATA_WR CYLINDER_HIGH, b` (R165). -/
def execAtaWrCylinderHigh (b : Byte) (s : State) : Host.Outcome State Fault Refusal :=
  writeRegister (fun c => { c with cylinderHigh := b }) s

/-- `ATA_WR HEAD_DRIVE, b` (R166): bit 4 selects the drive, at once and in every phase (R337). -/
def execAtaWrHeadDrive (b : Byte) (s : State) : Host.Outcome State Fault Refusal :=
  writeRegister (fun c => { c with head := b, selected := unitOfHead b }) s

/-- `ATA_WR DATA2, b` (R168). -/
def execAtaWrData2 (b : Byte) (s : State) : Host.Outcome State Fault Refusal :=
  writeRegister (fun c => { c with data2 := b }) s

end Sys2Proof.Machine
end

