-- ==== Sys2Proof/Machine/MmcCommands.lean ====
section
/-! DEFINITION. What a completed command frame does (44_mmc_commands.md): the dispatch with its
one-shot prefix and the erase-reset check, one procedure per command, and the data phase. -/

namespace Sys2Proof.Machine

/-! ### The response queue and the R1 bits -/

/-- A response put over the front of the response buffer. -/
def overlay {n : Nat} (l : List Byte) (v : Vector Byte n) : Vector Byte n :=
  blockOf n (l ++ v.toList.drop l.length)

/-- `respond(list)`: the new response replaces the queue (R243). -/
def respond (l : List Byte) (c : Card) : Card :=
  { c with responseBuffer := overlay l c.responseBuffer, rd := 0, wr := l.length }

/-- `respond([R1] ++ list)`, R1 being the status at this moment (R244). -/
def respondR1 (l : List Byte) (c : Card) : Card := respond (c.r1Status :: l) c

/-- Set R1 bits. -/
def raiseR1 (bits : Byte) (c : Card) : Card := { c with r1Status := c.r1Status ||| bits }

/-- Refuse a command: set an R1 bit, answer R1 only. -/
def refuseR1 (bits : Byte) (c : Card) : Card := respondR1 [] (raiseR1 bits c)

/-- A data block of the card: the data token, the bytes, two zero CRC bytes (R108). -/
def cardBlock (data : List Byte) : List Byte := 0xFE :: (data ++ [0x00, 0x00])

/-! ### Standard commands -/

/-- `go_idle_state()` (R261). -/
def goIdleState (c : Card) : Card :=
  respondR1 [] (raiseR1 r1Idle { c with cmd8Issued := false })

/-- `send_if_cond()` (R262). -/
def sendIfCond (c : Card) : Card := respondR1 [0x00, 0x00, 0x01, c.arg3] { c with cmd8Issued := true }

/-- `send_csd()` (R263). -/
def sendCsd (p : Params) (m : Medium) (c : Card) : Card :=
  if isIdle c.r1Status then refuseR1 r1IllegalCommand c
  else respondR1 (cardBlock (csdBytes p m.cSize)) c

/-- `send_cid()` (R265, R266). -/
def sendCid (p : Params) (c : Card) : Card :=
  if isIdle c.r1Status then refuseR1 r1IllegalCommand c
  else respondR1 (cardBlock p.mmcCid.toList) c

/-- `read_single_block()` (R267): the idle check before the range check; a store failure is the
token 0x01 and no R1 bit. -/
def readSingleBlock (m : Medium) (s : State) : State :=
  if isIdle s.card.r1Status then s.mapCard (refuseR1 r1IllegalCommand)
  else if m.totalSectors ≤ s.card.sectorArg then s.mapCard (refuseR1 r1ParameterError)
  else
    match memRead m.drive s.card.sectorArg s.env with
    | (some v, e) => { s with card := respondR1 (cardBlock v.toList) s.card, env := e }
    | (none, e) => { s with card := respondR1 [0x01] s.card, env := e }

/-- `write_block()`: the command phase; nothing is written yet (R268). -/
def writeBlock (m : Medium) (c : Card) : Card :=
  if isIdle c.r1Status then refuseR1 r1IllegalCommand c
  else if m.totalSectors ≤ c.sectorArg then refuseR1 r1ParameterError c
  else respondR1 [] c

/-- An erase step refused: the bit set, the sequence back to None (R269 to R271). -/
def refuseErase (bits : Byte) (c : Card) : Card := refuseR1 bits { c with eraseSequence := .closed }

/-- `erase_wr_blk_start()` (R269). -/
def eraseWrBlkStart (m : Medium) (c : Card) : Card :=
  if c.eraseSequence ≠ .closed then refuseErase r1EraseSeqError c
  else if m.totalSectors ≤ c.sectorArg then refuseErase r1ParameterError c
  else respondR1 [] { c with eraseStart := c.argument, eraseSequence := .started }

/-- `erase_wr_blk_end()` (R270). -/
def eraseWrBlkEnd (m : Medium) (c : Card) : Card :=
  if c.eraseSequence ≠ .started then refuseErase r1EraseSeqError c
  else if m.totalSectors ≤ c.sectorArg ∨ c.sectorArg < c.eraseStart.toNat then
    refuseErase r1ParameterError c
  else respondR1 [] { c with eraseEnd := c.argument, eraseSequence := .ended }

/-- Zero-fill `count` sectors from n on, ascending (R271). -/
def eraseFill : Nat → Nat → Drive → Drive
  | 0, _, d => d
  | count + 1, n, d => eraseFill count (n + 1) (memWrite d n (Vector.replicate 512 0))

/-- `erase()` (R271): both bounds included. -/
def erase (m : Medium) (c : Card) : Card :=
  if c.eraseSequence ≠ .ended then refuseErase r1EraseSeqError c
  else
    respondR1 [0x01]
      { c with
          slot := some { m with
            drive := eraseFill (c.eraseEnd.toNat + 1 - c.eraseStart.toNat) c.eraseStart.toNat m.drive }
          eraseSequence := .closed }

/-- `app_cmd()` (R272). -/
def appCmd (c : Card) : Card := respondR1 [] { c with cmd55Issued := true }

/-- `read_ocr()` (R273). -/
def readOcr (c : Card) : Card := respondR1 [0xC0, 0x00, 0x00, 0x00] c

/-- `cmd_other()` (R275). -/
def cmdOther (c : Card) : Card := refuseR1 r1IllegalCommand c

/-! ### Application commands -/

/-- `sd_send_op_cond()` (R276): R1 is built after the update. -/
def sdSendOpCond (c : Card) : Card :=
  if c.cmd8Issued && c.arg0.getLsbD 6 then
    respondR1 [] { c with r1Status := c.r1Status &&& ~~~r1Idle }
  else respondR1 [] c

/-- `acmd_other()` (R277): the standard command of that index does not run. -/
def acmdOther (c : Card) : Card := refuseR1 r1IllegalCommand c

/-! ### Execution of a frame (R260) -/

/-- Is the command one of the three erase commands (R279)? -/
def isEraseCommand (app : Bool) (index : BitVec 6) : Bool :=
  !app && (index == 32 || index == 33 || index == 38)

/-- `erase_reset_check(is_acmd)` (R279). -/
def eraseResetCheck (app : Bool) (c : Card) : Card :=
  if c.eraseSequence ≠ .closed ∧ isEraseCommand app c.currentCommand = false then
    raiseR1 r1EraseReset { c with eraseSequence := .closed }
  else c

/-- What every frame does first: the prefix is used up, the result bits clear, the erase-reset check
runs (R260). -/
def framePreamble (c : Card) : Card :=
  eraseResetCheck c.cmd55Issued
    { c with cmd55Issued := false, r1Status := clearResultBits c.r1Status }

/-- The standard commands (R260). -/
def runCommand (m : Medium) (s : State) : State :=
  match s.card.currentCommand.toNat with
  | 0 => s.mapCard goIdleState
  | 8 => s.mapCard sendIfCond
  | 9 => s.mapCard (sendCsd s.cfg m)
  | 10 => s.mapCard (sendCid s.cfg)
  | 17 => readSingleBlock m s
  | 24 => s.mapCard (writeBlock m)
  | 32 => s.mapCard (eraseWrBlkStart m)
  | 33 => s.mapCard (eraseWrBlkEnd m)
  | 38 => s.mapCard (erase m)
  | 55 => s.mapCard appCmd
  | 58 => s.mapCard readOcr
  | _ => s.mapCard cmdOther

/-- The application commands (R260). -/
def runAppCommand (s : State) : State :=
  if s.card.currentCommand = 41 then s.mapCard sdSendOpCond else s.mapCard acmdOther

/-- `enters_data` (R236, R260): the command decides, not its outcome. -/
def entersData (p : Params) (app : Bool) (index : BitVec 6) : Bool :=
  index == 24 && (!app || p.mmcAcmd24EntersDataPhase)

/-- `execute_command()` for the medium m (R260). -/
def executeCommand (m : Medium) (s : State) : State :=
  if s.card.cmd55Issued then runAppCommand (s.mapCard framePreamble)
  else runCommand m (s.mapCard framePreamble)

/-! ### The data phase (R278) -/

/-- `write_single_block()` for the medium m (R278): only the range is checked again. -/
def writeSingleBlock (p : Params) (m : Medium) (c : Card) : Card :=
  if m.totalSectors ≤ c.sectorArg then
    respond (writeErrResponse p (c.r1Status ||| r1ParameterError)) (raiseR1 r1ParameterError c)
  else
    respond [0x05, 0x01]
      { c with slot := some { m with drive := memWrite m.drive c.sectorArg c.sendBuffer } }

end Sys2Proof.Machine
end

