-- ==== Sys2Proof/Machine/MmcSpi.lean ====
section
/-! DEFINITION. SPI bytes (43_mmc_spi_bytes.md), and the frames and data blocks that the host sends
as runs of SPI bytes (R100, R109). -/

namespace Sys2Proof.Machine

/-! ### One byte in (R230 to R240) -/

/-- A byte while a command byte is awaited: it starts a frame if it is 01cccccc, and is ignored
otherwise (R101, R231). -/
def receiveCommandByte (b : Byte) (c : Card) : Card :=
  if b &&& 0xC0 = 0x40 then
    { c with currentCommand := b.setWidth 6, commandState := .waitingForData0 }
  else c

/-- A byte while the start token is awaited (R237). -/
def receiveToken (b : Byte) (c : Card) : Card :=
  if b = 0xFE then { c with dataCount := 0, commandState := .waitingForData } else c

/-- A data byte (R238). -/
def receiveDataByte (b : Byte) (c : Card) : Card :=
  { c with
      sendBuffer := setByte c.sendBuffer c.dataCount b
      dataCount := c.dataCount + 1
      commandState := if c.dataCount + 1 = 512 then .waitingForDataCrc1 else c.commandState }

/-- The CRC byte of a frame: the command is executed, and the receiver goes where R236 says. -/
def completeFrame (m : Medium) (s : State) : State :=
  (executeCommand m s).mapCard fun c =>
    { c with
        commandState :=
          if entersData s.cfg s.card.cmd55Issued s.card.currentCommand then .waitingForDataToken
          else .waitingForCommand }

/-- `SPI_WR b` on the block (R230 to R240, the table of R245). -/
def spiWrite (b : Byte) (s : State) : State :=
  match s.card.slot with
  | none => s
  | some m =>
    match s.card.commandState with
    | .waitingForCommand => s.mapCard (receiveCommandByte b)
    | .waitingForData0 => s.mapCard fun c => { c with arg0 := b, commandState := .waitingForData1 }
    | .waitingForData1 => s.mapCard fun c => { c with arg1 := b, commandState := .waitingForData2 }
    | .waitingForData2 => s.mapCard fun c => { c with arg2 := b, commandState := .waitingForData3 }
    | .waitingForData3 => s.mapCard fun c => { c with arg3 := b, commandState := .waitingForCrc }
    | .waitingForCrc => completeFrame m s
    | .waitingForDataToken => s.mapCard (receiveToken b)
    | .waitingForData => s.mapCard (receiveDataByte b)
    | .waitingForDataCrc1 => s.mapCard fun c => { c with commandState := .waitingForDataCrc2 }
    | .waitingForDataCrc2 =>
      s.mapCard fun c =>
        { writeSingleBlock s.cfg m c with commandState := .waitingForCommand }

/-- `SPI_WR` of each byte in turn. -/
def spiWrites (bs : List Byte) (s : State) : State := bs.foldl (fun s b => spiWrite b s) s

/-! ### The two SPI operations -/

/-- `SPI_WR b` (R245). -/
def execSpiWr (b : Byte) (s : State) : Host.Outcome State Fault Refusal :=
  completes .nothing (spiWrite b s)

/-- `SPI_RD` (R241, R242): pops the oldest response byte; 0xFF with an empty queue or no card. -/
def execSpiRd (s : State) : Host.Outcome State Fault Refusal :=
  if s.card.slot.isSome ∧ s.card.rd < s.card.wr then
    completes (.byte (byteAt s.card.responseBuffer s.card.rd))
      (s.mapCard fun c => { c with rd := c.rd + 1 })
  else completes (.byte 0xFF) s

/-! ### Frames and data blocks, as the SPI bytes they are (R100, R109; log 5) -/

/-- Six `SPI_WR` in a row (R100). -/
def sendFrame (index : BitVec 6) (arg : BitVec 32) (crc : Byte) (s : State) :
    Host.Outcome State Fault Refusal :=
  completes .nothing (spiWrites (frameBytes index arg crc) s)

/-- CMD0 `GO_IDLE_STATE` (R261). -/
def execCmd0GoIdleState (arg : BitVec 32) (crc : Byte) (s : State) : Host.Outcome State Fault Refusal :=
  sendFrame 0 arg crc s

/-- CMD8 `SEND_IF_COND` (R262). -/
def execCmd8SendIfCond (arg : BitVec 32) (crc : Byte) (s : State) : Host.Outcome State Fault Refusal :=
  sendFrame 8 arg crc s

/-- CMD9 `SEND_CSD` (R263). -/
def execCmd9SendCsd (arg : BitVec 32) (crc : Byte) (s : State) : Host.Outcome State Fault Refusal :=
  sendFrame 9 arg crc s

/-- CMD10 `SEND_CID` (R265). -/
def execCmd10SendCid (arg : BitVec 32) (crc : Byte) (s : State) : Host.Outcome State Fault Refusal :=
  sendFrame 10 arg crc s

/-- CMD17 `READ_SINGLE_BLOCK` (R267). -/
def execCmd17ReadSingleBlock (arg : BitVec 32) (crc : Byte) (s : State) :
    Host.Outcome State Fault Refusal :=
  sendFrame 17 arg crc s

/-- CMD24 `WRITE_BLOCK` (R268). -/
def execCmd24WriteBlock (arg : BitVec 32) (crc : Byte) (s : State) : Host.Outcome State Fault Refusal :=
  sendFrame 24 arg crc s

/-- CMD32 `ERASE_WR_BLK_START` (R269). -/
def execCmd32EraseWrBlkStart (arg : BitVec 32) (crc : Byte) (s : State) :
    Host.Outcome State Fault Refusal :=
  sendFrame 32 arg crc s

/-- CMD33 `ERASE_WR_BLK_END` (R270). -/
def execCmd33EraseWrBlkEnd (arg : BitVec 32) (crc : Byte) (s : State) :
    Host.Outcome State Fault Refusal :=
  sendFrame 33 arg crc s

/-- CMD38 `ERASE` (R271). -/
def execCmd38Erase (arg : BitVec 32) (crc : Byte) (s : State) : Host.Outcome State Fault Refusal :=
  sendFrame 38 arg crc s

/-- CMD55 `APP_CMD` (R272). -/
def execCmd55AppCmd (arg : BitVec 32) (crc : Byte) (s : State) : Host.Outcome State Fault Refusal :=
  sendFrame 55 arg crc s

/-- CMD58 `READ_OCR` (R273). -/
def execCmd58ReadOcr (arg : BitVec 32) (crc : Byte) (s : State) : Host.Outcome State Fault Refusal :=
  sendFrame 58 arg crc s

/-- `CMD_OTHER`: any other standard index (R275). -/
def execCmdOther (index : BitVec 6) (arg : BitVec 32) (crc : Byte) (s : State) :
    Host.Outcome State Fault Refusal :=
  sendFrame index arg crc s

/-- ACMD41 `SD_SEND_OP_COND` (R276): index 41, an application command when `cmd55_issued` is set. -/
def execAcmd41SdSendOpCond (arg : BitVec 32) (crc : Byte) (s : State) :
    Host.Outcome State Fault Refusal :=
  sendFrame 41 arg crc s

/-- `ACMD_OTHER`: any other application index (R277). -/
def execAcmdOther (index : BitVec 6) (arg : BitVec 32) (crc : Byte) (s : State) :
    Host.Outcome State Fault Refusal :=
  sendFrame index arg crc s

/-- A host data block: the token, 512 data bytes, two CRC bytes, 515 `SPI_WR` in a row (R109). -/
def execMmcDataBlock (data : Sector) (crc1 crc2 : Byte) (s : State) : Host.Outcome State Fault Refusal :=
  completes .nothing (spiWrites (dataBlockBytes data crc1 crc2) s)

end Sys2Proof.Machine
end

