-- ==== Sys2Proof/Machine/Store.lean ====
section
/-! DEFINITION. The host calls (40_sector_store.md; R50, R51, R330): new, insert, eject, commit,
dirty. Outside the host duties of R141 a call is refused by name, as R141 and U8 say. -/

namespace Sys2Proof.Machine

/-! ### Construction -/

/-- n bytes that R50 and R51 leave unspecified: free values, from index `first` of draw k (log 14). -/
def freeBytes (k first n : Nat) : List Byte := (List.range n).map fun i => Config.freeByte k (first + i)

/-- `ATA_NEW databus`: a new channel (R50, R330). It takes the place of the old one, whose drives are
dropped (log 2). -/
def newChannel (databus : Databus) (s : State) : State :=
  let k := s.env.freeUsed
  { s with
      chan := Channel.fresh s.cfg databus (Config.freeByte k 0) (Config.freeByte k 1)
        (blockOf 512 (freeBytes k 2 512))
      env := { s.env with freeUsed := k + 1 } }

/-- `MMC_NEW`: a new card controller (R51, R330). It takes the place of the old one (log 2). -/
def newCard (s : State) : State :=
  let k := s.env.freeUsed
  { s with
      card := Card.fresh s.cfg ((Config.freeByte k 0).setWidth 6) (Config.freeByte k 1)
        (Config.freeByte k 2) (Config.freeByte k 3) (Config.freeByte k 4)
        (blockOf 512 (freeBytes k 13 512)) (blockOf 516 (freeBytes k 525 516))
        (be32 (Config.freeByte k 5) (Config.freeByte k 6) (Config.freeByte k 7) (Config.freeByte k 8))
        (be32 (Config.freeByte k 9) (Config.freeByte k 10) (Config.freeByte k 11)
          (Config.freeByte k 12))
      env := { s.env with freeUsed := k + 1 } }

/-! ### Insert -/

/-- Does the card hold this image? -/
def Card.holdsImage (c : Card) (image : Nat) : Bool :=
  match c.slot with
  | some m => m.drive.image == image
  | none => false

/-- Does a drive of the channel hold this image? -/
def Channel.holdsImage (c : Channel) (image : Nat) : Bool :=
  Sys2Proof.Machine.holdsImage c.drive0 image || Sys2Proof.Machine.holdsImage c.drive1 image

/-- The body of `ATA_INSERT u, image` inside the host duties (R130): on an error no state of the
block changes. -/
def ataInsert (u : DriveUnit) (image : Nat) (s : State) : State :=
  match openDrive s.cfg image s.env with
  | (.ok d, e) => { s with chan := s.chan.setDrive u (some d), env := e, result := .ok }
  | (.error x, e) => { s with env := e, result := .error x }

/-- May a drive of this geometry be a card: 512-byte sectors, a non-zero multiple of 1024 of them
(R131)? -/
def cardGeometryOk (d : Drive) : Bool :=
  d.sectorSize == .s512 && d.total % 1024 == 0 && d.total != 0

/-- The card after `MMC_INSERT` of a drive (R131, R331): the medium with its two derived values, the
protocol state back at its construction values. -/
def Card.withMedium (p : Params) (d : Drive) (c : Card) : Card :=
  { c with
      slot := some { drive := d, totalSectors := d.total, cSize := d.total / 1024 - 1 }
      commandState := .waitingForCommand, dataCount := 0, rd := 0, wr := 0
      eraseSequence := .closed, cmd8Issued := false, cmd55Issued := false
      r1Status := r1AtReset p }

/-- The body of `MMC_INSERT image` inside the host duties (R131). -/
def mmcInsert (image : Nat) (s : State) : State :=
  match openDrive s.cfg image s.env with
  | (.ok d, e) =>
    if cardGeometryOk d then
      { s with card := s.card.withMedium s.cfg d, env := e, result := .ok }
    else { s with env := e, result := .error .insertRejected }
  | (.error x, e) => { s with env := e, result := .error x }

/-! ### Commit -/

/-- The body of `ATA_COMMIT u` for the drive of the slot (R137). -/
def ataCommitDrive (u : DriveUnit) (d : Drive) (s : State) : State :=
  { s with chan := s.chan.setDrive u (some (commit d s.env).1), env := (commit d s.env).2 }

/-- The body of `MMC_COMMIT` for the medium of the slot (R137). -/
def mmcCommitMedium (m : Medium) (s : State) : State :=
  { s with
      card := { s.card with slot := some { m with drive := (commit m.drive s.env).1 } }
      env := (commit m.drive s.env).2 }

/-! ### The ten calls -/

/-- `ATA_NEW databus` (R50, R93). -/
def execAtaNew (databus : Databus) (s : State) : Host.Outcome State Fault Refusal :=
  completes .ok (newChannel databus s)

/-- `ATA_INSERT u, image` (R130); duties: slot empty, phase Ready (R141), image not held by the card
(R314). -/
def execAtaInsert (u : DriveUnit) (image : Nat) (s : State) : Host.Outcome State Fault Refusal :=
  if (s.chan.drive u).isSome then .refused .slotOccupied
  else if s.chan.phase ≠ .ready then .refused .transferOpen
  else if s.card.holdsImage image then .refused .imageShared
  else .next (ataInsert u image s)

/-- `ATA_EJECT u` (R132): the cached entries are dropped unwritten; duties: slot full, phase Ready. -/
def execAtaEject (u : DriveUnit) (s : State) : Host.Outcome State Fault Refusal :=
  if (s.chan.drive u).isNone then .refused .slotEmpty
  else if s.chan.phase ≠ .ready then .refused .transferOpen
  else completes .nothing (s.mapChan fun c => c.setDrive u none)

/-- `ATA_COMMIT u` (R137); duty: slot full. It may be called in any phase. -/
def execAtaCommit (u : DriveUnit) (s : State) : Host.Outcome State Fault Refusal :=
  match s.chan.drive u with
  | some d => completes .nothing (ataCommitDrive u d s)
  | none => .refused .slotEmpty

/-- `ATA_DIRTY u` (R138); duty: slot full. -/
def execAtaDirty (u : DriveUnit) (s : State) : Host.Outcome State Fault Refusal :=
  match s.chan.drive u with
  | some d => completes (.flag d.dirty) s
  | none => .refused .slotEmpty

/-- `MMC_NEW` (R51, R93). -/
def execMmcNew (s : State) : Host.Outcome State Fault Refusal := completes .ok (newCard s)

/-- `MMC_INSERT image` (R131); duties: slot empty (R141), image not held by the channel (R314). -/
def execMmcInsert (image : Nat) (s : State) : Host.Outcome State Fault Refusal :=
  if s.card.slot.isSome then .refused .slotOccupied
  else if s.chan.holdsImage image then .refused .imageShared
  else .next (mmcInsert image s)

/-- `MMC_EJECT` (R132): the protocol state is left as it is; duties: slot full, receiver waiting for
a command. -/
def execMmcEject (s : State) : Host.Outcome State Fault Refusal :=
  if s.card.slot.isNone then .refused .slotEmpty
  else if s.card.commandState ≠ .waitingForCommand then .refused .frameOpen
  else completes .nothing (s.mapCard fun c => { c with slot := none })

/-- `MMC_COMMIT` (R137); duty: slot full. -/
def execMmcCommit (s : State) : Host.Outcome State Fault Refusal :=
  match s.card.slot with
  | some m => completes .nothing (mmcCommitMedium m s)
  | none => .refused .slotEmpty

/-- `MMC_DIRTY` (R138); duty: slot full. -/
def execMmcDirty (s : State) : Host.Outcome State Fault Refusal :=
  match s.card.slot with
  | some m => completes (.flag m.drive.dirty) s
  | none => .refused .slotEmpty

end Sys2Proof.Machine
end

