-- ==== Sys2Proof/Machine/Dispatch.lean ====
section
/-! DEFINITION. One arm per instruction: the meaning of each. -/

namespace Sys2Proof.Machine

def exec (i : Instr) (s : State) : Host.Outcome State Fault Refusal :=
  match i with
  | .ataRdData => Sys2Proof.Machine.execAtaRdData s
  | .ataRdError => Sys2Proof.Machine.execAtaRdError s
  | .ataRdSectorCount => Sys2Proof.Machine.execAtaRdSectorCount s
  | .ataRdSector => Sys2Proof.Machine.execAtaRdSector s
  | .ataRdCylinderLow => Sys2Proof.Machine.execAtaRdCylinderLow s
  | .ataRdCylinderHigh => Sys2Proof.Machine.execAtaRdCylinderHigh s
  | .ataRdHeadDrive => Sys2Proof.Machine.execAtaRdHeadDrive s
  | .ataRdStatus => Sys2Proof.Machine.execAtaRdStatus s
  | .ataRdData2 => Sys2Proof.Machine.execAtaRdData2 s
  | .ataWrData b => Sys2Proof.Machine.execAtaWrData b s
  | .ataWrFeature b => Sys2Proof.Machine.execAtaWrFeature b s
  | .ataWrSectorCount b => Sys2Proof.Machine.execAtaWrSectorCount b s
  | .ataWrSector b => Sys2Proof.Machine.execAtaWrSector b s
  | .ataWrCylinderLow b => Sys2Proof.Machine.execAtaWrCylinderLow b s
  | .ataWrCylinderHigh b => Sys2Proof.Machine.execAtaWrCylinderHigh b s
  | .ataWrHeadDrive b => Sys2Proof.Machine.execAtaWrHeadDrive b s
  | .ataWrCommand b => Sys2Proof.Machine.execAtaWrCommand b s
  | .ataWrData2 b => Sys2Proof.Machine.execAtaWrData2 b s
  | .readSectorRetry => Sys2Proof.Machine.execReadSectorRetry s
  | .readSectorNoretry => Sys2Proof.Machine.execReadSectorNoretry s
  | .writeSectorRetry => Sys2Proof.Machine.execWriteSectorRetry s
  | .writeSectorNoretry => Sys2Proof.Machine.execWriteSectorNoretry s
  | .identifyDriveAta => Sys2Proof.Machine.execIdentifyDriveAta s
  | .identifyDriveAtapi => Sys2Proof.Machine.execIdentifyDriveAtapi s
  | .initializeDeviceParameters => Sys2Proof.Machine.execInitializeDeviceParameters s
  | .ataCmdOther op => Sys2Proof.Machine.execAtaCmdOther op s
  | .spiWr b => Sys2Proof.Machine.execSpiWr b s
  | .spiRd => Sys2Proof.Machine.execSpiRd s
  | .cmd0GoIdleState arg crc => Sys2Proof.Machine.execCmd0GoIdleState arg crc s
  | .cmd8SendIfCond arg crc => Sys2Proof.Machine.execCmd8SendIfCond arg crc s
  | .cmd9SendCsd arg crc => Sys2Proof.Machine.execCmd9SendCsd arg crc s
  | .cmd10SendCid arg crc => Sys2Proof.Machine.execCmd10SendCid arg crc s
  | .cmd17ReadSingleBlock arg crc => Sys2Proof.Machine.execCmd17ReadSingleBlock arg crc s
  | .cmd24WriteBlock arg crc => Sys2Proof.Machine.execCmd24WriteBlock arg crc s
  | .cmd32EraseWrBlkStart arg crc => Sys2Proof.Machine.execCmd32EraseWrBlkStart arg crc s
  | .cmd33EraseWrBlkEnd arg crc => Sys2Proof.Machine.execCmd33EraseWrBlkEnd arg crc s
  | .cmd38Erase arg crc => Sys2Proof.Machine.execCmd38Erase arg crc s
  | .cmd55AppCmd arg crc => Sys2Proof.Machine.execCmd55AppCmd arg crc s
  | .cmd58ReadOcr arg crc => Sys2Proof.Machine.execCmd58ReadOcr arg crc s
  | .cmdOther index arg crc => Sys2Proof.Machine.execCmdOther index arg crc s
  | .acmd41SdSendOpCond arg crc => Sys2Proof.Machine.execAcmd41SdSendOpCond arg crc s
  | .acmdOther index arg crc => Sys2Proof.Machine.execAcmdOther index arg crc s
  | .mmcDataBlock data crc1 crc2 => Sys2Proof.Machine.execMmcDataBlock data crc1 crc2 s
  | .ataNew databus => Sys2Proof.Machine.execAtaNew databus s
  | .ataInsert u image => Sys2Proof.Machine.execAtaInsert u image s
  | .ataEject u => Sys2Proof.Machine.execAtaEject u s
  | .ataCommit u => Sys2Proof.Machine.execAtaCommit u s
  | .ataDirty u => Sys2Proof.Machine.execAtaDirty u s
  | .mmcNew => Sys2Proof.Machine.execMmcNew s
  | .mmcInsert image => Sys2Proof.Machine.execMmcInsert image s
  | .mmcEject => Sys2Proof.Machine.execMmcEject s
  | .mmcCommit => Sys2Proof.Machine.execMmcCommit s
  | .mmcDirty => Sys2Proof.Machine.execMmcDirty s

end Sys2Proof.Machine
end

