-- ==== Sys2Proof/Machine/Fetch.lean ====
section
/-! DEFINITION. Where the next host operation comes from: the oldest transaction of the inbox (R5,
R6, log 1). -/

namespace Sys2Proof.Machine

/-- Take the oldest pending transaction. -/
def fetch (s : State) : Option (Xact × State) :=
  match s.inbox with
  | x :: rest => some (x, { s with inbox := rest })
  | [] => none

/-- Put a transaction where `fetch` takes the next one. -/
def putNext (x : Xact) (s : State) : State := { s with inbox := x :: s.inbox }

/-- Set the mode bit under which the next frame is decoded (R103). -/
def setFrameMode (app : Bool) (s : State) : State :=
  { s with card := { s.card with cmd55Issued := app } }

end Sys2Proof.Machine
end

