-- ==== Sys2Proof/Machine/Step.lean ====
section
/-! DEFINITION. One step: the oldest pending host operation, from start to end (R5, R350). -/

namespace Sys2Proof.Machine

/-- One step. With no host operation pending the block does nothing (R5). -/
def step (s : State) : Host.Outcome State Fault Refusal :=
  match fetch s with
  | none => .next s
  | some (x, s') =>
    match decode s.card.cmd55Issued x with
    | .ok i => exec i s'
    | .error (.noSuchRegister index) => .fault (.noSuchRegister index)
    | .error e => .refused (.notATransaction e)

/-- The state with the instruction of a table number as its next host operation, and with the mode
bit under which the table reads it if it is a frame (R103, log 1, log 4). -/
def State.withFetchWord (s : State) (nbits w : Nat) : State :=
  putNext (tableXact nbits w)
    (if (tableXact nbits w).fmt = .mmcFrame then setFrameMode (tableApp nbits w) s else s)

end Sys2Proof.Machine
end

