-- ==== Sys2Proof/Safety.lean ====
section
/-! DEFINITION. What counts as a sound state, in the terms the claims use: the invariants of R38,
R49 and R140, the host duties of R141, and the views a claim reads the state through. -/

namespace Sys2Proof.Machine

/-! ### Views -/

/-- The response queue: `response_buffer[rd .. wr-1]`, oldest first (R45). -/
def Card.pending (c : Card) : List Byte := (c.responseBuffer.toList.take c.wr).drop c.rd

/-- A bit of the status or the error register, by its value. -/
def hasBit (byte mask : Byte) : Bool := byte &&& mask != 0

/-- The bytes at which the packed sector n of a drive lies in the files (R65). -/
def inPackedSector (d : Drive) (n : Nat) (a : Nat) : Prop :=
  fileAddr d.image (d.sectorOffset n) ≤ a ∧
    a < fileAddr d.image (d.sectorOffset n) + d.sectorSize.bytes

/-- The environment answers yes to the next k file operations (R80). -/
def Env.says (e : Env) (k : Nat) : Prop := ∃ rest, e.fileScript = List.replicate k true ++ rest

/-- A card as six frame bytes leave it before the command runs: index and argument received (R231 to
R235). -/
def Card.received (c : Card) (index : BitVec 6) (arg : BitVec 32) : Card :=
  { c with
      currentCommand := index, arg0 := arg.extractLsb' 24 8, arg1 := arg.extractLsb' 16 8,
      arg2 := arg.extractLsb' 8 8, arg3 := arg.extractLsb' 0 8 }

/-- Card present, receiver waiting for a command: a frame can start. -/
def Card.readyFor (c : Card) (m : Medium) : Prop :=
  c.slot = some m ∧ c.commandState = .waitingForCommand

/-- The R1 bits a frame starts from: IDLE kept, the four result bits clear, and ERASE_RESET if an
erase sequence was open and the command is none of the three erase commands (R260, R279). -/
def Card.r1Base (c : Card) (erases : Bool) : Byte :=
  (c.r1Status &&& 0x01) |||
    (if c.eraseSequence ≠ .closed ∧ erases = false then 0x02 else 0x00)

/-- A card about to run a frame: index and argument received, the one-shot prefix used up, the result
bits started anew, an open erase sequence closed unless the command is an erase command (R260,
R279). -/
def Card.framed (c : Card) (index : BitVec 6) (arg : BitVec 32) (erases : Bool) : Card :=
  { c.received index arg with
      cmd55Issued := false
      r1Status := c.r1Base erases
      eraseSequence := if erases then c.eraseSequence else .closed }

/-- The store can give sector n: its entry is cached, or the two file operations of a miss succeed
(R133, R80). -/
def storeGives (d : Drive) (n : Nat) (e : Env) : Prop :=
  (cacheFind d.cache n).isSome ∨ e.askTwice.1.2 = true

/-- The file platform after a store read: untouched by a hit, two answers further after a miss
(R133, log 8). -/
def storeEnv (d : Drive) (n : Nat) (e : Env) : Env :=
  if (cacheFind d.cache n).isSome then e else e.askTwice.2

/-- A drive as an accepted command finds it: error cleared, ERR and BSY clear, DRDY set (R191). -/
def Drive.afterPreamble (d : Drive) : Drive :=
  { d with error := 0x00, status := (d.status &&& 0x7E) ||| 0x40 }

/-- Perform a list of host operations, and give what each returned and the state they end in; nothing
if one of them stops the machine. -/
def runs : List Instr → State → Option (List Result × State)
  | [], s => some ([], s)
  | i :: rest, s =>
    match exec i s with
    | .next t => (runs rest t).map fun rt => (t.result :: rt.1, rt.2)
    | .fault _ => none
    | .refused _ => none

/-! ### Invariants -/

/-- Keys strictly rising: unique, in one order (R52, R140). -/
def cacheRising : Cache → Bool
  | [] => true
  | [_] => true
  | x :: y :: rest => decide (x.1 < y.1) && cacheRising (y :: rest)

/-- The cache of a drive: keys unique and below T(d), values of the packed length (R38, R140). -/
def Drive.cacheOk (d : Drive) : Prop :=
  cacheRising d.cache = true ∧
    ∀ entry ∈ d.cache, entry.1 < d.total ∧ entry.2.length = d.sectorSize.bytes

/-- A drive record: BSY clear and DRDY set (R25, R38), the cache in order, image number and data
offset within their two bytes (R62, log 3). -/
def Drive.ok (d : Drive) : Prop :=
  d.cacheOk ∧ d.status &&& 0xC0 = 0x40 ∧ d.image < imageLimit ∧ d.dataOffset < 65536

/-- The parameters: what R50 fixes of ATA_RESET and what R278 and R243 fix of
MMC_WRITE_ERR_RESPONSE. -/
def paramsOk (p : Params) : Prop :=
  p.ataReset.head.getLsbD 4 = false ∧ p.ataReset.status &&& 0xC9 = 0x40 ∧
    p.mmcWriteErrResponse.length ≤ 516 ∧ p.mmcWriteErrResponse ≠ [some 0x05, some 0x01]

/-- The channel: the invariants of R38 that hold whatever the host does. -/
def Channel.ok (c : Channel) : Prop :=
  (∀ u d, c.drive u = some d → d.ok) ∧ c.selected = unitOfHead c.head ∧ c.datacounter ≤ 512 ∧
    (c.phase ≠ .ready → c.datacounter < 512) ∧
    (c.databus = .d8 ∨ c.databus = .d16Data2 → c.datacounter % 2 = 0)

/-- The erase bounds against the card's size (R49). -/
def Card.eraseOk (c : Card) (total : Nat) : Prop :=
  (c.eraseSequence = .started → c.eraseStart.toNat < total) ∧
    (c.eraseSequence = .ended →
      c.eraseStart.toNat ≤ c.eraseEnd.toNat ∧ c.eraseEnd.toNat < total)

/-- The medium: its drive in order, its size and capacity field as R131 derives them (R39). -/
def Medium.ok (m : Medium) : Prop :=
  m.drive.ok ∧ m.drive.sectorSize = .s512 ∧ m.totalSectors = m.drive.total ∧
    m.totalSectors % 1024 = 0 ∧ m.totalSectors ≠ 0 ∧ m.cSize = m.totalSectors / 1024 - 1

/-- The card: the invariants of R49, and the unused R1 bits clear (R40). -/
def Card.ok (c : Card) : Prop :=
  (∀ m, c.slot = some m → m.ok ∧ c.eraseOk m.totalSectors) ∧ c.rd ≤ c.wr ∧ c.wr ≤ 516 ∧
    (c.commandState = .waitingForData → c.dataCount < 512) ∧ c.r1Status &&& 0xA8 = 0

/-- The invariant of the machine: the parts above, memory in canonical form, and no image behind
both engines (R314). -/
def State.Inv (s : State) : Prop :=
  paramsOk s.cfg ∧ s.chan.ok ∧ s.card.ok ∧ Mem.wf s.env.files = true ∧
    ∀ m, s.card.slot = some m → s.chan.holdsImage m.drive.image = false

/-! ### Phase and DRQ (R38, item 2) -/

/-- A drive's DRQ bit. -/
def Drive.drq (d : Drive) : Bool := hasBit d.status statusDrq

/-- The selected drive has DRQ set exactly while a phase is open, the other drive never; an open
phase has its drive. -/
def Channel.coherent (c : Channel) : Prop :=
  (∀ u d, c.drive u = some d → d.drq = (c.phase != .ready && u == c.selected)) ∧
    (c.phase ≠ .ready → c.drv.isSome)

/-- The host duty of R337: bit 4 of HEAD_DRIVE does not change while a phase is open. -/
def keepsSelection (i : Instr) (s : State) : Prop :=
  ∀ b, i = .ataWrHeadDrive b → s.chan.phase ≠ .ready → unitOfHead b = s.chan.selected

/-! ### Host duties (R141, R314) -/

/-- The duties of a host operation; the operations that are not store calls have none. -/
def dutiful (i : Instr) (s : State) : Prop :=
  match i with
  | .ataInsert u image =>
    s.chan.drive u = none ∧ s.chan.phase = .ready ∧ s.card.holdsImage image = false
  | .ataEject u => (s.chan.drive u).isSome ∧ s.chan.phase = .ready
  | .ataCommit u | .ataDirty u => (s.chan.drive u).isSome
  | .mmcInsert image => s.card.slot = none ∧ s.chan.holdsImage image = false
  | .mmcEject => s.card.slot.isSome ∧ s.card.commandState = .waitingForCommand
  | .mmcCommit | .mmcDirty => s.card.slot.isSome
  | _ => True

/-! ### Families -/

/-- Operations on the ATA register file: register accesses and commands. -/
def isAtaAccess : Instr → Bool
  | .ataRdData | .ataRdError | .ataRdSectorCount | .ataRdSector | .ataRdCylinderLow
  | .ataRdCylinderHigh | .ataRdHeadDrive | .ataRdStatus | .ataRdData2
  | .ataWrData _ | .ataWrFeature _ | .ataWrSectorCount _ | .ataWrSector _ | .ataWrCylinderLow _
  | .ataWrCylinderHigh _ | .ataWrHeadDrive _ | .ataWrCommand _ | .ataWrData2 _
  | .readSectorRetry | .readSectorNoretry | .writeSectorRetry | .writeSectorNoretry
  | .identifyDriveAta | .identifyDriveAtapi | .initializeDeviceParameters | .ataCmdOther _ => true
  | _ => false

/-- Operations on the card through its SPI port: bytes, frames, data blocks. -/
def isSpiAccess : Instr → Bool
  | .spiWr _ | .spiRd
  | .cmd0GoIdleState _ _ | .cmd8SendIfCond _ _ | .cmd9SendCsd _ _ | .cmd10SendCid _ _
  | .cmd17ReadSingleBlock _ _ | .cmd24WriteBlock _ _ | .cmd32EraseWrBlkStart _ _
  | .cmd33EraseWrBlkEnd _ _ | .cmd38Erase _ _ | .cmd55AppCmd _ _ | .cmd58ReadOcr _ _
  | .cmdOther _ _ _ | .acmd41SdSendOpCond _ _ | .acmdOther _ _ _ | .mmcDataBlock _ _ _ => true
  | _ => false

/-- The two commit calls, the only operations that write a file (R75). -/
def isCommit : Instr → Bool
  | .ataCommit _ | .mmcCommit => true
  | _ => false

end Sys2Proof.Machine
end

