-- ==== Sys2Proof/Certificates/Slice0/Obligations.lean ====
section
/-! DEFINITION. The statements for the provers, from the numbered rules of spec/. "The model's choice"
in a docstring marks a clause that no rule of the spec states, with the log entry that declares it. -/

section Obligations

open Sys2Proof Sys2Proof.Machine

/-! ### The step, the decoder and the encoder -/

/-- A step performs the oldest pending host operation: it takes it off the inbox and runs what the
decoder reads (R5, R6; that operations wait in an inbox is the model's choice, log 1). -/
def Obligations.StepRunsDecodedInstruction : Prop :=
  ∀ (s : State) (x : Xact) (rest : List Xact) (i : Instr), s.inbox = x :: rest →
    decode s.card.cmd55Issued x = .ok i → i.wellFormed = true →
      step s = exec i { s with inbox := rest }

/-- The block never acts on its own: with no operation pending a step changes nothing. An access to
a register index 9 to 15, which is no transaction (R90), is a fault, and any other bytes that are no
transaction are refused by name (the stops are the model's choice, logs 1 and 26). Rests on the
spec's own decision D1 (92_eei_decisions.md, log 16). -/
def Obligations.StepWithoutInstruction : Prop :=
  (∀ s : State, s.inbox = [] → step s = .next s) ∧
  (∀ (s : State) (rest : List Xact) (lo hi : Byte), s.inbox = ⟨.ataXact, [lo, hi]⟩ :: rest →
    hi.toNat < 32 → 9 ≤ hi.toNat % 16 → step s = .fault (.noSuchRegister (hi.toNat % 16))) ∧
  (∀ (s : State) (x : Xact) (rest : List Xact) (e : DecodeError), s.inbox = x :: rest →
    decode s.card.cmd55Issued x = .error e → (∀ k, e ≠ .noSuchRegister k) →
      step s = .refused (.notATransaction e))

/-- Decoding the encoding of a well-formed instruction gives it back, with every operand; a frame is
read under the mode that its row names, everything else under either mode (R90, R92, R97, R100,
R103; the layout of words and host calls as bytes is the model's choice, log 3). Rests on the spec's
own decisions D1, D2 (92_eei_decisions.md, log 16). -/
def Obligations.DecodeOfEncode : Prop :=
  ∀ (i : Instr) (app : Bool), i.wellFormed = true →
    ((encode i).fmt = .mmcFrame → app = i.isApp) → decode app (encode i) = .ok i

/-- What decodes is well formed, and its bytes are its encoding, but for the data field of a read,
which is ignored (R90, R92; the layout as bytes is the model's choice, log 3). Rests on the spec's
own decisions D1, D2 (92_eei_decisions.md, log 16). -/
def Obligations.EncodeOfDecode : Prop :=
  ∀ (app : Bool) (x : Xact) (i : Instr), decode app x = .ok i →
    i.wellFormed = true ∧
    (encode i = x ∨
      (∃ b reg : Byte, x = ⟨.ataXact, [b, reg]⟩ ∧ encode i = ⟨.ataXact, [0, reg]⟩ ∧ reg.toNat ≤ 8) ∨
      (∃ b : Byte, x = ⟨.spiXact, [b, 0]⟩ ∧ i = .spiRd))

/-- Transactions written out from the formats of 30_encoding.md (R90 to R104; the low byte of a
two-byte word first, and the four bytes of a host call, are the model's choice, log 3). Rests on the
spec's own decisions D1, D2, D8, D31 (92_eei_decisions.md, log 16). -/
def Obligations.WrittenOutTransactions : Prop :=
  decode false ⟨.ataXact, [0x09, 0x12]⟩ = .ok (.ataWrSectorCount 0x09) ∧
  decode false ⟨.ataXact, [0x00, 0x07]⟩ = .ok .ataRdStatus ∧
  decode false ⟨.ataXact, [0x20, 0x17]⟩ = .ok (.ataWrCommand 0x20) ∧
  decode false ⟨.ataCmd, [0xEC]⟩ = .ok .identifyDriveAta ∧
  decode false ⟨.ataCmd, [0xC8]⟩ = .ok (.ataCmdOther 0xC8) ∧
  decode false ⟨.spiXact, [0x40, 0x01]⟩ = .ok (.spiWr 0x40) ∧
  decode false ⟨.mmcFrame, [0x51, 0x00, 0x00, 0x03, 0xFF, 0xFF]⟩ =
    .ok (.cmd17ReadSingleBlock 0x3FF 0xFF) ∧
  decode true ⟨.mmcFrame, [0x69, 0x40, 0x00, 0x00, 0x00, 0x77]⟩ =
    .ok (.acmd41SdSendOpCond 0x40000000 0x77) ∧
  decode false ⟨.mmcFrame, [0x69, 0x40, 0x00, 0x00, 0x00, 0x77]⟩ =
    .ok (.cmdOther 41 0x40000000 0x77) ∧
  decode false ⟨.hostCall, [0x01, 0x01, 0x05, 0x00]⟩ = .ok (.ataInsert .slave 5)

/-- The machine right after construction of a channel and a card, in every point that R50 and R51
fix (IDLE is the free input MMC_RESET_IDLE, log 7; the values those rules leave unspecified are the
model's choice, log 14, and are not stated here; that every file byte reads zero is the model's
choice, log 11). Rests on the spec's own decisions D12, D35 (92_eei_decisions.md, log 16). -/
def Obligations.ResetIsConstruction : Prop :=
  State.reset.chan.drive0 = none ∧ State.reset.chan.drive1 = none ∧
  State.reset.chan.selected = .master ∧ State.reset.chan.phase = .ready ∧
  State.reset.chan.datacounter = 0 ∧ State.reset.chan.sectorCount = 0x01 ∧
  State.reset.chan.sector = 0x01 ∧ State.reset.chan.cylinderLow = 0x00 ∧
  State.reset.chan.cylinderHigh = 0x00 ∧ State.reset.chan.head = 0x00 ∧
  State.reset.card.slot = none ∧ State.reset.card.commandState = .waitingForCommand ∧
  State.reset.card.r1Status = (if State.reset.cfg.mmcResetIdle then 0x01 else 0x00) ∧
  State.reset.card.dataCount = 0 ∧ State.reset.card.pending = [] ∧
  State.reset.card.eraseSequence = .closed ∧ State.reset.card.cmd8Issued = false ∧
  State.reset.card.cmd55Issued = false ∧
  (∀ image offset n, State.reset.env.fileBytes image offset n = List.replicate n 0x00)

/-! ### ATA registers -/

/-- Reading a register other than DATA with a drive selected: the value, and no state change. Rests
on the spec's own decisions D7, D17 (92_eei_decisions.md, log 16). -/
def Obligations.RegisterReadsReturnTheirValue : Prop :=
  ∀ (s : State) (d : Drive), s.chan.drv = some d →
    exec .ataRdError s = .next { s with result := .byte d.error } ∧
    exec .ataRdSectorCount s = .next { s with result := .byte s.chan.sectorCount } ∧
    exec .ataRdSector s = .next { s with result := .byte s.chan.sector } ∧
    exec .ataRdCylinderLow s = .next { s with result := .byte s.chan.cylinderLow } ∧
    exec .ataRdCylinderHigh s = .next { s with result := .byte s.chan.cylinderHigh } ∧
    exec .ataRdHeadDrive s = .next { s with result := .byte s.chan.head } ∧
    exec .ataRdStatus s = .next { s with result := .byte d.status } ∧
    exec .ataRdData2 s = .next { s with result := .byte s.chan.data2 }

/-- Writing a register other than DATA and COMMAND stores the byte and changes nothing else, in
every phase, with or without a drive; HEAD_DRIVE also sets `selected` from its bit 4. Rests on the
spec's own decisions D7, D11, D17 (92_eei_decisions.md, log 16). -/
def Obligations.RegisterWritesStoreTheByte : Prop :=
  ∀ (s : State) (b : Byte),
    exec (.ataWrFeature b) s = .next { s with chan := { s.chan with feature := b }, result := .nothing } ∧
    exec (.ataWrSectorCount b) s =
      .next { s with chan := { s.chan with sectorCount := b }, result := .nothing } ∧
    exec (.ataWrSector b) s = .next { s with chan := { s.chan with sector := b }, result := .nothing } ∧
    exec (.ataWrCylinderLow b) s =
      .next { s with chan := { s.chan with cylinderLow := b }, result := .nothing } ∧
    exec (.ataWrCylinderHigh b) s =
      .next { s with chan := { s.chan with cylinderHigh := b }, result := .nothing } ∧
    exec (.ataWrHeadDrive b) s =
      .next { s with
        chan := { s.chan with head := b, selected := if b.getLsbD 4 then .slave else .master }
        result := .nothing } ∧
    exec (.ataWrData2 b) s = .next { s with chan := { s.chan with data2 := b }, result := .nothing }

/-- With the selected slot empty every register read returns ATA_ABSENT_READ, writes to DATA and
COMMAND have no effect, and neither changes state; the other writes store the byte all the same.
With the card slot empty a read of the card returns 0xFF and changes nothing. Rests on the spec's
own decisions D11, D45 (92_eei_decisions.md, log 16). -/
def Obligations.AbsentDriveOrCard : Prop :=
  ∀ s : State,
    (s.card.slot = none → exec .spiRd s = .next { s with result := .byte 0xFF }) ∧
    (s.chan.drv = none → ∀ i ∈ [Instr.ataRdData, .ataRdError, .ataRdSectorCount, .ataRdSector, .ataRdCylinderLow,
        .ataRdCylinderHigh, .ataRdHeadDrive, .ataRdStatus, .ataRdData2],
      exec i s = .next { s with result := .byte s.cfg.ataAbsentRead }) ∧
    (s.chan.drv = none → ∀ b : Byte,
      exec (.ataWrData b) s = .next { s with result := .nothing } ∧
      exec (.ataWrCommand b) s = .next { s with result := .nothing } ∧
      exec (.ataWrFeature b) s =
        .next { s with chan := { s.chan with feature := b }, result := .nothing } ∧
      exec (.ataWrSectorCount b) s =
        .next { s with chan := { s.chan with sectorCount := b }, result := .nothing } ∧
      exec (.ataWrSector b) s =
        .next { s with chan := { s.chan with sector := b }, result := .nothing } ∧
      exec (.ataWrCylinderLow b) s =
        .next { s with chan := { s.chan with cylinderLow := b }, result := .nothing } ∧
      exec (.ataWrCylinderHigh b) s =
        .next { s with chan := { s.chan with cylinderHigh := b }, result := .nothing } ∧
      exec (.ataWrHeadDrive b) s =
        .next { s with
          chan := { s.chan with head := b, selected := if b.getLsbD 4 then .slave else .master }
          result := .nothing } ∧
      exec (.ataWrData2 b) s = .next { s with chan := { s.chan with data2 := b }, result := .nothing })

/-- A DATA access outside its phase, with a drive selected: a read returns 0xFF, a write is ignored,
and no state changes (the gates of R169 and R174). Rests on the spec's own decision D14
(92_eei_decisions.md, log 16). -/
def Obligations.DataAccessOutsideItsPhase : Prop :=
  ∀ (s : State) (d : Drive), s.chan.drv = some d →
    (s.chan.phase ≠ .pioIn → exec .ataRdData s = .next { s with result := .byte 0xFF }) ∧
    (s.chan.phase ≠ .pioOut → ∀ b : Byte, exec (.ataWrData b) s = .next { s with result := .nothing })

/-- A DATA read in PioIn that does not reach the end of the buffer: under each policy the byte it
returns, the counter, and what DATA2 latches. Rests on the spec's own decisions D16, D17
(92_eei_decisions.md, log 16). -/
def Obligations.DataReadInsideBuffer : Prop :=
  ∀ (s : State) (d : Drive), s.chan.drv = some d → s.chan.phase = .pioIn →
    match s.chan.databus with
    | .d8 => s.chan.datacounter + 2 < 512 →
      exec .ataRdData s = .next { s with
        chan := { s.chan with datacounter := s.chan.datacounter + 2 }
        result := .byte (byteAt s.chan.buffer s.chan.datacounter) }
    | .d16 => s.chan.datacounter + 1 < 512 →
      exec .ataRdData s = .next { s with
        chan := { s.chan with datacounter := s.chan.datacounter + 1 }
        result := .byte (byteAt s.chan.buffer s.chan.datacounter) }
    | .d16Byteswap => s.chan.datacounter + 1 < 512 →
      exec .ataRdData s = .next { s with
        chan := { s.chan with datacounter := s.chan.datacounter + 1 }
        result := .byte (byteAt s.chan.buffer (s.chan.datacounter ^^^ 1)) }
    | .d16Data2 => s.chan.datacounter + 2 < 512 →
      exec .ataRdData s = .next { s with
        chan := { s.chan with
          datacounter := s.chan.datacounter + 2
          data2 := byteAt s.chan.buffer (s.chan.datacounter + 1) }
        result := .byte (byteAt s.chan.buffer s.chan.datacounter) }

/-- The DATA read that reaches the end of the buffer with no sector left: it returns its byte, the
phase returns to Ready and DRQ of the selected drive is cleared; nothing else changes but what the
policy moves (`busRead`). Rests on the spec's own decisions D16, D17 (92_eei_decisions.md, log 16).
-/
def Obligations.DataReadEndsTransfer : Prop :=
  ∀ (s : State) (d : Drive), s.chan.drv = some d → s.chan.phase = .pioIn →
    512 ≤ s.chan.datacounter + busStep s.chan.databus → s.chan.sectorCount = 0 →
      exec .ataRdData s = .next { s with
        chan :=
          { (busRead s.chan).setDrive s.chan.selected (some { d with status := d.status &&& 0xF7 }) with
            phase := .ready }
        result := .byte (byteAt s.chan.buffer (busIndex s.chan.databus s.chan.datacounter)) }

/-- The DATA read that reaches the end of the buffer with sectors left: it returns its byte and
loads the next sector, or ends the transfer with ERR and IDNF (address out of range) or ERR and UNC
(store failure; count and address stay advanced). How the answers of FileOK are taken is the model's
choice (log 8). Rests on the spec's own decisions D16, D17, D18, D19, D20, D21, D26
(92_eei_decisions.md, log 16). -/
def Obligations.DataReadReloads : Prop :=
  ∀ (s : State) (d : Drive), s.chan.drv = some d → s.chan.phase = .pioIn →
    512 ≤ s.chan.datacounter + busStep s.chan.databus → s.chan.sectorCount ≠ 0 →
      (∀ n, address s.chan d = some n → storeGives d n s.env →
        exec .ataRdData s = .next { s with
          chan :=
            { (seekAdvance d (busRead s.chan)).setDrive s.chan.selected
                (some { d with status := d.status ||| 0x08 }) with
              buffer := sectorOf d n s.env, datacounter := 0 }
          env := storeEnv d n s.env
          result := .byte (byteAt s.chan.buffer (busIndex s.chan.databus s.chan.datacounter)) }) ∧
      (∀ n, address s.chan d = some n → ¬ storeGives d n s.env →
        exec .ataRdData s = .next { s with
          chan :=
            { (seekAdvance d (busRead s.chan)).setDrive s.chan.selected
                (some { d with
                  status := (d.status ||| 0x01) &&& 0xF7
                  error := if s.cfg.ataUncWithAbrt then 0x44 else 0x40 }) with
              phase := .ready }
          env := storeEnv d n s.env
          result := .byte (byteAt s.chan.buffer (busIndex s.chan.databus s.chan.datacounter)) }) ∧
      (address s.chan d = none →
        exec .ataRdData s = .next { s with
          chan :=
            { (busRead s.chan).setDrive s.chan.selected
                (some { d with
                  status := (d.status ||| 0x01) &&& 0xF7
                  error := if s.cfg.ataIdnfWithAbrt then 0x14 else 0x10 }) with
              phase := .ready }
          result := .byte (byteAt s.chan.buffer (busIndex s.chan.databus s.chan.datacounter)) })

/-- A DATA write in PioOut that does not fill the buffer: under each policy the bytes it stores,
with every other byte of the buffer as before, and the counter. Rests on the spec's own decisions
D15, D16, D17 (92_eei_decisions.md, log 16). -/
def Obligations.DataWriteInsideBuffer : Prop :=
  ∀ (s : State) (d : Drive) (b : Byte), s.chan.drv = some d → s.chan.phase = .pioOut →
    s.chan.datacounter + busStep s.chan.databus < 512 →
      ∃ buf : Sector,
        exec (.ataWrData b) s = .next { s with
          chan := { s.chan with
            buffer := buf
            datacounter := s.chan.datacounter +
              (match s.chan.databus with | .d8 => 2 | .d16 => 1 | .d16Byteswap => 1 | .d16Data2 => 2) }
          result := .nothing } ∧
        match s.chan.databus with
        | .d8 => ∀ k, k < 512 → byteAt buf k =
          if k = s.chan.datacounter then b
          else if k = s.chan.datacounter + 1 then s.cfg.ata8HighFill else byteAt s.chan.buffer k
        | .d16 => ∀ k, k < 512 → byteAt buf k =
          if k = s.chan.datacounter then b else byteAt s.chan.buffer k
        | .d16Byteswap => ∀ k, k < 512 → byteAt buf k =
          if k = s.chan.datacounter ^^^ 1 then b else byteAt s.chan.buffer k
        | .d16Data2 => ∀ k, k < 512 → byteAt buf k =
          if k = s.chan.datacounter then b
          else if k = s.chan.datacounter + 1 then s.chan.data2 else byteAt s.chan.buffer k

/-- The DATA write that fills the buffer: with a valid address the whole buffer goes to the store,
the count and the address move on, and the transfer goes on or ends with DRQ cleared; with an
address out of range it ends with ERR and IDNF and nothing is stored. Rests on the spec's own
decisions D15, D16, D17, D18, D19, D21, D26 (92_eei_decisions.md, log 16). -/
def Obligations.DataWriteCompletesSector : Prop :=
  ∀ (s : State) (d : Drive) (b : Byte), s.chan.drv = some d → s.chan.phase = .pioOut →
    512 ≤ s.chan.datacounter + busStep s.chan.databus →
      (∀ n, address s.chan d = some n →
        exec (.ataWrData b) s = .next { s with
          chan :=
            if s.chan.sectorCount - 1 = 0 then
              { (seekAdvance d (busWrite s.cfg b s.chan)).setDrive s.chan.selected
                  (some { memWrite d n (busWriteBuffer s.cfg b s.chan) with
                    status := d.status &&& 0xF7 }) with
                phase := .ready }
            else
              { (seekAdvance d (busWrite s.cfg b s.chan)).setDrive s.chan.selected
                  (some (memWrite d n (busWriteBuffer s.cfg b s.chan))) with
                datacounter := 0 }
          result := .nothing }) ∧
      (address s.chan d = none →
        exec (.ataWrData b) s = .next { s with
          chan :=
            { (busWrite s.cfg b s.chan).setDrive s.chan.selected
                (some { d with
                  status := (d.status ||| 0x01) &&& 0xF7
                  error := if s.cfg.ataIdnfWithAbrt then 0x14 else 0x10 }) with
              phase := .ready }
          result := .nothing })

/-- Reading out the last buffer of a transfer: from datacounter 0 the policy's number of DATA reads
returns the buffer's bytes in the policy's order and leaves the channel Ready with DRQ cleared.
Rests on the spec's own decisions D16, D17 (92_eei_decisions.md, log 16). -/
def Obligations.DataReadsDrainTheBuffer : Prop :=
  ∀ (s : State) (d : Drive), s.chan.drv = some d → s.chan.phase = .pioIn → s.chan.datacounter = 0 →
    s.chan.sectorCount = 0 →
      ∃ t : State,
        runs (List.replicate (512 / busStep s.chan.databus) .ataRdData) s =
          some ((List.range (512 / busStep s.chan.databus)).map (fun k =>
            match s.chan.databus with
            | .d8 => .byte (byteAt s.chan.buffer (2 * k))
            | .d16 => .byte (byteAt s.chan.buffer k)
            | .d16Byteswap => .byte (byteAt s.chan.buffer (k ^^^ 1))
            | .d16Data2 => .byte (byteAt s.chan.buffer (2 * k))), t) ∧
        t = { s with
          chan :=
            { s.chan.setDrive s.chan.selected (some { d with status := d.status &&& 0xF7 }) with
              phase := .ready, datacounter := 512
              data2 := if s.chan.databus = .d16Data2 then byteAt s.chan.buffer 511 else s.chan.data2 }
          result := t.result }

/-- Writing one sector under D16: 512 DATA writes from datacounter 0 with one sector to go put
exactly those bytes in the cache under the addressed sector and end the transfer. Rests on the
spec's own decision D18 (92_eei_decisions.md, log 16). -/
def Obligations.DataWritesStoreOneSector : Prop :=
  ∀ (s : State) (d : Drive) (n : Nat) (v : Sector), s.chan.drv = some d → s.chan.databus = .d16 →
    s.chan.phase = .pioOut → s.chan.datacounter = 0 → s.chan.sectorCount = 1 →
    address s.chan d = some n →
      runs (v.toList.map .ataWrData) s =
        some (List.replicate 512 .nothing, { s with
          chan :=
            { s.chan.setDrive s.chan.selected
                (some { memWrite d n v with status := d.status &&& 0xF7 }) with
              buffer := v, phase := .ready, datacounter := 512, sectorCount := 0 }
          result := .nothing })

/-! ### ATA commands -/

/-- A write to COMMAND runs the command that the opcode table reads from the byte, and completes;
nothing is stored of the byte itself. -/
def Obligations.CommandWriteRunsTheOpcode : Prop :=
  ∀ (b : Byte) (s : State), ∃ t : State,
    exec (.ataWrCommand b) s = .next t ∧ exec (decodeAtaCmd b) s = .next t ∧
    t.chan.feature = s.chan.feature ∧ t.chan.data2 = s.chan.data2 ∧ t.chan.selected = s.chan.selected ∧
    t.chan.databus = s.chan.databus ∧ t.card = s.card ∧ t.env.files = s.env.files ∧ t.cfg = s.cfg ∧
    t.result = .nothing

/-- Outside Ready every command is ignored with no state change. Rests on the spec's own decision
D10 (92_eei_decisions.md, log 16). -/
def Obligations.CommandsIgnoredOutsideReady : Prop :=
  ∀ (s : State) (op : Byte), s.chan.phase ≠ .ready →
    ∀ i ∈ [Instr.readSectorRetry, .readSectorNoretry, .writeSectorRetry, .writeSectorNoretry,
        .identifyDriveAta, .identifyDriveAtapi, .initializeDeviceParameters, .ataCmdOther op,
        .ataWrCommand op],
      exec i s = .next { s with result := .nothing }

/-- READ with a valid address and a store that gives the sector: the sector is in the buffer, the
count and the address have moved on by `seekAdvance`, PioIn with DRQ. Both opcodes alike. How the
answers of FileOK are taken is the model's choice (log 8). Rests on the spec's own decisions D9,
D18, D26 (92_eei_decisions.md, log 16). -/
def Obligations.ReadCommandLoadsSector : Prop :=
  ∀ (s : State) (d : Drive) (n : Nat), s.chan.drv = some d → s.chan.phase = .ready →
    address s.chan d = some n → storeGives d n s.env →
      ∀ i ∈ [Instr.readSectorRetry, .readSectorNoretry],
        exec i s = .next { s with
          chan :=
            { (seekAdvance d s.chan).setDrive s.chan.selected
                (some { d.afterPreamble with status := d.afterPreamble.status ||| 0x08 }) with
              buffer := sectorOf d n s.env, phase := .pioIn, datacounter := 0 }
          env := storeEnv d n s.env
          result := .nothing }

/-- READ that fails: an address out of range gives ERR and IDNF with the task file untouched; a
store failure gives ERR and UNC with the count and the address already advanced; the phase stays
Ready and DRQ is clear. How the answers of FileOK are taken is the model's choice (log 8). Rests on
the spec's own decisions D9, D18, D19, D20, D21 (92_eei_decisions.md, log 16). -/
def Obligations.ReadCommandFailures : Prop :=
  ∀ (s : State) (d : Drive), s.chan.drv = some d → s.chan.phase = .ready →
    ∀ i ∈ [Instr.readSectorRetry, .readSectorNoretry],
      (address s.chan d = none →
        exec i s = .next { s with
          chan := s.chan.setDrive s.chan.selected
            (some { d.afterPreamble with
              status := (d.afterPreamble.status ||| 0x01) &&& 0xF7
              error := if s.cfg.ataIdnfWithAbrt then 0x14 else 0x10 })
          result := .nothing }) ∧
      (∀ n, address s.chan d = some n → ¬ storeGives d n s.env →
        exec i s = .next { s with
          chan := (seekAdvance d s.chan).setDrive s.chan.selected
            (some { d.afterPreamble with
              status := (d.afterPreamble.status ||| 0x01) &&& 0xF7
              error := if s.cfg.ataUncWithAbrt then 0x44 else 0x40 })
          env := storeEnv d n s.env
          result := .nothing })

/-- WRITE opens PioOut with DRQ and the counter at 0; no address check, no other change. Both
opcodes alike. Rests on the spec's own decision D9 (92_eei_decisions.md, log 16). -/
def Obligations.WriteCommandOpensTransfer : Prop :=
  ∀ (s : State) (d : Drive), s.chan.drv = some d → s.chan.phase = .ready →
    ∀ i ∈ [Instr.writeSectorRetry, .writeSectorNoretry],
      exec i s = .next { s with
        chan :=
          { s.chan.setDrive s.chan.selected
              (some { d.afterPreamble with status := d.afterPreamble.status ||| 0x08 }) with
            phase := .pioOut, datacounter := 0 }
        result := .nothing }

/-- IDENTIFY loads the 512-byte identity block, byte for byte as R202 lays it out, forces the count
to 0 and opens PioIn; nothing else changes. Both opcodes alike. Rests on the spec's own decisions
D9, D23 (92_eei_decisions.md, log 16). -/
def Obligations.IdentifyLoadsIdentity : Prop :=
  ∀ (s : State) (d : Drive), s.chan.drv = some d → s.chan.phase = .ready →
    ∃ buf : Sector,
      (∀ i ∈ [Instr.identifyDriveAta, .identifyDriveAtapi],
        exec i s = .next { s with
          chan :=
            { s.chan.setDrive s.chan.selected
                (some { d.afterPreamble with status := d.afterPreamble.status ||| 0x08 }) with
              buffer := buf, sectorCount := 0, phase := .pioIn, datacounter := 0 }
          result := .nothing }) ∧
      (∀ k, k < 106 → byteAt buf k = byteAt d.identity k) ∧
      wordAt buf 54 = d.cylinders ∧ wordAt buf 55 = d.heads ∧ wordAt buf 56 = d.sectors ∧
      wordAt buf 57 = BitVec.ofNat 16 d.total ∧ wordAt buf 58 = BitVec.ofNat 16 (d.total / 65536) ∧
      ((wordAt d.identity 49).getLsbD 9 = true →
        wordAt buf 60 = BitVec.ofNat 16 d.total ∧ wordAt buf 61 = BitVec.ofNat 16 (d.total / 65536)) ∧
      ((wordAt d.identity 49).getLsbD 9 = false → wordAt buf 60 = 0 ∧ wordAt buf 61 = 0) ∧
      ∀ k, 106 ≤ k → k < 512 → k / 2 ∉ [54, 55, 56, 57, 58, 60, 61] → byteAt buf k = 0x00

/-- INITIALIZE DEVICE PARAMETERS is accepted, runs the preamble and changes nothing else, under the
default of ATA_INIT_PARAMS_EFFECT (that the parameter is fixed at its default is the model's choice,
log 17). Rests on the spec's own decisions D9, D22 (92_eei_decisions.md, log 16). -/
def Obligations.InitializeDeviceParametersKeepsGeometry : Prop :=
  ∀ (s : State) (d : Drive), s.chan.drv = some d → s.chan.phase = .ready →
    exec .initializeDeviceParameters s = .next { s with
      chan := s.chan.setDrive s.chan.selected (some d.afterPreamble)
      result := .nothing }

/-- An opcode outside the seven sets ERR and ABRT after the preamble; the phase stays Ready and no
register of the task file changes. Rests on the spec's own decision D9 (92_eei_decisions.md, log
16). -/
def Obligations.UnknownOpcodesAbort : Prop :=
  ∀ (s : State) (d : Drive) (op : Byte), s.chan.drv = some d → s.chan.phase = .ready →
    exec (.ataCmdOther op) s = .next { s with
      chan := s.chan.setDrive s.chan.selected
        (some { d.afterPreamble with status := d.afterPreamble.status ||| 0x01, error := 0x04 })
      result := .nothing } ∧
    ((Instr.ataCmdOther op).wellFormed = true →
      exec (.ataWrCommand op) s = exec (.ataCmdOther op) s)

/-! ### seek -/

/-- What a successful seek does to the channel: the count goes down by one modulo 256; the four
address registers change only if sectors remain, and of HEAD only the low nibble; nothing else
changes. In LBA mode the 28-bit number they hold goes up by one, modulo 2^28. In CHS mode the sector
counts up within the track, then the head within the cylinder, then the cylinder modulo 65536; the
comparisons are between natural numbers. Rests on the spec's own decisions D4, D26
(92_eei_decisions.md, log 16). -/
def Obligations.SeekCountsDownAndAdvances : Prop :=
  ∀ (c : Channel) (d : Drive),
    seekAdvance d c = { c with
      sectorCount := c.sectorCount - 1
      sector := (seekAdvance d c).sector, cylinderLow := (seekAdvance d c).cylinderLow
      cylinderHigh := (seekAdvance d c).cylinderHigh, head := (seekAdvance d c).head } ∧
    (seekAdvance d c).head.extractLsb' 4 4 = c.head.extractLsb' 4 4 ∧
    (c.sectorCount = 1 → seekAdvance d c = { c with sectorCount := 0 }) ∧
    (c.sectorCount ≠ 1 → c.lba = true → (seekAdvance d c).lbaNumber = c.lbaNumber + 1) ∧
    (c.sectorCount ≠ 1 → c.lba = false →
      (c.sector.toNat ≠ d.sectors.toNat →
        seekAdvance d c = { c with sectorCount := c.sectorCount - 1, sector := c.sector + 1 }) ∧
      (c.sector.toNat = d.sectors.toNat → c.headNibble.toNat + 1 ≠ d.heads.toNat →
        (seekAdvance d c).sector = 1 ∧ (seekAdvance d c).headNibble = c.headNibble + 1 ∧
        (seekAdvance d c).cylinder = c.cylinder) ∧
      (c.sector.toNat = d.sectors.toNat → c.headNibble.toNat + 1 = d.heads.toNat →
        (seekAdvance d c).sector = 1 ∧ (seekAdvance d c).headNibble = 0 ∧
        (seekAdvance d c).cylinder = c.cylinder + 1))

/-- Every address that seek accepts is below T(d). Rests on the spec's own decision D18
(92_eei_decisions.md, log 16). -/
def Obligations.AcceptedAddressIsBelowTotal : Prop :=
  ∀ (c : Channel) (d : Drive) (n : Nat), address c d = some n → n < d.total

/-- Consecutive sectors of one command are consecutive sectors of the drive, in both modes: after a
seek with sectors remaining the address is the next sector number, or out of range after the last.
The drive must be one whose every sector the registers reach: in LBA mode at most 2^28 sectors, in
CHS mode at most 255 sectors a track and 16 heads. Rests on the spec's own decisions D4, D18, D26
(92_eei_decisions.md, log 16). -/
def Obligations.SuccessiveSeeksAreConsecutiveSectors : Prop :=
  ∀ (c : Channel) (d : Drive) (n : Nat), address c d = some n → c.sectorCount ≠ 1 →
    (c.lba = true → d.total ≤ 2 ^ 28) →
    (c.lba = false → d.sectors.toNat ≤ 255 ∧ d.heads.toNat ≤ 16) →
      address (seekAdvance d c) d =
        if n + 1 < d.total then some (n + 1)
        else if c.lba = true ∧ d.total = 2 ^ 28 then some 0 else none

/-! ### SPI bytes -/

/-- One byte into a card that collects a frame or a data block: what it stores and where the
receiver goes, and that nothing else changes; outside a frame a byte that starts none is ignored. -/
def Obligations.SpiWriteMovesTheReceiver : Prop :=
  ∀ (s : State) (m : Medium) (b : Byte), s.card.slot = some m →
    (s.card.commandState = .waitingForCommand →
      (b &&& 0xC0 = 0x40 → exec (.spiWr b) s = .next { s with
        card := { s.card with currentCommand := b.setWidth 6, commandState := .waitingForData0 }
        result := .nothing }) ∧
      (b &&& 0xC0 ≠ 0x40 → exec (.spiWr b) s = .next { s with result := .nothing })) ∧
    (s.card.commandState = .waitingForData0 → exec (.spiWr b) s = .next { s with
      card := { s.card with arg0 := b, commandState := .waitingForData1 }, result := .nothing }) ∧
    (s.card.commandState = .waitingForData1 → exec (.spiWr b) s = .next { s with
      card := { s.card with arg1 := b, commandState := .waitingForData2 }, result := .nothing }) ∧
    (s.card.commandState = .waitingForData2 → exec (.spiWr b) s = .next { s with
      card := { s.card with arg2 := b, commandState := .waitingForData3 }, result := .nothing }) ∧
    (s.card.commandState = .waitingForData3 → exec (.spiWr b) s = .next { s with
      card := { s.card with arg3 := b, commandState := .waitingForCrc }, result := .nothing }) ∧
    (s.card.commandState = .waitingForData →
      (s.card.dataCount + 1 < 512 → exec (.spiWr b) s = .next { s with
        card := { s.card with
          sendBuffer := setByte s.card.sendBuffer s.card.dataCount b
          dataCount := s.card.dataCount + 1 }
        result := .nothing }) ∧
      (s.card.dataCount + 1 = 512 → exec (.spiWr b) s = .next { s with
        card := { s.card with
          sendBuffer := setByte s.card.sendBuffer s.card.dataCount b
          dataCount := 512, commandState := .waitingForDataCrc1 }
        result := .nothing })) ∧
    (s.card.commandState = .waitingForDataCrc1 → exec (.spiWr b) s = .next { s with
      card := { s.card with commandState := .waitingForDataCrc2 }, result := .nothing })

/-- With no card inserted nothing that is sent changes any state, whatever the receiver waits for.
-/
def Obligations.NoCardIgnoresSpi : Prop :=
  ∀ (s : State) (i : Instr), s.card.slot = none → isSpiAccess i = true → i ≠ .spiRd →
    exec i s = .next { s with result := .nothing }

/-- SPI_RD pops the oldest response byte, and returns 0xFF once the queue is exhausted; no other
state changes in any state of the receiver. As many SPI_RD as bytes are pending return them all in
order. -/
def Obligations.SpiReadsDrainTheResponse : Prop :=
  ∀ (s : State) (m : Medium), s.card.slot = some m → s.card.wr ≤ 516 →
    (∀ (b : Byte) (rest : List Byte), s.card.pending = b :: rest →
      ∃ t : State, exec .spiRd s = .next t ∧ t.card.pending = rest ∧
        t = { s with card := { s.card with rd := s.card.rd + 1 }, result := .byte b }) ∧
    (s.card.pending = [] → exec .spiRd s = .next { s with result := .byte 0xFF }) ∧
    (s.card.rd ≤ s.card.wr → ∃ t : State,
      runs (List.replicate s.card.pending.length .spiRd) s = some (s.card.pending.map .byte, t) ∧
      t.card = { s.card with rd := s.card.wr } ∧ t.chan = s.chan ∧ t.env = s.env)

/-- A response replaces the queue: the bytes it holds are exactly the new response; the rest of the
buffer and of the card is as before. Rests on the spec's own decision D34 (92_eei_decisions.md, log
16). -/
def Obligations.ResponseReplacesTheQueue : Prop :=
  ∀ (l : List Byte) (c : Card), l.length ≤ 516 →
    (respond l c).pending = l ∧
    respond l c = { c with responseBuffer := (respond l c).responseBuffer, rd := 0, wr := l.length } ∧
    ∀ k, l.length ≤ k → k < 516 → byteAt (respond l c).responseBuffer k = byteAt c.responseBuffer k

/-- A command frame is its six bytes sent one by one, and a data block its 515 bytes; the frame's
row name does not matter, only its bits and the state of the card: whether a frame is an application
command is decided by `cmd55_issued` alone (that a frame is one step is the model's choice, log 5).
The byte that completes a frame or a block is not examined. Rests on the spec's own decisions D34,
D37 (92_eei_decisions.md, log 16). -/
def Obligations.FramesAreSpiBytes : Prop :=
  (∀ (index : BitVec 6) (arg : BitVec 32) (crc : Byte) (s : State), ∃ t : State,
    exec (decodeCmd index arg crc) s = .next t ∧ exec (decodeAcmd index arg crc) s = .next t ∧
    runs ((frameBytes index arg crc).map .spiWr) s = some (List.replicate 6 .nothing, t)) ∧
  (∀ (data : Sector) (crc1 crc2 : Byte) (s : State), ∃ t : State,
    exec (.mmcDataBlock data crc1 crc2) s = .next t ∧
    runs ((dataBlockBytes data crc1 crc2).map .spiWr) s = some (List.replicate 515 .nothing, t)) ∧
  (∀ (s : State) (m : Medium) (b : Byte), s.card.slot = some m →
    s.card.commandState = .waitingForCrc ∨ s.card.commandState = .waitingForDataCrc2 →
      ∃ t : State, exec (.spiWr b) s = .next t ∧ exec (.spiWr 0x00) s = .next t ∧
        (t.card.commandState = .waitingForCommand ∨
          (s.card.commandState = .waitingForCrc ∧ t.card.commandState = .waitingForDataToken)) ∧
        t.card.rd = 0 ∧ t.chan = s.chan)

/-! ### MMC commands: a frame sent to a card that waits for one -/

/-- The commands that cannot be refused. CMD0 sets IDLE and clears `cmd8_issued`, its R1 built after
the update; CMD8 sets `cmd8_issued` and answers R7 with the check pattern; CMD55 sets the one-shot
prefix for the next frame; CMD58 answers the OCR with bits 31 and 30 set, in the idle state too.
Rests on the spec's own decisions D31, D33, D34, D41, D42 (92_eei_decisions.md, log 16). -/
def Obligations.CommandsAlwaysAccepted : Prop :=
  ∀ (s : State) (m : Medium) (arg : BitVec 32) (crc : Byte), s.card.readyFor m →
    s.card.cmd55Issued = false →
      exec (.cmd0GoIdleState arg crc) s = .next { s with
        card := respond [s.card.r1Base false ||| 0x01]
          { s.card.framed 0 arg false with
            r1Status := s.card.r1Base false ||| 0x01, cmd8Issued := false }
        result := .nothing } ∧
      exec (.cmd8SendIfCond arg crc) s = .next { s with
        card := respond [s.card.r1Base false, 0x00, 0x00, 0x01, arg.extractLsb' 0 8]
          { s.card.framed 8 arg false with cmd8Issued := true }
        result := .nothing } ∧
      exec (.cmd55AppCmd arg crc) s = .next { s with
        card := respond [s.card.r1Base false] { s.card.framed 55 arg false with cmd55Issued := true }
        result := .nothing } ∧
      exec (.cmd58ReadOcr arg crc) s = .next { s with
        card := respond [s.card.r1Base false, 0xC0, 0x00, 0x00, 0x00] (s.card.framed 58 arg false)
        result := .nothing }

/-- CMD9 and CMD10: ILLEGAL_COMMAND in the idle state; otherwise a data block, the CSD with the
capacity in its bytes 7 to 9, or the CID constant (that the CSD keeps R264's default in bytes 0, 5,
7, 8, 9 is the model's choice, log 18). Rests on the spec's own decisions D33, D34, D41, D43
(92_eei_decisions.md, log 16). -/
def Obligations.SendCsdAndCid : Prop :=
  ∀ (s : State) (m : Medium) (arg : BitVec 32) (crc : Byte), s.card.readyFor m →
    s.card.cmd55Issued = false →
      (s.card.r1Status &&& 0x01 = 0x01 →
        exec (.cmd9SendCsd arg crc) s = .next { s with
          card := respond [s.card.r1Base false ||| 0x04]
            { s.card.framed 9 arg false with r1Status := s.card.r1Base false ||| 0x04 }
          result := .nothing } ∧
        exec (.cmd10SendCid arg crc) s = .next { s with
          card := respond [s.card.r1Base false ||| 0x04]
            { s.card.framed 10 arg false with r1Status := s.card.r1Base false ||| 0x04 }
          result := .nothing }) ∧
      (s.card.r1Status &&& 0x01 = 0x00 →
        (∃ csd : List Byte,
          exec (.cmd9SendCsd arg crc) s = .next { s with
            card := respond ([s.card.r1Base false, 0xFE] ++ csd ++ [0x00, 0x00])
              (s.card.framed 9 arg false)
            result := .nothing } ∧
          csd.length = 16 ∧ csd.getD 0 0 = 0x40 ∧ csd.getD 5 0 = 0x09 ∧
          (csd.getD 7 0).toNat * 65536 + (csd.getD 8 0).toNat * 256 + (csd.getD 9 0).toNat =
            m.cSize % 2 ^ 22) ∧
        exec (.cmd10SendCid arg crc) s = .next { s with
          card := respond ([s.card.r1Base false, 0xFE] ++ s.cfg.mmcCid.toList ++ [0x00, 0x00])
            (s.card.framed 10 arg false)
          result := .nothing })

/-- CMD17: idle state first, then the range, then the store; a store failure is the token 0x01 with
no R1 error bit. How the answers of FileOK are taken is the model's choice (log 8). Rests on the
spec's own decisions D31, D33, D34, D39, D41 (92_eei_decisions.md, log 16). -/
def Obligations.ReadSingleBlockAnswers : Prop :=
  ∀ (s : State) (m : Medium) (arg : BitVec 32) (crc : Byte), s.card.readyFor m →
    s.card.cmd55Issued = false →
      (s.card.r1Status &&& 0x01 = 0x01 →
        exec (.cmd17ReadSingleBlock arg crc) s = .next { s with
          card := respond [s.card.r1Base false ||| 0x04]
            { s.card.framed 17 arg false with r1Status := s.card.r1Base false ||| 0x04 }
          result := .nothing }) ∧
      (s.card.r1Status &&& 0x01 = 0x00 → m.totalSectors ≤ arg.toNat →
        exec (.cmd17ReadSingleBlock arg crc) s = .next { s with
          card := respond [s.card.r1Base false ||| 0x40]
            { s.card.framed 17 arg false with r1Status := s.card.r1Base false ||| 0x40 }
          result := .nothing }) ∧
      (s.card.r1Status &&& 0x01 = 0x00 → arg.toNat < m.totalSectors →
        storeGives m.drive arg.toNat s.env →
          exec (.cmd17ReadSingleBlock arg crc) s = .next { s with
            card := respond
              ([s.card.r1Base false, 0xFE] ++ (sectorOf m.drive arg.toNat s.env).toList ++ [0x00, 0x00])
              (s.card.framed 17 arg false)
            env := storeEnv m.drive arg.toNat s.env
            result := .nothing }) ∧
      (s.card.r1Status &&& 0x01 = 0x00 → arg.toNat < m.totalSectors →
        ¬ storeGives m.drive arg.toNat s.env →
          exec (.cmd17ReadSingleBlock arg crc) s = .next { s with
            card := respond [s.card.r1Base false, 0x01] (s.card.framed 17 arg false)
            env := storeEnv m.drive arg.toNat s.env
            result := .nothing })

/-- CMD24, the command phase: R1 with the result of the checks, nothing written, and the data phase
opens whatever the outcome. Rests on the spec's own decisions D31, D33, D34, D37, D38, D39, D41
(92_eei_decisions.md, log 16). -/
def Obligations.WriteBlockOpensDataPhase : Prop :=
  ∀ (s : State) (m : Medium) (arg : BitVec 32) (crc : Byte), s.card.readyFor m →
    s.card.cmd55Issued = false →
      exec (.cmd24WriteBlock arg crc) s = .next { s with
        card :=
          if s.card.r1Status &&& 0x01 = 0x01 then
            respond [s.card.r1Base false ||| 0x04]
              { s.card.framed 24 arg false with
                r1Status := s.card.r1Base false ||| 0x04, commandState := .waitingForDataToken }
          else if m.totalSectors ≤ arg.toNat then
            respond [s.card.r1Base false ||| 0x40]
              { s.card.framed 24 arg false with
                r1Status := s.card.r1Base false ||| 0x40, commandState := .waitingForDataToken }
          else
            respond [s.card.r1Base false]
              { s.card.framed 24 arg false with commandState := .waitingForDataToken }
        result := .nothing }

/-- The data phase: a card that waits for the token ignores every byte but 0xFE, which starts the
count of data bytes; a block sent to it is written through the store and answered 05 01 if the
sector of the frame is in range, whatever the idle state; otherwise PARAMETER_ERROR is set, nothing
is written, and MMC_WRITE_ERR_RESPONSE is answered (a template of constants and R1, log 19). Rests
on the spec's own decisions D34, D36, D37, D38 (92_eei_decisions.md, log 16). -/
def Obligations.DataBlockIsWritten : Prop :=
  ∀ (s : State) (m : Medium) (data : Sector) (crc1 crc2 : Byte), s.card.slot = some m →
    s.card.commandState = .waitingForDataToken →
      exec (.spiWr 0xFE) s = .next { s with
        card := { s.card with dataCount := 0, commandState := .waitingForData }, result := .nothing } ∧
      (∀ b : Byte, b ≠ 0xFE → exec (.spiWr b) s = .next { s with result := .nothing }) ∧
      (s.card.argument.toNat < m.totalSectors →
        exec (.mmcDataBlock data crc1 crc2) s = .next { s with
          card := respond [0x05, 0x01]
            { s.card with
              slot := some { m with drive := memWrite m.drive s.card.argument.toNat data }
              commandState := .waitingForCommand, sendBuffer := data, dataCount := 512 }
          result := .nothing }) ∧
      (m.totalSectors ≤ s.card.argument.toNat →
        exec (.mmcDataBlock data crc1 crc2) s = .next { s with
          card := respond
            (s.cfg.mmcWriteErrResponse.map fun item => item.getD (s.card.r1Status ||| 0x40))
            { s.card with
              r1Status := s.card.r1Status ||| 0x40
              commandState := .waitingForCommand, sendBuffer := data, dataCount := 512 }
          result := .nothing })

/-- CMD32 and CMD33, the two bounds of an erase: out of order, out of range (CMD33: or before the
start), or accepted. Rests on the spec's own decisions D31, D33, D34, D40, D41 (92_eei_decisions.md,
log 16). -/
def Obligations.EraseBoundsAreChecked : Prop :=
  ∀ (s : State) (m : Medium) (arg : BitVec 32) (crc : Byte), s.card.readyFor m →
    s.card.cmd55Issued = false →
      exec (.cmd32EraseWrBlkStart arg crc) s = .next { s with
        card :=
          if s.card.eraseSequence ≠ .closed then
            respond [s.card.r1Base true ||| 0x10]
              { s.card.framed 32 arg true with
                r1Status := s.card.r1Base true ||| 0x10, eraseSequence := .closed }
          else if m.totalSectors ≤ arg.toNat then
            respond [s.card.r1Base true ||| 0x40]
              { s.card.framed 32 arg true with
                r1Status := s.card.r1Base true ||| 0x40, eraseSequence := .closed }
          else
            respond [s.card.r1Base true]
              { s.card.framed 32 arg true with eraseStart := arg, eraseSequence := .started }
        result := .nothing } ∧
      exec (.cmd33EraseWrBlkEnd arg crc) s = .next { s with
        card :=
          if s.card.eraseSequence ≠ .started then
            respond [s.card.r1Base true ||| 0x10]
              { s.card.framed 33 arg true with
                r1Status := s.card.r1Base true ||| 0x10, eraseSequence := .closed }
          else if m.totalSectors ≤ arg.toNat ∨ arg.toNat < s.card.eraseStart.toNat then
            respond [s.card.r1Base true ||| 0x40]
              { s.card.framed 33 arg true with
                r1Status := s.card.r1Base true ||| 0x40, eraseSequence := .closed }
          else
            respond [s.card.r1Base true]
              { s.card.framed 33 arg true with eraseEnd := arg, eraseSequence := .ended }
        result := .nothing }

/-- CMD38: out of order it is refused; in order the cache holds a zero sector for every number of
the range, both bounds included, and every other entry as before; no file is touched. Rests on the
spec's own decisions D33, D34, D40, D41 (92_eei_decisions.md, log 16). -/
def Obligations.EraseZeroFillsTheRange : Prop :=
  ∀ (s : State) (m : Medium) (arg : BitVec 32) (crc : Byte), s.card.readyFor m →
    s.card.cmd55Issued = false →
      (s.card.eraseSequence ≠ .ended →
        exec (.cmd38Erase arg crc) s = .next { s with
          card := respond [s.card.r1Base true ||| 0x10]
            { s.card.framed 38 arg true with
              r1Status := s.card.r1Base true ||| 0x10, eraseSequence := .closed }
          result := .nothing }) ∧
      (s.card.eraseSequence = .ended →
        ∃ cache : Cache,
          exec (.cmd38Erase arg crc) s = .next { s with
            card := respond [s.card.r1Base true, 0x01]
              { s.card.framed 38 arg true with
                slot := some { m with drive := { m.drive with cache := cache } }
                eraseSequence := .closed }
            result := .nothing } ∧
          ∀ k, cacheFind cache k =
            if s.card.eraseStart.toNat ≤ k ∧ k ≤ s.card.eraseEnd.toNat then
              some (List.replicate m.drive.sectorSize.bytes 0x00)
            else cacheFind m.drive.cache k)

/-- Unknown indices: ILLEGAL_COMMAND, R1 only. After APP_CMD that is every index but 41: the
standard command of the index does not run, and index 24 opens the data phase only under
MMC_ACMD24_ENTERS_DATA_PHASE. Rests on the spec's own decisions D33, D34, D37, D41
(92_eei_decisions.md, log 16). -/
def Obligations.UnknownIndicesAreIllegal : Prop :=
  ∀ (s : State) (m : Medium) (index : BitVec 6) (arg : BitVec 32) (crc : Byte), s.card.readyFor m →
    (s.card.cmd55Issued = false → (Instr.cmdOther index arg crc).wellFormed = true →
      exec (.cmdOther index arg crc) s = .next { s with
        card := respond [s.card.r1Base false ||| 0x04]
          { s.card.framed index arg false with r1Status := s.card.r1Base false ||| 0x04 }
        result := .nothing }) ∧
    (s.card.cmd55Issued = true → (Instr.acmdOther index arg crc).wellFormed = true →
      exec (.acmdOther index arg crc) s = .next { s with
        card := respond [s.card.r1Base false ||| 0x04]
          { s.card.framed index arg false with
            r1Status := s.card.r1Base false ||| 0x04
            commandState :=
              if index = 24 ∧ s.cfg.mmcAcmd24EntersDataPhase = true then .waitingForDataToken
              else .waitingForCommand }
        result := .nothing })

/-- ACMD41 after APP_CMD: IDLE cleared if CMD8 was issued and HCS is set, R1 built afterwards. Rests
on the spec's own decisions D33, D34, D41, D42 (92_eei_decisions.md, log 16). -/
def Obligations.SdSendOpCondLeavesIdle : Prop :=
  ∀ (s : State) (m : Medium) (arg : BitVec 32) (crc : Byte), s.card.readyFor m →
    s.card.cmd55Issued = true →
      exec (.acmd41SdSendOpCond arg crc) s = .next { s with
        card :=
          if s.card.cmd8Issued = true ∧ arg.getLsbD 30 = true then
            respond [s.card.r1Base false &&& 0xFE]
              { s.card.framed 41 arg false with r1Status := s.card.r1Base false &&& 0xFE }
          else respond [s.card.r1Base false] (s.card.framed 41 arg false)
        result := .nothing }

/-! ### The sector store and the host calls -/

/-- MemWrite puts the packed bytes, all of them or on a 256-byte drive the even ones, in the cache
as the sector's one entry and touches nothing else of the drive. The sector then reads as the bytes
written, or as their even ones with 0xFF between; every other sector as before; and the read cannot
fail. -/
def Obligations.SectorReadsAsWritten : Prop :=
  ∀ (d : Drive) (n : Nat) (v : Sector) (e : Env),
    memWrite d n v = { d with cache := (memWrite d n v).cache } ∧
    cacheFind (memWrite d n v).cache n = some (match d.sectorSize with
      | .s512 => v.toList
      | .s256 => (List.range 256).map fun i => byteAt v (2 * i)) ∧
    memRead (memWrite d n v) n e = (some (sectorOf (memWrite d n v) n e), e) ∧
    (d.sectorSize = .s512 → sectorOf (memWrite d n v) n e = v) ∧
    (d.sectorSize = .s256 → ∀ k, k < 512 →
      byteAt (sectorOf (memWrite d n v) n e) k = if k % 2 = 0 then byteAt v k else 0xFF) ∧
    ∀ k, k ≠ n → sectorOf (memWrite d n v) k e = sectorOf d k e ∧
      cacheFind (memWrite d n v).cache k = cacheFind d.cache k

/-- A sector that is not cached reads as its packed bytes in the image: 512 of them as they are, 256
of them with 0xFF between; the read fails exactly if one of the two file operations does. How the
answers of FileOK are taken, and that the files are one flat memory, are the model's choices (logs
8, 11). -/
def Obligations.UncachedSectorReadsTheImage : Prop :=
  ∀ (d : Drive) (n : Nat) (e : Env), cacheFind d.cache n = none →
    (memRead d n e).1 = (if e.askTwice.1.2 then some (sectorOf d n e) else none) ∧
    (memRead d n e).2.files = e.files ∧
    ∀ k, k < 512 → byteAt (sectorOf d n e) k =
      match d.sectorSize with
      | .s512 => readByte e.files (fileAddr d.image (d.dataOffset + n * 512 + k))
      | .s256 =>
        if k % 2 = 0 then readByte e.files (fileAddr d.image (d.dataOffset + n * 256 + k / 2)) else 0xFF

/-- ATA_NEW and MMC_NEW: the construction values of R50 and R51, whatever stood before; what those
rules leave unspecified is free (log 14). Nothing else changes. That the new instance takes the
place of the old one, whose drives are dropped, is the model's choice (log 2); that the master is
selected whatever ATA_RESET.head says is read from R50 by inference (log 24); the result handed back
is the model's own field (log 22). Rests on the spec's own decisions D12, D35 (92_eei_decisions.md,
log 16). -/
def Obligations.NewConstructsChannelAndCard : Prop :=
  ∀ (s : State) (databus : Databus),
    (∃ t : State, exec (.ataNew databus) s = .next t ∧
      t.chan = { t.chan with
        databus := databus, drive0 := none, drive1 := none, selected := .master, phase := .ready
        datacounter := 0, sectorCount := s.cfg.ataReset.sectorCount, sector := s.cfg.ataReset.sector
        cylinderLow := s.cfg.ataReset.cylinderLow, cylinderHigh := s.cfg.ataReset.cylinderHigh
        head := s.cfg.ataReset.head } ∧
      t.card = s.card ∧ t.env.files = s.env.files ∧ t.cfg = s.cfg ∧ t.result = .ok) ∧
    (∃ t : State, exec .mmcNew s = .next t ∧
      t.card = { t.card with
        slot := none, commandState := .waitingForCommand
        r1Status := if s.cfg.mmcResetIdle then 0x01 else 0x00
        dataCount := 0, rd := 0, wr := 0, eraseSequence := .closed
        cmd8Issued := false, cmd55Issued := false } ∧
      t.chan = s.chan ∧ t.env.files = s.env.files ∧ t.cfg = s.cfg ∧ t.result = .ok)

/-- ATA_INSERT inside the host duties: IoError, InvalidFormat, or a drive record with the fields of
the header; only the slot changes, and on an error nothing does (but for the answers of FileOK that
the opening took and the result handed back, the model's own fields: logs 8, 22, 25). That files are
one flat memory is the model's choice (log 11). Rests on the spec's own decisions D12, D24, D25, D27
(92_eei_decisions.md, log 16). -/
def Obligations.AtaInsertBuildsTheDrive : Prop :=
  ∀ (s : State) (u : DriveUnit) (image : Nat), dutiful (.ataInsert u image) s →
    (s.env.askTwice.1.2 = false →
      exec (.ataInsert u image) s = .next { s with env := s.env.askTwice.2, result := .error .ioError }) ∧
    (∀ header, header = s.env.fileBytes image 0 128 → s.env.askTwice.1.2 = true →
      (header.take 6 ≠ [0x52, 0x53, 0x2D, 0x49, 0x44, 0x45] ∨ header.getD 6 0 ≠ 0x1A →
        exec (.ataInsert u image) s =
          .next { s with env := s.env.askTwice.2, result := .error .invalidFormat }) ∧
      (header.take 6 = [0x52, 0x53, 0x2D, 0x49, 0x44, 0x45] → header.getD 6 0 = 0x1A →
        ∃ d : Drive,
          exec (.ataInsert u image) s = .next { s with
            chan := s.chan.setDrive u (some d), env := s.env.askTwice.2, result := .ok } ∧
          d.image = image ∧
          d.sectorSize = (if (header.getD 8 0).getLsbD 0 then .s256 else .s512) ∧
          d.dataOffset = (header.getD 9 0).toNat + 256 * (header.getD 10 0).toNat ∧
          (∀ k, k < 106 → byteAt d.identity k = header.getD (22 + k) 0) ∧
          d.cylinders = (header.getD 25 0 ++ header.getD 24 0) ∧
          d.heads = (header.getD 29 0 ++ header.getD 28 0) ∧
          d.sectors = (header.getD 35 0 ++ header.getD 34 0) ∧
          d.cache = [] ∧ d.status = s.cfg.ataReset.status ∧ d.error = s.cfg.ataReset.error))

/-- MMC_INSERT inside the host duties: as ATA_INSERT, with InsertRejected for a drive that is no
card; a card resets what R131 lists of the protocol state, and data_count as R51 has it; that every
other field of the card stays is an inference of the model (log 21). On an error nothing changes but
for the answers of FileOK that the opening took and the result handed back, the model's own fields
(logs 8, 22, 25); that files are one flat memory is the model's choice (log 11). Rests on the spec's
own decisions D24, D25, D35, D44, D46 (92_eei_decisions.md, log 16). -/
def Obligations.MmcInsertBuildsTheCard : Prop :=
  ∀ (s : State) (image : Nat), dutiful (.mmcInsert image) s →
    (s.env.askTwice.1.2 = false →
      exec (.mmcInsert image) s = .next { s with env := s.env.askTwice.2, result := .error .ioError }) ∧
    (∀ header d, header = s.env.fileBytes image 0 128 → d = driveOfHeader s.cfg image header →
      s.env.askTwice.1.2 = true →
      (header.take 6 ≠ [0x52, 0x53, 0x2D, 0x49, 0x44, 0x45] ∨ header.getD 6 0 ≠ 0x1A →
        exec (.mmcInsert image) s =
          .next { s with env := s.env.askTwice.2, result := .error .invalidFormat }) ∧
      (header.take 6 = [0x52, 0x53, 0x2D, 0x49, 0x44, 0x45] → header.getD 6 0 = 0x1A →
        (d.sectorSize ≠ .s512 ∨ d.total % 1024 ≠ 0 ∨ d.total = 0 →
          exec (.mmcInsert image) s =
            .next { s with env := s.env.askTwice.2, result := .error .insertRejected }) ∧
        (d.sectorSize = .s512 → d.total % 1024 = 0 → d.total ≠ 0 →
          exec (.mmcInsert image) s = .next { s with
            card := { s.card with
              slot := some { drive := d, totalSectors := d.total, cSize := d.total / 1024 - 1 }
              commandState := .waitingForCommand, dataCount := 0, rd := 0, wr := 0
              eraseSequence := .closed, cmd8Issued := false, cmd55Issued := false
              r1Status := if s.cfg.mmcResetIdle then 0x01 else 0x00 }
            env := s.env.askTwice.2
            result := .ok })))

/-- Eject inside the host duties empties the slot and changes nothing else, the image included:
cached entries are dropped unwritten. Dirty answers whether the cache has an entry and changes
nothing. The duties are those outside which the model refuses the call, its choice (log 13). Rests
on the spec's own decisions D27, D46 (92_eei_decisions.md, log 16). -/
def Obligations.EjectAndDirty : Prop :=
  ∀ s : State,
    (∀ u : DriveUnit, dutiful (.ataEject u) s →
      exec (.ataEject u) s =
        .next { s with chan := s.chan.setDrive u none, result := .nothing }) ∧
    (dutiful .mmcEject s →
      exec .mmcEject s = .next { s with card := { s.card with slot := none }, result := .nothing }) ∧
    (∀ (u : DriveUnit) (d : Drive), s.chan.drive u = some d →
      exec (.ataDirty u) s = .next { s with result := .flag (decide (d.cache ≠ [])) }) ∧
    (∀ m : Medium, s.card.slot = some m →
      exec .mmcDirty s = .next { s with result := .flag (decide (m.drive.cache ≠ [])) })

/-- Commit with every file operation succeeding: the cache is empty, each entry's bytes are at its
place in the image, every other byte of every file is as before (files as one flat memory: the
model's choice, log 11; so is how the answers of FileOK are taken, log 8). Rests on the spec's own
decision D29 (92_eei_decisions.md, log 16). -/
def Obligations.CommitWritesTheCache : Prop :=
  ∀ (s : State) (d : Drive), Mem.wf s.env.files = true → d.cacheOk →
    s.env.says (2 * d.cache.length) →
      ∃ e : Env,
        (∀ u : DriveUnit, s.chan.drive u = some d →
          exec (.ataCommit u) s = .next { s with
            chan := s.chan.setDrive u (some { d with cache := [] }), env := e, result := .nothing }) ∧
        (∀ m : Medium, s.card.slot = some m → m.drive = d →
          exec .mmcCommit s = .next { s with
            card := { s.card with slot := some { m with drive := { d with cache := [] } } }
            env := e, result := .nothing }) ∧
        (∀ entry ∈ d.cache, ∀ k, k < entry.2.length →
          readByte e.files (fileAddr d.image (d.sectorOffset entry.1) + k) = entry.2.getD k 0) ∧
        (∀ a, (∀ entry ∈ d.cache, ¬ inPackedSector d entry.1 a) →
          readByte e.files a = readByte s.env.files a)

/-- Commit whatever fails: every sector reads as before, no matter which file operations fail, in
which order the entries are visited and what a failed write leaves in the image; an entry leaves the
cache only by being written; no byte outside the cached sectors changes (what a failed write may
leave, and the order, are free: logs 9, 10; how the answers of FileOK are taken, and that files are
one flat memory, are the model's choices: logs 8, 11). Rests on the spec's own decision D29
(92_eei_decisions.md, log 16). -/
def Obligations.CommitKeepsEverySector : Prop :=
  ∀ (s : State) (d : Drive), Mem.wf s.env.files = true → d.cacheOk →
    ∃ (cache : Cache) (e : Env),
      (∀ u : DriveUnit, s.chan.drive u = some d →
        exec (.ataCommit u) s = .next { s with
          chan := s.chan.setDrive u (some { d with cache := cache }), env := e, result := .nothing }) ∧
      (∀ m : Medium, s.card.slot = some m → m.drive = d →
        exec .mmcCommit s = .next { s with
          card := { s.card with slot := some { m with drive := { d with cache := cache } } }
          env := e, result := .nothing }) ∧
      (∀ n, sectorOf { d with cache := cache } n e = sectorOf d n s.env) ∧
      (∀ n, cacheFind cache n = cacheFind d.cache n ∨
        (cacheFind cache n = none ∧ ∀ p, cacheFind d.cache n = some p →
          e.fileBytes d.image (d.sectorOffset n) d.sectorSize.bytes = p)) ∧
      (∀ a, (∀ entry ∈ d.cache, ¬ inPackedSector d entry.1 a) →
        readByte e.files a = readByte s.env.files a) ∧
      Mem.wf e.files = true

/-- Persistence: commit, eject, insert of the same image, no file operation failing, give back every
sector as it was, for a drive whose record agrees with its image's header and whose data lie behind
the header (an image whose data start inside the header is left out). That files are one flat
memory, and how the answers of FileOK are taken, are the model's choices (logs 8, 11). Rests on the
spec's own decision D29 (92_eei_decisions.md, log 16). -/
def Obligations.CommittedDataSurviveReinsertion : Prop :=
  ∀ (s : State) (u : DriveUnit) (d : Drive), s.chan.drive u = some d → s.chan.phase = .ready →
    s.card.holdsImage d.image = false → Mem.wf s.env.files = true → d.cacheOk →
    headerValid (s.env.fileBytes d.image 0 128) = true → 128 ≤ d.dataOffset →
    (∃ status error cache, d = { driveOfHeader s.cfg d.image (s.env.fileBytes d.image 0 128) with
      status := status, error := error, cache := cache }) →
    s.env.says (2 * d.cache.length + 2) →
      ∃ (t : State) (d' : Drive),
        runs [.ataCommit u, .ataEject u, .ataInsert u d.image] s =
          some ([.nothing, .nothing, .ok], t) ∧
        t.chan.drive u = some d' ∧ d'.cache = [] ∧ d'.total = d.total ∧
        ∀ n, sectorOf d' n t.env = sectorOf d n s.env

/-- Loss: eject without commit and insert of the same image give back what the image held. That
files are one flat memory, and how the answers of FileOK are taken, are the model's choices (logs 8,
11). Rests on the spec's own decision D27 (92_eei_decisions.md, log 16). -/
def Obligations.UncommittedDataAreLost : Prop :=
  ∀ (s : State) (u : DriveUnit) (d : Drive), s.chan.drive u = some d → s.chan.phase = .ready →
    s.card.holdsImage d.image = false → headerValid (s.env.fileBytes d.image 0 128) = true →
    (∃ status error cache, d = { driveOfHeader s.cfg d.image (s.env.fileBytes d.image 0 128) with
      status := status, error := error, cache := cache }) →
    s.env.says 2 →
      ∃ (t : State) (d' : Drive),
        runs [.ataEject u, .ataInsert u d.image] s = some ([.nothing, .ok], t) ∧
        t.chan.drive u = some d' ∧ t.env.files = s.env.files ∧
        ∀ n, sectorOf d' n t.env = sectorOf { d with cache := [] } n s.env

/-! ### The whole machine -/

/-- Every register access, command, SPI byte, frame and data block completes, in every state; a host
call completes exactly inside its host duties (that outside them it is refused is the model's
choice, which R141 recommends: logs 12, 13). Rests on the spec's own decisions D27, D46, D51
(92_eei_decisions.md, log 16). -/
def Obligations.OperationsCompleteWithinDuties : Prop :=
  ∀ (i : Instr) (s : State),
    ((isAtaAccess i = true ∨ isSpiAccess i = true) → ∃ t, exec i s = .next t) ∧
    (dutiful i s ↔ ∃ t, exec i s = .next t)

/-- Only commit changes a byte of an image. -/
def Obligations.ImagesChangeOnlyByCommit : Prop :=
  ∀ (i : Instr) (s t : State), exec i s = .next t → isCommit i = false →
    t.env.files = s.env.files

/-- A drive record's image, data offset, sector size, geometry and identity never change while the
drive stays in its slot; the card's two derived values neither (INITIALIZE DEVICE PARAMETERS as log
17 fixes it). Rests on the spec's own decision D22 (92_eei_decisions.md, log 16). -/
def Obligations.DriveRecordIsImmutable : Prop :=
  ∀ (i : Instr) (s t : State), exec i s = .next t →
    (∀ (u : DriveUnit) (d d' : Drive), s.chan.drive u = some d → t.chan.drive u = some d' →
      d' = { d with status := d'.status, error := d'.error, cache := d'.cache }) ∧
    (∀ m m' : Medium, s.card.slot = some m → t.card.slot = some m' →
      m' = { m with drive := { m.drive with cache := m'.drive.cache } })

/-- The two engines share no state: an ATA access leaves the card, an SPI access leaves the channel;
the drive that is not selected keeps everything through every ATA access; no operation changes the
parameters or the operations still waiting. Rests on the spec's own decision D51
(92_eei_decisions.md, log 16). -/
def Obligations.EnginesAreSeparate : Prop :=
  ∀ (i : Instr) (s t : State), exec i s = .next t →
    (isAtaAccess i = true → t.card = s.card ∧
      ∀ u, u ≠ s.chan.selected → t.chan.drive u = s.chan.drive u) ∧
    (isSpiAccess i = true → t.chan = s.chan) ∧
    t.cfg = s.cfg ∧ t.inbox = s.inbox

/-- Every step keeps the invariant of the machine: selected follows HEAD bit 4, the counters stay in
their ranges, BSY stays clear and DRDY set, cache keys stay below T(d) with entries of the packed
length, the erase bounds and the response cursors stay in order, the unused R1 bits stay clear,
memory stays canonical, and no image is behind both engines. That the last is kept because an insert
of such an image is refused is the model's choice (log 12); so are the two bytes of an image number
(log 3) and the form of MMC_WRITE_ERR_RESPONSE, whose length the invariant bounds (log 19). Rests on
the spec's own decisions D13, D51 (92_eei_decisions.md, log 16). -/
def Obligations.StepKeepsInvariant : Prop :=
  ∀ s t : State, s.Inv → step s = .next t → t.Inv

/-- The invariant holds after reset. That reset holds the default parameters is the model's choice
(log 6). Rests on the spec's own decisions D12, D35 (92_eei_decisions.md, log 16). -/
def Obligations.ResetMeetsInvariant : Prop := State.reset.Inv

/-- Inside the host duty of R337 every operation keeps the agreement of phase and DRQ: the selected
drive shows DRQ exactly while a transfer is open, the other drive never. Rests on the spec's own
decisions D9, D10, D21 (92_eei_decisions.md, log 16). -/
def Obligations.PhaseAndDrqStayTogether : Prop :=
  ∀ (i : Instr) (s t : State), s.Inv → s.chan.coherent → keepsSelection i s → exec i s = .next t →
    t.chan.coherent

/-- A transfer is left only as the state machine allows: no operation on the ATA registers goes from
PioIn to PioOut or back, and only a command opens a transfer. Rests on the spec's own decision D10
(92_eei_decisions.md, log 16). -/
def Obligations.PhaseEdges : Prop :=
  ∀ (i : Instr) (s t : State), exec i s = .next t →
    (s.chan.phase = .pioIn → t.chan.phase ≠ .pioOut) ∧
    (s.chan.phase = .pioOut → t.chan.phase ≠ .pioIn) ∧
    (s.chan.phase = .ready → t.chan.phase ≠ .ready →
      ∃ b, decodeAtaCmd b ∈ [Instr.readSectorRetry, .readSectorNoretry, .writeSectorRetry,
          .writeSectorNoretry, .identifyDriveAta, .identifyDriveAtapi] ∧
        (i = decodeAtaCmd b ∨ i = .ataWrCommand b))

end Obligations
end

