-- ==== Sys2Proof/Laws/State.lean ====
section
/-! SUPPORT. One lemma per field per update of the state records, so that no later proof unfolds an
update. -/

namespace Sys2Proof.Machine

/-! ### State.mapChan -/

@[simp] theorem State.mapChan_cfg (f : Channel → Channel) (s : State) : (s.mapChan f).cfg = s.cfg := rfl
@[simp] theorem State.mapChan_chan (f : Channel → Channel) (s : State) : (s.mapChan f).chan = f s.chan := rfl
@[simp] theorem State.mapChan_card (f : Channel → Channel) (s : State) : (s.mapChan f).card = s.card := rfl
@[simp] theorem State.mapChan_env (f : Channel → Channel) (s : State) : (s.mapChan f).env = s.env := rfl
@[simp] theorem State.mapChan_inbox (f : Channel → Channel) (s : State) : (s.mapChan f).inbox = s.inbox := rfl
@[simp] theorem State.mapChan_result (f : Channel → Channel) (s : State) : (s.mapChan f).result = s.result := rfl

/-! ### State.mapCard -/

@[simp] theorem State.mapCard_cfg (f : Card → Card) (s : State) : (s.mapCard f).cfg = s.cfg := rfl
@[simp] theorem State.mapCard_chan (f : Card → Card) (s : State) : (s.mapCard f).chan = s.chan := rfl
@[simp] theorem State.mapCard_card (f : Card → Card) (s : State) : (s.mapCard f).card = f s.card := rfl
@[simp] theorem State.mapCard_env (f : Card → Card) (s : State) : (s.mapCard f).env = s.env := rfl
@[simp] theorem State.mapCard_inbox (f : Card → Card) (s : State) : (s.mapCard f).inbox = s.inbox := rfl
@[simp] theorem State.mapCard_result (f : Card → Card) (s : State) : (s.mapCard f).result = s.result := rfl

/-! ### State.returns -/

@[simp] theorem State.returns_cfg (r : Result) (s : State) : (s.returns r).cfg = s.cfg := rfl
@[simp] theorem State.returns_chan (r : Result) (s : State) : (s.returns r).chan = s.chan := rfl
@[simp] theorem State.returns_card (r : Result) (s : State) : (s.returns r).card = s.card := rfl
@[simp] theorem State.returns_env (r : Result) (s : State) : (s.returns r).env = s.env := rfl
@[simp] theorem State.returns_inbox (r : Result) (s : State) : (s.returns r).inbox = s.inbox := rfl
@[simp] theorem State.returns_result (r : Result) (s : State) : (s.returns r).result = r := rfl

/-! ### Channel.setDrive and Channel.mapDrv -/

@[simp] theorem Channel.setDrive_databus (c : Channel) (u : DriveUnit) (d : Option Drive) :
    (c.setDrive u d).databus = c.databus := by cases u <;> rfl
@[simp] theorem Channel.setDrive_selected (c : Channel) (u : DriveUnit) (d : Option Drive) :
    (c.setDrive u d).selected = c.selected := by cases u <;> rfl
@[simp] theorem Channel.setDrive_feature (c : Channel) (u : DriveUnit) (d : Option Drive) :
    (c.setDrive u d).feature = c.feature := by cases u <;> rfl
@[simp] theorem Channel.setDrive_sectorCount (c : Channel) (u : DriveUnit) (d : Option Drive) :
    (c.setDrive u d).sectorCount = c.sectorCount := by cases u <;> rfl
@[simp] theorem Channel.setDrive_sector (c : Channel) (u : DriveUnit) (d : Option Drive) :
    (c.setDrive u d).sector = c.sector := by cases u <;> rfl
@[simp] theorem Channel.setDrive_cylinderLow (c : Channel) (u : DriveUnit) (d : Option Drive) :
    (c.setDrive u d).cylinderLow = c.cylinderLow := by cases u <;> rfl
@[simp] theorem Channel.setDrive_cylinderHigh (c : Channel) (u : DriveUnit) (d : Option Drive) :
    (c.setDrive u d).cylinderHigh = c.cylinderHigh := by cases u <;> rfl
@[simp] theorem Channel.setDrive_head (c : Channel) (u : DriveUnit) (d : Option Drive) :
    (c.setDrive u d).head = c.head := by cases u <;> rfl
@[simp] theorem Channel.setDrive_data2 (c : Channel) (u : DriveUnit) (d : Option Drive) :
    (c.setDrive u d).data2 = c.data2 := by cases u <;> rfl
@[simp] theorem Channel.setDrive_phase (c : Channel) (u : DriveUnit) (d : Option Drive) :
    (c.setDrive u d).phase = c.phase := by cases u <;> rfl
@[simp] theorem Channel.setDrive_datacounter (c : Channel) (u : DriveUnit) (d : Option Drive) :
    (c.setDrive u d).datacounter = c.datacounter := by cases u <;> rfl
@[simp] theorem Channel.setDrive_buffer (c : Channel) (u : DriveUnit) (d : Option Drive) :
    (c.setDrive u d).buffer = c.buffer := by cases u <;> rfl
@[simp] theorem Channel.mapDrv_databus (g : Drive → Drive) (c : Channel) :
    (c.mapDrv g).databus = c.databus := by simp [Channel.mapDrv]
@[simp] theorem Channel.mapDrv_selected (g : Drive → Drive) (c : Channel) :
    (c.mapDrv g).selected = c.selected := by simp [Channel.mapDrv]
@[simp] theorem Channel.mapDrv_feature (g : Drive → Drive) (c : Channel) :
    (c.mapDrv g).feature = c.feature := by simp [Channel.mapDrv]
@[simp] theorem Channel.mapDrv_sectorCount (g : Drive → Drive) (c : Channel) :
    (c.mapDrv g).sectorCount = c.sectorCount := by simp [Channel.mapDrv]
@[simp] theorem Channel.mapDrv_sector (g : Drive → Drive) (c : Channel) :
    (c.mapDrv g).sector = c.sector := by simp [Channel.mapDrv]
@[simp] theorem Channel.mapDrv_cylinderLow (g : Drive → Drive) (c : Channel) :
    (c.mapDrv g).cylinderLow = c.cylinderLow := by simp [Channel.mapDrv]
@[simp] theorem Channel.mapDrv_cylinderHigh (g : Drive → Drive) (c : Channel) :
    (c.mapDrv g).cylinderHigh = c.cylinderHigh := by simp [Channel.mapDrv]
@[simp] theorem Channel.mapDrv_head (g : Drive → Drive) (c : Channel) :
    (c.mapDrv g).head = c.head := by simp [Channel.mapDrv]
@[simp] theorem Channel.mapDrv_data2 (g : Drive → Drive) (c : Channel) :
    (c.mapDrv g).data2 = c.data2 := by simp [Channel.mapDrv]
@[simp] theorem Channel.mapDrv_phase (g : Drive → Drive) (c : Channel) :
    (c.mapDrv g).phase = c.phase := by simp [Channel.mapDrv]
@[simp] theorem Channel.mapDrv_datacounter (g : Drive → Drive) (c : Channel) :
    (c.mapDrv g).datacounter = c.datacounter := by simp [Channel.mapDrv]
@[simp] theorem Channel.mapDrv_buffer (g : Drive → Drive) (c : Channel) :
    (c.mapDrv g).buffer = c.buffer := by simp [Channel.mapDrv]

@[simp] theorem Channel.drive_setDrive_same (c : Channel) (u : DriveUnit) (d : Option Drive) :
    (c.setDrive u d).drive u = d := by cases u <;> rfl

theorem Channel.drive_setDrive_other (c : Channel) (u v : DriveUnit) (d : Option Drive) (h : v ≠ u) :
    (c.setDrive u d).drive v = c.drive v := by
  cases u <;> cases v <;> first | rfl | exact absurd rfl h

@[simp] theorem Channel.drv_mapDrv (g : Drive → Drive) (c : Channel) :
    (c.mapDrv g).drv = c.drv.map g := by simp [Channel.mapDrv, Channel.drv]

/-- Changing the selected drive changes no other slot. -/
theorem Channel.drive_mapDrv (g : Drive → Drive) (c : Channel) (u : DriveUnit) :
    (c.mapDrv g).drive u = if u = c.selected then (c.drive u).map g else c.drive u := by
  split
  · rename_i h; subst h; simp [Channel.mapDrv, Channel.drv]
  · rename_i h; simp [Channel.mapDrv, Channel.drive_setDrive_other _ _ _ _ h]

/-! ### endTransfer and openTransfer -/

@[simp] theorem endTransfer_databus (c : Channel) : (endTransfer c).databus = c.databus := by
  simp [endTransfer]
@[simp] theorem endTransfer_selected (c : Channel) : (endTransfer c).selected = c.selected := by
  simp [endTransfer]
@[simp] theorem endTransfer_feature (c : Channel) : (endTransfer c).feature = c.feature := by
  simp [endTransfer]
@[simp] theorem endTransfer_sectorCount (c : Channel) : (endTransfer c).sectorCount = c.sectorCount := by
  simp [endTransfer]
@[simp] theorem endTransfer_sector (c : Channel) : (endTransfer c).sector = c.sector := by
  simp [endTransfer]
@[simp] theorem endTransfer_cylinderLow (c : Channel) : (endTransfer c).cylinderLow = c.cylinderLow := by
  simp [endTransfer]
@[simp] theorem endTransfer_cylinderHigh (c : Channel) : (endTransfer c).cylinderHigh = c.cylinderHigh := by
  simp [endTransfer]
@[simp] theorem endTransfer_head (c : Channel) : (endTransfer c).head = c.head := by
  simp [endTransfer]
@[simp] theorem endTransfer_data2 (c : Channel) : (endTransfer c).data2 = c.data2 := by
  simp [endTransfer]
@[simp] theorem endTransfer_phase (c : Channel) : (endTransfer c).phase = .ready := rfl
@[simp] theorem endTransfer_datacounter (c : Channel) : (endTransfer c).datacounter = c.datacounter := by
  simp [endTransfer]
@[simp] theorem endTransfer_buffer (c : Channel) : (endTransfer c).buffer = c.buffer := by
  simp [endTransfer]

@[simp] theorem openTransfer_databus (p : Phase) (c : Channel) : (openTransfer p c).databus = c.databus := by
  simp [openTransfer]
@[simp] theorem openTransfer_selected (p : Phase) (c : Channel) : (openTransfer p c).selected = c.selected := by
  simp [openTransfer]
@[simp] theorem openTransfer_feature (p : Phase) (c : Channel) : (openTransfer p c).feature = c.feature := by
  simp [openTransfer]
@[simp] theorem openTransfer_sectorCount (p : Phase) (c : Channel) : (openTransfer p c).sectorCount = c.sectorCount := by
  simp [openTransfer]
@[simp] theorem openTransfer_sector (p : Phase) (c : Channel) : (openTransfer p c).sector = c.sector := by
  simp [openTransfer]
@[simp] theorem openTransfer_cylinderLow (p : Phase) (c : Channel) : (openTransfer p c).cylinderLow = c.cylinderLow := by
  simp [openTransfer]
@[simp] theorem openTransfer_cylinderHigh (p : Phase) (c : Channel) : (openTransfer p c).cylinderHigh = c.cylinderHigh := by
  simp [openTransfer]
@[simp] theorem openTransfer_head (p : Phase) (c : Channel) : (openTransfer p c).head = c.head := by
  simp [openTransfer]
@[simp] theorem openTransfer_data2 (p : Phase) (c : Channel) : (openTransfer p c).data2 = c.data2 := by
  simp [openTransfer]
@[simp] theorem openTransfer_phase (p : Phase) (c : Channel) : (openTransfer p c).phase = p := rfl
@[simp] theorem openTransfer_datacounter (p : Phase) (c : Channel) : (openTransfer p c).datacounter = 0 := rfl
@[simp] theorem openTransfer_buffer (p : Phase) (c : Channel) : (openTransfer p c).buffer = c.buffer := by
  simp [openTransfer]

/-! ### Card updates -/

@[simp] theorem respond_slot (l : List Byte) (c : Card) : (respond l c).slot = c.slot := rfl
@[simp] theorem respond_r1Status (l : List Byte) (c : Card) : (respond l c).r1Status = c.r1Status := rfl
@[simp] theorem respond_commandState (l : List Byte) (c : Card) : (respond l c).commandState = c.commandState := rfl
@[simp] theorem respond_currentCommand (l : List Byte) (c : Card) : (respond l c).currentCommand = c.currentCommand := rfl
@[simp] theorem respond_arg0 (l : List Byte) (c : Card) : (respond l c).arg0 = c.arg0 := rfl
@[simp] theorem respond_arg1 (l : List Byte) (c : Card) : (respond l c).arg1 = c.arg1 := rfl
@[simp] theorem respond_arg2 (l : List Byte) (c : Card) : (respond l c).arg2 = c.arg2 := rfl
@[simp] theorem respond_arg3 (l : List Byte) (c : Card) : (respond l c).arg3 = c.arg3 := rfl
@[simp] theorem respond_sendBuffer (l : List Byte) (c : Card) : (respond l c).sendBuffer = c.sendBuffer := rfl
@[simp] theorem respond_dataCount (l : List Byte) (c : Card) : (respond l c).dataCount = c.dataCount := rfl
@[simp] theorem respond_responseBuffer (l : List Byte) (c : Card) : (respond l c).responseBuffer = overlay l c.responseBuffer := rfl
@[simp] theorem respond_rd (l : List Byte) (c : Card) : (respond l c).rd = 0 := rfl
@[simp] theorem respond_wr (l : List Byte) (c : Card) : (respond l c).wr = l.length := rfl
@[simp] theorem respond_eraseSequence (l : List Byte) (c : Card) : (respond l c).eraseSequence = c.eraseSequence := rfl
@[simp] theorem respond_eraseStart (l : List Byte) (c : Card) : (respond l c).eraseStart = c.eraseStart := rfl
@[simp] theorem respond_eraseEnd (l : List Byte) (c : Card) : (respond l c).eraseEnd = c.eraseEnd := rfl
@[simp] theorem respond_cmd8Issued (l : List Byte) (c : Card) : (respond l c).cmd8Issued = c.cmd8Issued := rfl
@[simp] theorem respond_cmd55Issued (l : List Byte) (c : Card) : (respond l c).cmd55Issued = c.cmd55Issued := rfl
@[simp] theorem raiseR1_slot (bits : Byte) (c : Card) : (raiseR1 bits c).slot = c.slot := rfl
@[simp] theorem raiseR1_r1Status (bits : Byte) (c : Card) : (raiseR1 bits c).r1Status = c.r1Status ||| bits := rfl
@[simp] theorem raiseR1_commandState (bits : Byte) (c : Card) : (raiseR1 bits c).commandState = c.commandState := rfl
@[simp] theorem raiseR1_currentCommand (bits : Byte) (c : Card) : (raiseR1 bits c).currentCommand = c.currentCommand := rfl
@[simp] theorem raiseR1_arg0 (bits : Byte) (c : Card) : (raiseR1 bits c).arg0 = c.arg0 := rfl
@[simp] theorem raiseR1_arg1 (bits : Byte) (c : Card) : (raiseR1 bits c).arg1 = c.arg1 := rfl
@[simp] theorem raiseR1_arg2 (bits : Byte) (c : Card) : (raiseR1 bits c).arg2 = c.arg2 := rfl
@[simp] theorem raiseR1_arg3 (bits : Byte) (c : Card) : (raiseR1 bits c).arg3 = c.arg3 := rfl
@[simp] theorem raiseR1_sendBuffer (bits : Byte) (c : Card) : (raiseR1 bits c).sendBuffer = c.sendBuffer := rfl
@[simp] theorem raiseR1_dataCount (bits : Byte) (c : Card) : (raiseR1 bits c).dataCount = c.dataCount := rfl
@[simp] theorem raiseR1_responseBuffer (bits : Byte) (c : Card) : (raiseR1 bits c).responseBuffer = c.responseBuffer := rfl
@[simp] theorem raiseR1_rd (bits : Byte) (c : Card) : (raiseR1 bits c).rd = c.rd := rfl
@[simp] theorem raiseR1_wr (bits : Byte) (c : Card) : (raiseR1 bits c).wr = c.wr := rfl
@[simp] theorem raiseR1_eraseSequence (bits : Byte) (c : Card) : (raiseR1 bits c).eraseSequence = c.eraseSequence := rfl
@[simp] theorem raiseR1_eraseStart (bits : Byte) (c : Card) : (raiseR1 bits c).eraseStart = c.eraseStart := rfl
@[simp] theorem raiseR1_eraseEnd (bits : Byte) (c : Card) : (raiseR1 bits c).eraseEnd = c.eraseEnd := rfl
@[simp] theorem raiseR1_cmd8Issued (bits : Byte) (c : Card) : (raiseR1 bits c).cmd8Issued = c.cmd8Issued := rfl
@[simp] theorem raiseR1_cmd55Issued (bits : Byte) (c : Card) : (raiseR1 bits c).cmd55Issued = c.cmd55Issued := rfl

/-! ### Drive updates -/

@[simp] theorem memWrite_image (d : Drive) (n : Nat) (v : Sector) : (memWrite d n v).image = d.image := rfl
@[simp] theorem memWrite_dataOffset (d : Drive) (n : Nat) (v : Sector) : (memWrite d n v).dataOffset = d.dataOffset := rfl
@[simp] theorem memWrite_sectorSize (d : Drive) (n : Nat) (v : Sector) : (memWrite d n v).sectorSize = d.sectorSize := rfl
@[simp] theorem memWrite_cylinders (d : Drive) (n : Nat) (v : Sector) : (memWrite d n v).cylinders = d.cylinders := rfl
@[simp] theorem memWrite_heads (d : Drive) (n : Nat) (v : Sector) : (memWrite d n v).heads = d.heads := rfl
@[simp] theorem memWrite_sectors (d : Drive) (n : Nat) (v : Sector) : (memWrite d n v).sectors = d.sectors := rfl
@[simp] theorem memWrite_identity (d : Drive) (n : Nat) (v : Sector) : (memWrite d n v).identity = d.identity := rfl
@[simp] theorem memWrite_error (d : Drive) (n : Nat) (v : Sector) : (memWrite d n v).error = d.error := rfl
@[simp] theorem memWrite_status (d : Drive) (n : Nat) (v : Sector) : (memWrite d n v).status = d.status := rfl
@[simp] theorem memWrite_cache (d : Drive) (n : Nat) (v : Sector) : (memWrite d n v).cache = cacheUpsert d.cache n (pack d.sectorSize v) := rfl
@[simp] theorem recordError_image (code : Byte) (d : Drive) : (recordError code d).image = d.image := rfl
@[simp] theorem recordError_dataOffset (code : Byte) (d : Drive) : (recordError code d).dataOffset = d.dataOffset := rfl
@[simp] theorem recordError_sectorSize (code : Byte) (d : Drive) : (recordError code d).sectorSize = d.sectorSize := rfl
@[simp] theorem recordError_cylinders (code : Byte) (d : Drive) : (recordError code d).cylinders = d.cylinders := rfl
@[simp] theorem recordError_heads (code : Byte) (d : Drive) : (recordError code d).heads = d.heads := rfl
@[simp] theorem recordError_sectors (code : Byte) (d : Drive) : (recordError code d).sectors = d.sectors := rfl
@[simp] theorem recordError_identity (code : Byte) (d : Drive) : (recordError code d).identity = d.identity := rfl
@[simp] theorem recordError_error (code : Byte) (d : Drive) : (recordError code d).error = code := rfl
@[simp] theorem recordError_status (code : Byte) (d : Drive) : (recordError code d).status = setErr d.status := rfl
@[simp] theorem recordError_cache (code : Byte) (d : Drive) : (recordError code d).cache = d.cache := rfl
@[simp] theorem preambleDrive_image (d : Drive) : (preambleDrive d).image = d.image := rfl
@[simp] theorem preambleDrive_dataOffset (d : Drive) : (preambleDrive d).dataOffset = d.dataOffset := rfl
@[simp] theorem preambleDrive_sectorSize (d : Drive) : (preambleDrive d).sectorSize = d.sectorSize := rfl
@[simp] theorem preambleDrive_cylinders (d : Drive) : (preambleDrive d).cylinders = d.cylinders := rfl
@[simp] theorem preambleDrive_heads (d : Drive) : (preambleDrive d).heads = d.heads := rfl
@[simp] theorem preambleDrive_sectors (d : Drive) : (preambleDrive d).sectors = d.sectors := rfl
@[simp] theorem preambleDrive_identity (d : Drive) : (preambleDrive d).identity = d.identity := rfl
@[simp] theorem preambleDrive_error (d : Drive) : (preambleDrive d).error = 0x00 := rfl
@[simp] theorem preambleDrive_status (d : Drive) : (preambleDrive d).status = preambleStatus d.status := rfl
@[simp] theorem preambleDrive_cache (d : Drive) : (preambleDrive d).cache = d.cache := rfl

end Sys2Proof.Machine
end

