-- ==== Sys2Proof/Laws/Memory.lean ====
section
/-! SUPPORT. Sparse memory: reading after writing, and the canonical form. -/

namespace Sys2Proof.Machine

theorem Mem.wf_cons {a : Nat} {b : Byte} {rest : Mem} :
    Mem.wf ((a, b) :: rest) = true ↔
      b ≠ unlistedByte ∧ Mem.above a rest = true ∧ Mem.wf rest = true := by
  simp [Mem.wf, and_assoc]

/-- Below every listed address nothing is listed. -/
theorem readByte_above {m : Mem} {x y : Nat} (h : Mem.above x m = true) (hy : y ≤ x) :
    readByte m y = unlistedByte := by
  cases m with
  | nil => rfl
  | cons head rest =>
    simp only [Mem.above, decide_eq_true_eq] at h
    have h1 : ¬ y = head.1 := by omega
    have h2 : y < head.1 := by omega
    simp [readByte, h1, h2]

theorem readByte_consByte {x : Nat} {v : Byte} {m : Mem} {y : Nat} (h : Mem.above x m = true) :
    readByte (consByte x v m) y = if y = x then v else readByte m y := by
  unfold consByte
  split
  · rename_i hv
    split
    · rename_i hy; rw [hv, readByte_above h (by omega)]
    · rfl
  · rw [readByte]
    split
    · rfl
    · split
      · rename_i hlt; exact (readByte_above h (by omega)).symm
      · rfl

theorem above_trans {m : Mem} {x y : Nat} (h : Mem.above y m = true) (hxy : x ≤ y) :
    Mem.above x m = true := by
  cases m with
  | nil => rfl
  | cons head rest => simp only [Mem.above, decide_eq_true_eq] at h ⊢; omega

theorem above_rest {a x : Nat} {b : Byte} {rest : Mem} (h : Mem.wf ((a, b) :: rest) = true)
    (hx : x ≤ a) : Mem.above x rest = true :=
  above_trans (Mem.wf_cons.mp h).2.1 hx

theorem above_consByte {a x : Nat} {v : Byte} {m : Mem} (h : Mem.above a m = true) (hx : a < x) :
    Mem.above a (consByte x v m) = true := by
  unfold consByte
  split
  · exact h
  · simp [Mem.above, hx]

theorem wf_consByte {x : Nat} {v : Byte} {m : Mem} (h : Mem.wf m = true)
    (ha : Mem.above x m = true) : Mem.wf (consByte x v m) = true := by
  unfold consByte
  split
  · exact h
  · rename_i hv; exact Mem.wf_cons.mpr ⟨hv, ha, h⟩

/-- A write changes the byte at its address and no other. -/
theorem readByte_writeByte {m : Mem} (h : Mem.wf m = true) (x : Nat) (v : Byte) (y : Nat) :
    readByte (writeByte m x v) y = if y = x then v else readByte m y := by
  induction m with
  | nil => simpa [writeByte] using readByte_consByte (m := []) (y := y) rfl
  | cons head rest ih =>
    obtain ⟨a, b⟩ := head
    have hrest := (Mem.wf_cons.mp h).2.2
    unfold writeByte
    split
    · rename_i hlt
      exact readByte_consByte (by simp [Mem.above, hlt])
    · split
      · rename_i _ heq
        subst heq
        rw [readByte_consByte (Mem.wf_cons.mp h).2.1]
        split
        · rfl
        · rename_i hy
          rw [readByte, if_neg hy]
          split
          · rename_i hlt
            exact readByte_above (Mem.wf_cons.mp h).2.1 (by omega)
          · rfl
      · rename_i hge hne
        have hax : a < x := by omega
        rw [readByte, readByte, ih hrest]
        by_cases h1 : y = a
        · subst h1; simp; omega
        · simp only [if_neg h1]
          by_cases h2 : y < a
          · simp only [if_pos h2]; split
            · omega
            · rfl
          · simp only [if_neg h2]

theorem above_writeByte {m : Mem} {a x : Nat} {v : Byte} (ha : Mem.above a m = true) (hx : a < x)
    (h : Mem.wf m = true) : Mem.above a (writeByte m x v) = true := by
  cases m with
  | nil => exact above_consByte rfl hx
  | cons head rest =>
    obtain ⟨c, b⟩ := head
    unfold writeByte
    split
    · exact above_consByte ha hx
    · split
      · rename_i _ heq
        subst heq
        exact above_consByte (above_rest h (by simp only [Mem.above, decide_eq_true_eq] at ha; omega)) hx
      · exact ha

/-- A write keeps the canonical form. -/
theorem wf_writeByte {m : Mem} (h : Mem.wf m = true) (x : Nat) (v : Byte) :
    Mem.wf (writeByte m x v) = true := by
  induction m with
  | nil => exact wf_consByte rfl rfl
  | cons head rest ih =>
    obtain ⟨a, b⟩ := head
    obtain ⟨hb, ha, hr⟩ := Mem.wf_cons.mp h
    unfold writeByte
    split
    · rename_i hlt; exact wf_consByte h (by simp [Mem.above, hlt])
    · split
      · rename_i _ heq; subst heq; exact wf_consByte hr ha
      · exact Mem.wf_cons.mpr ⟨hb, above_writeByte ha (by omega) hr, ih hr⟩

/-- Storing bytes keeps the canonical form. -/
theorem wf_writeBytes {m : Mem} (h : Mem.wf m = true) (x : Nat) (l : List Byte) :
    Mem.wf (writeBytes m x l) = true := by
  induction l generalizing m x with
  | nil => exact h
  | cons b bs ih => exact ih (wf_writeByte h x b) (x + 1)

/-- Storing bytes changes exactly the bytes stored to. -/
theorem readByte_writeBytes {m : Mem} (h : Mem.wf m = true) (x : Nat) (l : List Byte) (y : Nat) :
    readByte (writeBytes m x l) y =
      if x ≤ y ∧ y < x + l.length then l.getD (y - x) 0 else readByte m y := by
  induction l generalizing m x with
  | nil => simp [writeBytes]
  | cons b bs ih =>
    rw [writeBytes, ih (wf_writeByte h x b) (x + 1), readByte_writeByte h]
    by_cases h1 : y = x
    · subst h1; simp
    · by_cases h2 : x + 1 ≤ y ∧ y < x + 1 + bs.length
      · rw [if_pos h2, if_pos (by simp; omega)]
        obtain ⟨k, rfl⟩ : ∃ k, y = x + 1 + k := ⟨y - (x + 1), by omega⟩
        simp [show x + 1 + k - x = k + 1 by omega]
      · rw [if_neg h2, if_neg h1, if_neg (by simp; omega)]

@[simp] theorem readBytes_length (m : Mem) (x n : Nat) : (readBytes m x n).length = n := by
  simp [readBytes]

theorem readBytes_getD (m : Mem) (x n i : Nat) (hi : i < n) :
    (readBytes m x n).getD i 0 = readByte m (x + i) := by
  simp [readBytes, hi]

/-- Two canonical memories that read alike are the same list. -/
theorem Mem.ext {m m' : Mem} (h : Mem.wf m = true) (h' : Mem.wf m' = true)
    (hr : ∀ x, readByte m x = readByte m' x) : m = m' := by
  induction m generalizing m' with
  | nil =>
    cases m' with
    | nil => rfl
    | cons head rest =>
      obtain ⟨a, b⟩ := head
      have := hr a
      simp [readByte] at this
      exact absurd this.symm (Mem.wf_cons.mp h').1
  | cons head rest ih =>
    obtain ⟨a, b⟩ := head
    obtain ⟨hb, ha, hrest⟩ := Mem.wf_cons.mp h
    cases m' with
    | nil =>
      have := hr a
      simp [readByte] at this
      exact absurd this hb
    | cons head' rest' =>
      obtain ⟨a', b'⟩ := head'
      obtain ⟨hb', ha', hrest'⟩ := Mem.wf_cons.mp h'
      have e1 := hr a
      have e2 := hr a'
      have haa : a = a' := by
        rcases Nat.lt_trichotomy a a' with hlt | heq | hgt
        · have : ¬ a = a' := by omega
          simp [readByte, this, hlt] at e1
          exact absurd e1 hb
        · exact heq
        · have : ¬ a' = a := by omega
          simp [readByte, this, hgt] at e2
          exact absurd e2.symm hb'
      subst haa
      have hbb : b = b' := by simpa [readByte] using e1
      subst hbb
      congr 1
      apply ih hrest hrest'
      intro x
      by_cases hx : x ≤ a
      · rw [readByte_above ha hx, readByte_above ha' hx]
      · have := hr x
        have h1 : ¬ x = a := by omega
        have h2 : ¬ x < a := by omega
        simpa [readByte, h1, h2] using this

end Sys2Proof.Machine
end

