-- ==== Sys2Proof/Laws/Store.lean ====
section
/-! SUPPORT. The cache, packing, the file oracle, the two sector primitives and commit: what each
can do. -/

namespace Sys2Proof.Machine

/-! ### The cache -/

theorem cacheFind_upsert (c : Cache) (n : Nat) (p : List Byte) (k : Nat) :
    cacheFind (cacheUpsert c n p) k = if k = n then some p else cacheFind c k := by
  induction c with
  | nil => simp [cacheUpsert, cacheFind]
  | cons head rest ih =>
    obtain ⟨a, q⟩ := head
    unfold cacheUpsert
    split
    · rw [cacheFind]
    · split
      · rename_i _ h; subst h; simp only [cacheFind]; split <;> rfl
      · rename_i _ h
        simp only [cacheFind, ih]
        by_cases hk : k = a
        · subst hk; rw [if_pos rfl, if_pos rfl, if_neg (fun h' => h h'.symm)]
        · simp only [if_neg hk]

theorem mem_cacheUpsert {c : Cache} {n : Nat} {p : List Byte} {x : Nat × List Byte}
    (h : x ∈ cacheUpsert c n p) : x = (n, p) ∨ x ∈ c := by
  induction c with
  | nil => simpa [cacheUpsert] using h
  | cons head rest ih =>
    unfold cacheUpsert at h
    split at h
    · simpa using h
    · split at h
      · rcases List.mem_cons.mp h with h | h
        · exact .inl h
        · exact .inr (List.mem_cons_of_mem _ h)
      · rcases List.mem_cons.mp h with h | h
        · exact .inr (h ▸ List.mem_cons_self)
        · rcases ih h with h | h
          · exact .inl h
          · exact .inr (List.mem_cons_of_mem _ h)

/-- All keys of a cache are above a number. -/
theorem cacheRising_cons {x : Nat × List Byte} {c : Cache} :
    cacheRising (x :: c) = true ↔ (∀ y ∈ c, x.1 < y.1) ∧ cacheRising c = true := by
  induction c generalizing x with
  | nil => simp [cacheRising]
  | cons y rest ih =>
    rw [cacheRising, Bool.and_eq_true, decide_eq_true_eq]
    constructor
    · rintro ⟨h1, h2⟩
      refine ⟨?_, h2⟩
      intro z hz
      rcases List.mem_cons.mp hz with rfl | hz
      · exact h1
      · exact Nat.lt_trans h1 ((ih.mp h2).1 z hz)
    · rintro ⟨h1, h2⟩
      exact ⟨h1 y List.mem_cons_self, h2⟩

theorem cacheRising_upsert {c : Cache} (h : cacheRising c = true) (n : Nat) (p : List Byte) :
    cacheRising (cacheUpsert c n p) = true := by
  induction c with
  | nil => rfl
  | cons head rest ih =>
    obtain ⟨h1, h2⟩ := cacheRising_cons.mp h
    unfold cacheUpsert
    split
    · rename_i hlt
      refine cacheRising_cons.mpr ⟨?_, h⟩
      intro y hy
      rcases List.mem_cons.mp hy with rfl | hy
      · exact hlt
      · exact Nat.lt_trans hlt (h1 y hy)
    · split
      · rename_i _ heq
        subst heq
        exact cacheRising_cons.mpr ⟨h1, h2⟩
      · rename_i hge hne
        refine cacheRising_cons.mpr ⟨?_, ih h2⟩
        intro y hy
        rcases mem_cacheUpsert hy with rfl | hy
        · simp; omega
        · exact h1 y hy

theorem mem_cacheErase {c : Cache} {n : Nat} {x : Nat × List Byte} (h : x ∈ cacheErase c n) :
    x ∈ c := by
  induction c with
  | nil => exact h
  | cons head rest ih =>
    unfold cacheErase at h
    split at h
    · exact List.mem_cons_of_mem _ h
    · rcases List.mem_cons.mp h with h | h
      · exact h ▸ List.mem_cons_self
      · exact List.mem_cons_of_mem _ (ih h)

theorem cacheRising_erase {c : Cache} (h : cacheRising c = true) (n : Nat) :
    cacheRising (cacheErase c n) = true := by
  induction c with
  | nil => rfl
  | cons head rest ih =>
    obtain ⟨h1, h2⟩ := cacheRising_cons.mp h
    unfold cacheErase
    split
    · exact h2
    · exact cacheRising_cons.mpr ⟨fun y hy => h1 y (mem_cacheErase hy), ih h2⟩

theorem cacheFind_none {c : Cache} {n : Nat} (h : ∀ y ∈ c, y.1 ≠ n) : cacheFind c n = none := by
  induction c with
  | nil => rfl
  | cons head rest ih =>
    rw [cacheFind, if_neg (fun e => h head List.mem_cons_self e.symm)]
    exact ih fun y hy => h y (List.mem_cons_of_mem _ hy)

theorem cacheFind_erase {c : Cache} (h : cacheRising c = true) (n k : Nat) :
    cacheFind (cacheErase c n) k = if k = n then none else cacheFind c k := by
  induction c with
  | nil => simp [cacheErase, cacheFind]
  | cons head rest ih =>
    obtain ⟨a, q⟩ := head
    obtain ⟨h1, h2⟩ := cacheRising_cons.mp h
    unfold cacheErase
    split
    · rename_i heq
      subst heq
      by_cases hk : k = n
      · subst hk
        rw [if_pos rfl]
        exact cacheFind_none fun y hy e => by have := h1 y hy; simp at this; omega
      · simp [cacheFind, hk]
    · rename_i hne
      simp only [cacheFind, ih h2]
      by_cases hk : k = a
      · subst hk; rw [if_pos rfl, if_pos rfl, if_neg (fun e => hne e.symm)]
      · simp only [if_neg hk]

theorem mem_of_cacheFind {c : Cache} {n : Nat} {p : List Byte} (h : cacheFind c n = some p) :
    (n, p) ∈ c := by
  induction c with
  | nil => cases h
  | cons head rest ih =>
    rw [cacheFind] at h
    split at h
    · rename_i heq
      cases h
      subst heq
      exact List.mem_cons_self
    · exact List.mem_cons_of_mem _ (ih h)

theorem cacheFind_of_mem {c : Cache} (hr : cacheRising c = true) {n : Nat} {p : List Byte}
    (h : (n, p) ∈ c) : cacheFind c n = some p := by
  induction c with
  | nil => cases h
  | cons head rest ih =>
    obtain ⟨h1, h2⟩ := cacheRising_cons.mp hr
    rcases List.mem_cons.mp h with rfl | h
    · simp [cacheFind]
    · have := h1 _ h
      rw [cacheFind, if_neg (by simp at this; omega)]
      exact ih h2 h

/-! ### Blocks and packing -/

theorem padTo_getD (n : Nat) (l : List Byte) (i : Nat) (hi : i < n) :
    (padTo n l).getD i 0 = l.getD i 0 := by
  induction n generalizing l i with
  | zero => omega
  | succ n ih =>
    cases l with
    | nil =>
      cases i with
      | zero => rfl
      | succ i => simpa [padTo] using ih [] i (by omega)
    | cons b bs =>
      cases i with
      | zero => rfl
      | succ i => simpa [padTo] using ih bs i (by omega)

theorem padTo_of_length (l : List Byte) : padTo l.length l = l := by
  induction l with
  | nil => rfl
  | cons b bs ih => simp [padTo, ih]

@[simp] theorem blockOf_toList (n : Nat) (l : List Byte) : (blockOf n l).toList = padTo n l := rfl

theorem byteAt_eq {n : Nat} (v : Vector Byte n) (i : Nat) : byteAt v i = v.toList.getD i 0 := by
  simp [byteAt]

/-- Byte i of a block made from a list. -/
theorem byteAt_blockOf (n : Nat) (l : List Byte) (i : Nat) (hi : i < n) :
    byteAt (blockOf n l) i = l.getD i 0 := by
  rw [byteAt_eq, blockOf_toList, padTo_getD n l i hi]

@[simp] theorem blockOf_toList_self {n : Nat} (v : Vector Byte n) : blockOf n v.toList = v := by
  apply Vector.toList_inj.mp
  have h := padTo_of_length v.toList
  rw [Vector.length_toList] at h
  rw [blockOf_toList, h]

theorem byteAt_setByte {n : Nat} (v : Vector Byte n) (i : Nat) (b : Byte) (j : Nat) (hi : i < n) :
    byteAt (setByte v i b) j = if j = i then b else byteAt v j := by
  simp only [byteAt, setByte, Vector.getElem?_setIfInBounds]
  by_cases h : j = i
  · subst h; simp [hi]
  · have h' : ¬ i = j := fun e => h e.symm
    simp [h, h']

theorem everyOther_length (l : List Byte) : (everyOther l).length = (l.length + 1) / 2 := by
  induction l using everyOther.induct with
  | case1 => rfl
  | case2 b => simp [everyOther]
  | case3 b c rest ih => simp [everyOther, ih]; omega

theorem everyOther_getD (l : List Byte) (i : Nat) : (everyOther l).getD i 0 = l.getD (2 * i) 0 := by
  induction l using everyOther.induct generalizing i with
  | case1 => simp [everyOther]
  | case2 b => cases i <;> simp [everyOther, Nat.mul_add]
  | case3 b c rest ih =>
    cases i with
    | zero => rfl
    | succ i => simpa [everyOther, Nat.mul_add] using ih i

theorem interleaveFF_even (l : List Byte) (i : Nat) :
    (interleaveFF l).getD (2 * i) 0 = l.getD i 0 := by
  induction l generalizing i with
  | nil => rfl
  | cons b bs ih =>
    cases i with
    | zero => rfl
    | succ i => simpa [interleaveFF, Nat.mul_add] using ih i

theorem interleaveFF_odd (l : List Byte) (i : Nat) (hi : i < l.length) :
    (interleaveFF l).getD (2 * i + 1) 0 = 0xFF := by
  induction l generalizing i with
  | nil => simp at hi
  | cons b bs ih =>
    cases i with
    | zero => rfl
    | succ i => simpa [interleaveFF, Nat.mul_add] using ih i (by simpa using hi)

/-- A packed sector has the bytes its size says. -/
@[simp] theorem pack_length (size : SectorSize) (v : Sector) : (pack size v).length = size.bytes := by
  cases size
  · simp [pack, everyOther_length, SectorSize.bytes]
  · simp [pack, SectorSize.bytes]

/-- Byte i of an unpacked sector (R134). -/
theorem byteAt_unpack (size : SectorSize) (p : List Byte) (i : Nat) (hi : i < 512)
    (hp : p.length = size.bytes) :
    byteAt (unpack size p) i =
      match size with
      | .s512 => p.getD i 0
      | .s256 => if i % 2 = 0 then p.getD (i / 2) 0 else 0xFF := by
  cases size with
  | s512 => exact byteAt_blockOf 512 p i hi
  | s256 =>
    simp only [unpack]
    rw [byteAt_blockOf 512 _ i hi]
    simp only [SectorSize.bytes] at hp
    by_cases he : i % 2 = 0
    · rw [if_pos he]
      have := interleaveFF_even p (i / 2)
      rwa [show 2 * (i / 2) = i by omega] at this
    · rw [if_neg he]
      have := interleaveFF_odd p (i / 2) (by omega)
      rwa [show 2 * (i / 2) + 1 = i by omega] at this

/-- A 512-byte sector survives packing. -/
@[simp] theorem unpack_pack_s512 (v : Sector) : unpack .s512 (pack .s512 v) = v := by
  simp [unpack, pack]

/-- What packing and unpacking leave of a sector (R136). -/
theorem byteAt_unpack_pack (size : SectorSize) (v : Sector) (i : Nat) (hi : i < 512) :
    byteAt (unpack size (pack size v)) i =
      match size with
      | .s512 => byteAt v i
      | .s256 => if i % 2 = 0 then byteAt v i else 0xFF := by
  rw [byteAt_unpack size _ i hi (pack_length size v)]
  cases size with
  | s512 => rw [byteAt_eq]; rfl
  | s256 =>
    simp only [pack, everyOther_getD]
    by_cases he : i % 2 = 0
    · rw [if_pos he, if_pos he, byteAt_eq, show 2 * (i / 2) = i by omega]
    · rw [if_neg he, if_neg he]

/-! ### The file oracle -/

@[simp] theorem Env.ask_files (e : Env) : e.ask.2.files = e.files := by
  unfold Env.ask; split <;> rfl

@[simp] theorem Env.ask_freeUsed (e : Env) : e.ask.2.freeUsed = e.freeUsed := by
  unfold Env.ask; split <;> rfl

/-- Asking the oracle touches no file. -/
@[simp] theorem Env.askTwice_files (e : Env) : e.askTwice.2.files = e.files := by
  unfold Env.askTwice; split <;> simp

@[simp] theorem Env.askTwice_freeUsed (e : Env) : e.askTwice.2.freeUsed = e.freeUsed := by
  unfold Env.askTwice; split <;> simp

/-- The second of two file operations succeeds only if the first did. -/
theorem Env.askTwice_first {e : Env} (h : e.askTwice.1.2 = true) : e.askTwice.1.1 = true := by
  unfold Env.askTwice at *; split at h <;> simp_all

/-- With two yes answers at the front of the script both operations succeed and use them up. -/
theorem Env.askTwice_script (e : Env) (rest : List Bool) (h : e.fileScript = true :: true :: rest) :
    e.askTwice = ((true, true), { e with fileScript := rest }) := by
  simp [Env.askTwice, Env.ask, h]

@[simp] theorem Env.fileBytes_askTwice (e : Env) (image offset n : Nat) :
    e.askTwice.2.fileBytes image offset n = e.fileBytes image offset n := by
  simp [Env.fileBytes]

@[simp] theorem Env.fileBytes_length (e : Env) (image offset n : Nat) :
    (e.fileBytes image offset n).length = n := by
  simp [Env.fileBytes]

/-! ### MemRead and MemWrite -/

/-- A hit reads the cache and asks nothing. -/
theorem memRead_hit {d : Drive} {n : Nat} {e : Env} {p : List Byte} (h : cacheFind d.cache n = some p) :
    memRead d n e = (some (sectorOf d n e), e) := by
  simp [memRead, sectorOf, h]

/-- A miss gives the sector of the image, or fails. -/
theorem memRead_miss {d : Drive} {n : Nat} {e : Env} (h : cacheFind d.cache n = none) :
    memRead d n e = (if e.askTwice.1.2 then some (sectorOf d n e) else none, e.askTwice.2) := by
  simp only [memRead, sectorOf, h]; split <;> rfl

/-- Everything a store read can do: answer the sector, or fail on a miss; no file changes. -/
theorem memRead_cases (d : Drive) (n : Nat) (e : Env) :
    ((memRead d n e).1 = some (sectorOf d n e) ∨
      ((memRead d n e).1 = none ∧ cacheFind d.cache n = none)) ∧
    (memRead d n e).2.files = e.files ∧ (memRead d n e).2.freeUsed = e.freeUsed := by
  cases h : cacheFind d.cache n with
  | some p => simp [memRead_hit h]
  | none =>
    rw [memRead_miss h]
    by_cases h2 : e.askTwice.1.2 = true <;> simp [h2]

@[simp] theorem memWrite_total (d : Drive) (n : Nat) (v : Sector) : (memWrite d n v).total = d.total := rfl

/-- A write to a valid sector keeps the cache in order (R140). -/
theorem memWrite_cacheOk {d : Drive} (h : d.cacheOk) {n : Nat} (hn : n < d.total) (v : Sector) :
    (memWrite d n v).cacheOk := by
  refine ⟨cacheRising_upsert h.1 n _, ?_⟩
  intro x hx
  rcases mem_cacheUpsert hx with rfl | hx
  · exact ⟨hn, pack_length _ _⟩
  · exact h.2 x hx

theorem memWrite_ok {d : Drive} (h : d.ok) {n : Nat} (hn : n < d.total) (v : Sector) :
    (memWrite d n v).ok :=
  ⟨memWrite_cacheOk h.1 hn v, h.2⟩

/-- Reading after writing (R139): the written sector is what packing leaves of the data, every other
sector is as before. -/
theorem sectorOf_memWrite (d : Drive) (n : Nat) (v : Sector) (k : Nat) (e : Env) :
    sectorOf (memWrite d n v) k e =
      if k = n then unpack d.sectorSize (pack d.sectorSize v) else sectorOf d k e := by
  by_cases h : k = n
  · subst h
    simp [sectorOf, cacheFind_upsert]
  · rw [if_neg h]
    simp only [sectorOf, memWrite_cache, cacheFind_upsert, if_neg h]
    rfl

/-! ### Commit -/

theorem insertRanked_perm (rank : Nat → Nat) (x : Nat × List Byte) (l : List (Nat × List Byte)) :
    (insertRanked rank x l).Perm (x :: l) := by
  induction l with
  | nil => exact .refl _
  | cons y rest ih =>
    unfold insertRanked
    split
    · exact .refl _
    · exact (ih.cons y).trans (.swap x y rest)

/-- A commit visits every entry once, in some order. -/
theorem commitOrder_perm (rank : Nat → Nat) (c : Cache) : (commitOrder rank c).Perm c := by
  induction c with
  | nil => exact .refl _
  | cons x rest ih => exact (insertRanked_perm rank x _).trans (ih.cons x)

/-- What one entry of a commit leaves alone: the drive but for its cache, of which it keeps a part;
every byte outside the entry's place in the image; the canonical form. -/
theorem commitEntry_frame (de : Drive × Env) (x : Nat × List Byte)
    (hwf : Mem.wf de.2.files = true) :
    (∃ c, (commitEntry de x).1 = { de.1 with cache := c } ∧
      (c = de.1.cache ∨ c = cacheErase de.1.cache x.1)) ∧
    Mem.wf (commitEntry de x).2.files = true ∧
    ∀ a, ¬ (entryAddr de.1 x ≤ a ∧ a < entryAddr de.1 x + x.2.length) →
      readByte (commitEntry de x).2.files a = readByte de.2.files a := by
  unfold commitEntry
  split
  · split
    · refine ⟨⟨_, rfl, .inr rfl⟩, ?_, ?_⟩
      · simpa [commitWritten] using wf_writeBytes hwf _ _
      · intro a ha
        simp only [commitWritten, Env.askTwice_files]
        rw [readByte_writeBytes hwf, if_neg ha]
    · refine ⟨⟨de.1.cache, rfl, .inl rfl⟩, ?_, ?_⟩
      · simpa [commitTorn] using wf_writeBytes hwf _ _
      · intro a ha
        simp only [commitTorn, Env.askTwice_files]
        rw [readByte_writeBytes hwf, if_neg (by simpa [tornBytes] using ha)]
  · exact ⟨⟨de.1.cache, rfl, .inl rfl⟩, by simpa using hwf, fun a _ => by simp⟩

end Sys2Proof.Machine
end

