-- ==== Sys2Proof/Laws/Commit.lean ====
section
/-! SUPPORT. Commit: what it can do, whatever fails; what it does if nothing fails. -/

namespace Sys2Proof.Machine

/-! ### The place of a sector in the files -/

/-- Two sectors of one drive share no byte of the image (R65). -/
theorem packedSector_disjoint {d : Drive} {n k a : Nat} (hn : inPackedSector d n a)
    (hk : inPackedSector d k a) : n = k := by
  obtain ⟨h1, h2⟩ := hn
  obtain ⟨h3, h4⟩ := hk
  simp only [fileAddr, Drive.sectorOffset] at h1 h2 h3 h4
  have hb : 0 < d.sectorSize.bytes := by cases d.sectorSize <;> decide
  generalize d.sectorSize.bytes = b at *
  rcases Nat.lt_trichotomy n k with h | h | h
  · have := Nat.mul_le_mul_right b (Nat.succ_le_of_lt h)
    rw [Nat.succ_mul] at this
    omega
  · exact h
  · have := Nat.mul_le_mul_right b (Nat.succ_le_of_lt h)
    rw [Nat.succ_mul] at this
    omega

/-- Two files that agree on a sector's place give the same packed bytes. -/
theorem fileBytes_congr {e e' : Env} {d : Drive} {n : Nat}
    (h : ∀ a, inPackedSector d n a → readByte e.files a = readByte e'.files a) :
    e.fileBytes d.image (d.sectorOffset n) d.sectorSize.bytes =
      e'.fileBytes d.image (d.sectorOffset n) d.sectorSize.bytes := by
  simp only [Env.fileBytes, readBytes]
  apply List.map_congr_left
  intro i hi
  apply h
  simp only [List.mem_range] at hi
  exact ⟨by omega, by omega⟩

/-- Bytes just written read back. -/
theorem fileBytes_written {m : Mem} (h : Mem.wf m = true) (x : Nat) (l : List Byte) :
    readBytes (writeBytes m x l) x l.length = l := by
  apply List.ext_getElem
  · simp
  · intro i h1 h2
    have := readBytes_getD (writeBytes m x l) x l.length i h2
    rw [List.getD_eq_getElem _ _ h1] at this
    rw [this, readByte_writeBytes h, if_pos ⟨by omega, by omega⟩]
    rw [show x + i - x = i by omega, List.getD_eq_getElem _ _ h2]

/-! ### Every entry tried once -/

/-- Between the entries of a commit of d: the cache is what is left of d's, an entry that is gone is
in the image, the bytes outside the cached sectors are as before (R137). -/
structure CommitInv (d : Drive) (e : Env) (de : Drive × Env) : Prop where
  drive : ∃ c, de.1 = { d with cache := c }
  rising : cacheRising de.1.cache = true
  wf : Mem.wf de.2.files = true
  kept : ∀ n, cacheFind de.1.cache n = cacheFind d.cache n ∨
    (cacheFind de.1.cache n = none ∧ ∀ p, cacheFind d.cache n = some p →
      de.2.fileBytes d.image (d.sectorOffset n) d.sectorSize.bytes = p)
  outside : ∀ a, (∀ entry ∈ d.cache, ¬ inPackedSector d entry.1 a) →
    readByte de.2.files a = readByte e.files a

theorem commitEntry_inv {d : Drive} {e : Env} {de : Drive × Env} (hok : d.cacheOk)
    (h : CommitInv d e de) {x : Nat × List Byte} (hx : x ∈ d.cache)
    (hf : cacheFind de.1.cache x.1 = some x.2) :
    CommitInv d e (commitEntry de x) ∧
      ∀ n, n ≠ x.1 → cacheFind (commitEntry de x).1.cache n = cacheFind de.1.cache n := by
  obtain ⟨c0, hc0⟩ := h.drive
  have hlen : x.2.length = d.sectorSize.bytes := (hok.2 x hx).2
  have haddr : entryAddr de.1 x = fileAddr d.image (d.sectorOffset x.1) := by rw [hc0]; rfl
  obtain ⟨-, hwf', hframe⟩ := commitEntry_frame de x h.wf
  have hsame : ∀ a, ¬ inPackedSector d x.1 a →
      readByte (commitEntry de x).2.files a = readByte de.2.files a := by
    intro a ha
    apply hframe
    rw [haddr, hlen]
    exact ha
  have hbytes : ∀ n, n ≠ x.1 →
      (commitEntry de x).2.fileBytes d.image (d.sectorOffset n) d.sectorSize.bytes =
        de.2.fileBytes d.image (d.sectorOffset n) d.sectorSize.bytes := by
    intro n hn
    exact fileBytes_congr fun a ha => hsame a fun hb => hn (packedSector_disjoint ha hb)
  have houtside : ∀ a, (∀ entry ∈ d.cache, ¬ inPackedSector d entry.1 a) →
      readByte (commitEntry de x).2.files a = readByte e.files a := by
    intro a ha
    rw [hsame a (ha x hx), h.outside a ha]
  by_cases hw : de.2.askTwice.1.1 = true ∧ de.2.askTwice.1.2 = true
  · have hce : commitEntry de x = ({ de.1 with cache := cacheErase de.1.cache x.1 },
        commitWritten de.1 x de.2.askTwice.2) := by
      simp [commitEntry, hw.1, hw.2]
    have hfind : ∀ n, cacheFind (commitEntry de x).1.cache n =
        if n = x.1 then none else cacheFind de.1.cache n := by
      intro n; rw [hce]; exact cacheFind_erase h.rising x.1 n
    refine ⟨⟨⟨cacheErase de.1.cache x.1, by rw [hce, hc0]⟩, by rw [hce]; exact cacheRising_erase h.rising _,
      hwf', ?_, houtside⟩, fun n hn => by rw [hfind, if_neg hn]⟩
    intro n
    rw [hfind]
    by_cases hn : n = x.1
    · subst hn
      refine .inr ⟨by simp, ?_⟩
      intro p hp
      have hp' : p = x.2 := by
        have := cacheFind_of_mem hok.1 (n := x.1) (p := x.2) hx
        rw [this] at hp; exact (Option.some.inj hp).symm
      rw [hp', hce]
      show readBytes (writeBytes de.2.askTwice.2.files (entryAddr de.1 x) x.2) _ _ = _
      rw [haddr, ← hlen]
      exact fileBytes_written (by simpa using h.wf) _ _
    · rw [if_neg hn]
      rcases h.kept n with h1 | ⟨h1, h2⟩
      · exact .inl h1
      · exact .inr ⟨h1, fun p hp => by rw [hbytes n hn]; exact h2 p hp⟩
  · have hce : (commitEntry de x).1 = de.1 := by
      unfold commitEntry
      split
      · rename_i h1; rw [if_neg (fun h2 => hw ⟨h1, h2⟩)]
      · rfl
    refine ⟨⟨by rw [hce]; exact h.drive, by rw [hce]; exact h.rising, hwf', ?_, houtside⟩,
      fun n _ => by rw [hce]⟩
    intro n
    rw [hce]
    by_cases hn : n = x.1
    · subst hn
      refine .inl ?_
      rw [hf, cacheFind_of_mem hok.1 (n := x.1) (p := x.2) hx]
    · rcases h.kept n with h1 | ⟨h1, h2⟩
      · exact .inl h1
      · exact .inr ⟨h1, fun p hp => by rw [hbytes n hn]; exact h2 p hp⟩

theorem commitFold_inv {d : Drive} {e : Env} (hok : d.cacheOk) (l : List (Nat × List Byte)) :
    ∀ de : Drive × Env, CommitInv d e de → (l.map Prod.fst).Nodup → (∀ x ∈ l, x ∈ d.cache) →
      (∀ x ∈ l, cacheFind de.1.cache x.1 = some x.2) → CommitInv d e (l.foldl commitEntry de) := by
  induction l with
  | nil => intro de h _ _ _; exact h
  | cons x rest ih =>
    intro de h hnd hmem hf
    simp only [List.map_cons, List.nodup_cons] at hnd
    obtain ⟨h1, h2⟩ := commitEntry_inv hok h (hmem x (by simp)) (hf x (by simp))
    refine ih _ h1 hnd.2 (fun y hy => hmem y (by simp [hy])) fun y hy => ?_
    rw [h2 y.1 (fun hxy => hnd.1 (hxy ▸ List.mem_map_of_mem hy))]
    exact hf y (by simp [hy])

theorem cacheRising_nodup {c : Cache} (h : cacheRising c = true) : (c.map Prod.fst).Nodup := by
  induction c with
  | nil => simp
  | cons x rest ih =>
    obtain ⟨h1, h2⟩ := cacheRising_cons.mp h
    simp only [List.map_cons, List.nodup_cons, List.mem_map, not_exists, not_and]
    exact ⟨fun y hy e => absurd (h1 y hy) (by omega), ih h2⟩

/-- Whatever fails, a commit keeps its invariant (R137). -/
theorem commit_inv {d : Drive} {e : Env} (hwf : Mem.wf e.files = true) (hok : d.cacheOk) :
    CommitInv d e (commit d e) := by
  have hp := commitOrder_perm (Config.commitRank e.freeUsed) d.cache
  refine commitFold_inv hok _ _ ⟨⟨d.cache, rfl⟩, hok.1, hwf, fun n => .inl rfl, fun a _ => rfl⟩
    ((hp.map Prod.fst).nodup_iff.mpr (cacheRising_nodup hok.1)) (fun x hx => hp.mem_iff.mp hx)
    fun x hx => ?_
  exact cacheFind_of_mem hok.1 (n := x.1) (p := x.2) (hp.mem_iff.mp hx)

/-- Whatever fails, every sector reads after a commit as before it (R137, R140). -/
theorem sectorOf_commit {d : Drive} {e : Env} (hwf : Mem.wf e.files = true) (hok : d.cacheOk)
    (n : Nat) : sectorOf (commit d e).1 n (commit d e).2 = sectorOf d n e := by
  have h := commit_inv hwf hok
  obtain ⟨c, hc⟩ := h.drive
  have hi : (commit d e).1.image = d.image := by rw [hc]
  have hs : (commit d e).1.sectorSize = d.sectorSize := by rw [hc]
  have ho : (commit d e).1.sectorOffset n = d.sectorOffset n := by rw [hc]; rfl
  simp only [sectorOf, hi, hs, ho]
  cases hcf : cacheFind d.cache n with
  | none =>
    have hn : cacheFind (commit d e).1.cache n = none := by
      rcases h.kept n with h1 | ⟨h1, -⟩
      · rw [h1, hcf]
      · exact h1
    simp only [hn]
    congr 1
    refine fileBytes_congr fun a ha => h.outside a fun entry hentry hb => ?_
    have := packedSector_disjoint ha hb
    subst this
    rw [cacheFind_of_mem hok.1 (n := entry.1) (p := entry.2) hentry] at hcf
    cases hcf
  | some p =>
    rcases h.kept n with h1 | ⟨h1, h2⟩
    · simp only [h1, hcf]
    · simp only [h1]
      rw [h2 p hcf]

/-! ### With no file operation failing -/

theorem Env.says_askTwice {e : Env} {k : Nat} (h : e.says (k + 2)) :
    e.askTwice.1 = (true, true) ∧ e.askTwice.2.says k := by
  obtain ⟨rest, hr⟩ := h
  have hs : e.fileScript = true :: true :: (List.replicate k true ++ rest) := by
    rw [hr]; simp [List.replicate_succ]
  have := Env.askTwice_script e _ hs
  rw [this]
  exact ⟨rfl, rest, rfl⟩

theorem commitFold_says (k : Nat) (l : List (Nat × List Byte)) : ∀ de : Drive × Env,
    de.2.says (2 * l.length + k) → (l.foldl commitEntry de).1.cache =
      l.foldl (fun c x => cacheErase c x.1) de.1.cache ∧ (l.foldl commitEntry de).2.says k := by
  induction l with
  | nil => intro de h; exact ⟨rfl, by simpa using h⟩
  | cons x rest ih =>
    intro de h
    have h' : de.2.says ((2 * rest.length + k) + 2) := by
      rw [List.length_cons, Nat.mul_add, Nat.mul_one] at h
      rwa [show 2 * rest.length + k + 2 = 2 * rest.length + 2 + k by omega]
    obtain ⟨h1, h2⟩ := Env.says_askTwice h'
    have hce : commitEntry de x = ({ de.1 with cache := cacheErase de.1.cache x.1 },
        commitWritten de.1 x de.2.askTwice.2) := by simp [commitEntry, h1]
    have h3 : (commitEntry de x).2.says (2 * rest.length + k) := by
      obtain ⟨r, hr⟩ := h2
      rw [hce]
      exact ⟨r, hr⟩
    obtain ⟨h4, h5⟩ := ih _ h3
    rw [List.foldl_cons, List.foldl_cons, h4, hce]
    exact ⟨rfl, by rw [hce] at h5; exact h5⟩

theorem cacheFind_eraseAll (l : List (Nat × List Byte)) : ∀ c : Cache, cacheRising c = true → ∀ n,
    cacheFind (l.foldl (fun c x => cacheErase c x.1) c) n =
      if n ∈ l.map Prod.fst then none else cacheFind c n := by
  induction l with
  | nil => intro c _ n; simp
  | cons x rest ih =>
    intro c h n
    rw [List.foldl_cons, ih _ (cacheRising_erase h _), cacheFind_erase h]
    by_cases h1 : n ∈ rest.map Prod.fst
    · rw [if_pos h1, if_pos (by simp only [List.map_cons, List.mem_cons]; exact .inr h1)]
    · by_cases h2 : n = x.1
      · rw [if_neg h1, if_pos h2, if_pos (by simp [h2])]
      · rw [if_neg h1, if_neg h2, if_neg]
        simp only [List.map_cons, List.mem_cons, not_or]
        exact ⟨h2, h1⟩

theorem cache_nil {c : Cache} (h : ∀ n, cacheFind c n = none) : c = [] := by
  cases c with
  | nil => rfl
  | cons x rest => have := h x.1; simp [cacheFind] at this

/-- If no file operation fails, a commit empties the cache, and the answers behind those it used are
still to come (R137). -/
theorem commit_says {d : Drive} {e : Env} {k : Nat} (hok : d.cacheOk)
    (h : e.says (2 * d.cache.length + k)) :
    (commit d e).1.cache = [] ∧ (commit d e).2.says k := by
  have hp := commitOrder_perm (Config.commitRank e.freeUsed) d.cache
  have hl := hp.length_eq
  obtain ⟨h1, h2⟩ := commitFold_says k (commitOrder (Config.commitRank e.freeUsed) d.cache)
    (d, { e with freeUsed := e.freeUsed + 1 }) (by rw [hl]; exact h)
  refine ⟨?_, h2⟩
  rw [commit, h1]
  refine cache_nil fun n => ?_
  rw [cacheFind_eraseAll _ _ hok.1]
  by_cases hn : n ∈ d.cache.map Prod.fst
  · rw [if_pos ((hp.map Prod.fst).mem_iff.mpr hn)]
  · rw [if_neg (fun h => hn ((hp.map Prod.fst).mem_iff.mp h))]
    exact cacheFind_none fun y hy e => hn (e ▸ List.mem_map_of_mem hy)

end Sys2Proof.Machine
end

