-- ==== Sys2Proof/Laws/Frame.lean ====
section
/-! SUPPORT. The card: the response queue, a frame from its first byte to the command, a data block
from its token to the write; what a command can do. -/

namespace Sys2Proof.Machine

/-! ### The response queue -/

/-- Byte k of the response buffer after a response: the response in front, the old bytes behind. -/
theorem byteAt_overlay {n : Nat} (l : List Byte) (v : Vector Byte n) (k : Nat) (hk : k < n) :
    byteAt (overlay l v) k = if k < l.length then l.getD k 0 else byteAt v k := by
  rw [overlay, byteAt_blockOf _ _ _ hk]
  split
  · rename_i h; simp [List.getD_eq_getElem?_getD, List.getElem?_append_left h]
  · rename_i h
    rw [byteAt_eq, List.getD_eq_getElem?_getD, List.getElem?_append_right (by omega)]
    simp only [List.getD_eq_getElem?_getD, List.getElem?_drop]
    congr 2; omega

theorem padTo_eq_take (n : Nat) (l : List Byte) (h : n ≤ l.length) : padTo n l = l.take n := by
  induction n generalizing l with
  | zero => rfl
  | succ n ih =>
    cases l with
    | nil => simp at h
    | cons b bs => simp only [padTo, List.take_succ_cons, ih bs (by simpa using h)]

/-- The queue holds exactly the response (R243). -/
theorem respond_pending (l : List Byte) (c : Card) (h : l.length ≤ 516) : (respond l c).pending = l := by
  simp only [Card.pending, respond, overlay, blockOf_toList, List.drop_zero]
  rw [padTo_eq_take _ _ (by simp; omega), List.take_take, Nat.min_eq_left h]
  simp

/-! ### A frame -/

theorem frameByte_kind (index : BitVec 6) :
    ((0x40 : Byte) ||| index.setWidth 8) &&& 0xC0 = 0x40 ∧
      ((0x40 : Byte) ||| index.setWidth 8).setWidth 6 = index := by
  revert index; decide +kernel

/-- Six frame bytes to a card that waits for a command: index and argument are received, and the
command runs with the sixth (R231 to R236). -/
theorem spiWrites_frame {s : State} {m : Medium} (h : s.card.readyFor m) (index : BitVec 6)
    (arg : BitVec 32) (crc : Byte) :
    spiWrites (frameBytes index arg crc) s =
      completeFrame m { s with
        card := { s.card.received index arg with commandState := .waitingForCrc } } := by
  obtain ⟨k1, k2⟩ := frameByte_kind index
  obtain ⟨cfg, chan, card, env, inbox, result⟩ := s
  cases card
  obtain ⟨h1, h2⟩ := h
  simp only at h1 h2
  subst h1 h2
  simp only [spiWrites, frameBytes, List.foldl_cons, List.foldl_nil]
  simp only [spiWrite, State.mapCard, receiveCommandByte, if_pos k1, k2, Card.received]

/-- The received argument is the argument sent (R104). -/
@[simp] theorem argument_received (c : Card) (index : BitVec 6) (arg : BitVec 32) :
    (c.received index arg).argument = arg := by
  simp only [Card.argument, Card.received, be32]
  ext i hi
  simp only [BitVec.getElem_append, BitVec.getElem_extractLsb']
  split
  · rw [BitVec.getElem_eq_testBit_toNat, BitVec.getLsbD]; congr 1; omega
  · split
    · rw [BitVec.getElem_eq_testBit_toNat, BitVec.getLsbD]; congr 1; omega
    · split
      · rw [BitVec.getElem_eq_testBit_toNat, BitVec.getLsbD]; congr 1; omega
      · rw [BitVec.getElem_eq_testBit_toNat, BitVec.getLsbD]; congr 1; omega

@[simp] theorem Card.framed_slot (c : Card) (i : BitVec 6) (a : BitVec 32) (e : Bool) :
    (c.framed i a e).slot = c.slot := rfl
@[simp] theorem Card.framed_r1Status (c : Card) (i : BitVec 6) (a : BitVec 32) (e : Bool) :
    (c.framed i a e).r1Status = c.r1Base e := rfl
@[simp] theorem Card.framed_commandState (c : Card) (i : BitVec 6) (a : BitVec 32) (e : Bool) :
    (c.framed i a e).commandState = c.commandState := rfl
@[simp] theorem Card.framed_currentCommand (c : Card) (i : BitVec 6) (a : BitVec 32) (e : Bool) :
    (c.framed i a e).currentCommand = i := rfl
@[simp] theorem Card.framed_eraseSequence (c : Card) (i : BitVec 6) (a : BitVec 32) (e : Bool) :
    (c.framed i a e).eraseSequence = if e then c.eraseSequence else .closed := rfl
@[simp] theorem Card.framed_eraseStart (c : Card) (i : BitVec 6) (a : BitVec 32) (e : Bool) :
    (c.framed i a e).eraseStart = c.eraseStart := rfl
@[simp] theorem Card.framed_eraseEnd (c : Card) (i : BitVec 6) (a : BitVec 32) (e : Bool) :
    (c.framed i a e).eraseEnd = c.eraseEnd := rfl
@[simp] theorem Card.framed_cmd8Issued (c : Card) (i : BitVec 6) (a : BitVec 32) (e : Bool) :
    (c.framed i a e).cmd8Issued = c.cmd8Issued := rfl
@[simp] theorem Card.framed_cmd55Issued (c : Card) (i : BitVec 6) (a : BitVec 32) (e : Bool) :
    (c.framed i a e).cmd55Issued = false := rfl
@[simp] theorem Card.framed_argument (c : Card) (i : BitVec 6) (a : BitVec 32) (e : Bool) :
    (c.framed i a e).argument = a := argument_received c i a

/-- The idle bit passes through the frame's preamble (R260). -/
@[simp] theorem isIdle_r1Base (c : Card) (e : Bool) :
    isIdle (c.r1Base e) = isIdle c.r1Status := by
  unfold Card.r1Base isIdle
  generalize c.r1Status = r
  split <;> revert r <;> decide +kernel

theorem isIdle_iff (r : Byte) : isIdle r = true ↔ r &&& 0x01 = 0x01 := by
  revert r; decide +kernel

theorem isIdle_iff_not (r : Byte) : isIdle r = false ↔ r &&& 0x01 = 0x00 := by
  revert r; decide +kernel

/-- The first thing a frame does, on the card that received it (R260). -/
theorem framePreamble_received (c : Card) (index : BitVec 6) (arg : BitVec 32) (w : CommandState) :
    framePreamble { c.received index arg with commandState := w } =
      { c.framed index arg (isEraseCommand c.cmd55Issued index) with commandState := w } := by
  cases hi : isEraseCommand c.cmd55Issued index <;> cases he : c.eraseSequence <;>
    simp [framePreamble, eraseResetCheck, Card.framed, Card.received, Card.r1Base, clearResultBits,
      r1Idle, hi, he, raiseR1, r1EraseReset]

/-- A whole frame, standard or application command as `cmd55_issued` says: the preamble, the command,
and the receiver's next state (R236, R260). -/
theorem sendFrame_eq {s : State} {m : Medium} (h : s.card.readyFor m) (index : BitVec 6)
    (arg : BitVec 32) (crc : Byte) :
    sendFrame index arg crc s =
      completes .nothing
        (((if s.card.cmd55Issued then runAppCommand else runCommand m) { s with
            card := { s.card.framed index arg (isEraseCommand s.card.cmd55Issued index) with
              commandState := .waitingForCrc } }).mapCard fun c =>
          { c with
              commandState :=
                if entersData s.cfg s.card.cmd55Issued index then .waitingForDataToken
                else .waitingForCommand }) := by
  rw [sendFrame, spiWrites_frame h]
  show completes .nothing (State.mapCard _ (if s.card.cmd55Issued = true then
    runAppCommand { s with
      card := framePreamble { s.card.received index arg with commandState := .waitingForCrc } }
    else runCommand m { s with
      card := framePreamble { s.card.received index arg with commandState := .waitingForCrc } })) = _
  rw [framePreamble_received]
  have hite : ∀ (b : Bool) (x : State), (if b = true then runAppCommand x else runCommand m x) =
      (if b = true then runAppCommand else runCommand m) x := by intro b x; cases b <;> rfl
  rw [hite]; rfl

/-! ### What a command can do -/

/-- What any command leaves: a response of at most 516 bytes in front, R1 built last; of the card only
the slot, R1, the erase handshake and the two flags may change; of R1 only the five bits of R40; the
erase bounds stay in order; the slot changes only by the erase of a complete handshake, and the files
not at all (R260 to R277). -/
structure CommandResult (m : Medium) (s t : State) : Prop where
  frame : t = { s with card := t.card, env := t.env }
  files : t.env.files = s.env.files
  freeUsed : t.env.freeUsed = s.env.freeUsed
  card : ∃ l c, t.card = respondR1 l c ∧ l.length ≤ 515 ∧
    c = { s.card with
      slot := c.slot, r1Status := c.r1Status, eraseSequence := c.eraseSequence
      eraseStart := c.eraseStart, eraseEnd := c.eraseEnd, cmd8Issued := c.cmd8Issued
      cmd55Issued := c.cmd55Issued } ∧
    c.r1Status &&& 0xA8 = s.card.r1Status &&& 0xA8 ∧
    (s.card.eraseOk m.totalSectors → c.eraseOk m.totalSectors) ∧
    (c.slot = s.card.slot ∨ (s.card.eraseSequence = .ended ∧ c.slot = some { m with
      drive := eraseFill (s.card.eraseEnd.toNat + 1 - s.card.eraseStart.toNat)
        s.card.eraseStart.toNat m.drive }))

/-- A command that answers and changes neither the slot nor the erase handshake. -/
theorem commandResult_plain {m : Medium} {s : State} {f : Card → Card} {l : List Byte} {c : Card}
    (hf : f s.card = respondR1 l c) (hl : l.length ≤ 515)
    (hc : c = { s.card with
      r1Status := c.r1Status, cmd8Issued := c.cmd8Issued, cmd55Issued := c.cmd55Issued })
    (hr : c.r1Status &&& 0xA8 = s.card.r1Status &&& 0xA8) : CommandResult m s (s.mapCard f) := by
  refine ⟨rfl, rfl, rfl, l, c, hf, hl, by rw [hc], hr, ?_, .inl (by rw [hc])⟩
  intro h; rw [hc]; exact h

theorem raised_reserved (r bits : Byte) (h : bits &&& 0xA8 = 0) : (r ||| bits) &&& 0xA8 = r &&& 0xA8 := by
  apply BitVec.eq_of_getElem_eq
  intro i hi
  have := congrArg (fun x : Byte => x[i]) h
  simp only [BitVec.getElem_and, BitVec.getElem_or] at this ⊢
  cases hr : r[i] <;> cases hb : bits[i] <;> cases hm : (0xA8 : Byte)[i] <;> simp_all

theorem lowered_reserved (r : Byte) : (r &&& ~~~r1Idle) &&& 0xA8 = r &&& 0xA8 := by
  revert r; decide +kernel

/-- A command refused with an R1 bit. -/
theorem commandResult_refuse {m : Medium} {s : State} {f : Card → Card} {bits : Byte}
    (hf : f s.card = refuseR1 bits s.card) (hb : bits &&& 0xA8 = 0) :
    CommandResult m s (s.mapCard f) :=
  commandResult_plain (l := []) (c := raiseR1 bits s.card) hf (by simp) rfl
    (raised_reserved _ _ hb)

/-- An erase step refused with an R1 bit. -/
theorem commandResult_refuseErase {m : Medium} {s : State} {f : Card → Card} {bits : Byte}
    (hf : f s.card = refuseErase bits s.card) (hb : bits &&& 0xA8 = 0) :
    CommandResult m s (s.mapCard f) :=
  ⟨rfl, rfl, rfl, [], raiseR1 bits { s.card with eraseSequence := .closed }, hf, by simp, rfl,
    raised_reserved _ _ hb, fun _ => ⟨nofun, nofun⟩, .inl rfl⟩

theorem sendCsd_result (m : Medium) (s : State) : CommandResult m s (s.mapCard (sendCsd s.cfg m)) := by
  cases h : isIdle s.card.r1Status
  · exact commandResult_plain (l := cardBlock (csdBytes s.cfg m.cSize)) (c := s.card)
      (by simp [sendCsd, h]) (by simp [cardBlock, csdBytes]) rfl rfl
  · exact commandResult_refuse (bits := r1IllegalCommand) (by simp [sendCsd, h]) (by decide)

theorem sendCid_result (m : Medium) (s : State) : CommandResult m s (s.mapCard (sendCid s.cfg)) := by
  cases h : isIdle s.card.r1Status
  · exact commandResult_plain (l := cardBlock s.cfg.mmcCid.toList) (c := s.card)
      (by simp [sendCid, h]) (by simp [cardBlock]) rfl rfl
  · exact commandResult_refuse (bits := r1IllegalCommand) (by simp [sendCid, h]) (by decide)

theorem writeBlock_result (m : Medium) (s : State) : CommandResult m s (s.mapCard (writeBlock m)) := by
  cases h : isIdle s.card.r1Status
  · by_cases h' : m.totalSectors ≤ s.card.sectorArg
    · exact commandResult_refuse (bits := r1ParameterError) (by simp [writeBlock, h, h']) (by decide)
    · exact commandResult_plain (l := []) (c := s.card) (by simp [writeBlock, h, h']) (by simp) rfl rfl
  · exact commandResult_refuse (bits := r1IllegalCommand) (by simp [writeBlock, h]) (by decide)

theorem readSingleBlock_result (m : Medium) (s : State) : CommandResult m s (readSingleBlock m s) := by
  unfold readSingleBlock
  split
  · exact commandResult_refuse rfl (by decide)
  · split
    · exact commandResult_refuse rfl (by decide)
    · by_cases hg : storeGives m.drive s.card.sectorArg s.env
      · have e : memRead m.drive s.card.sectorArg s.env =
            (some (sectorOf m.drive s.card.sectorArg s.env), storeEnv m.drive s.card.sectorArg s.env) := by
          cases hc : cacheFind m.drive.cache s.card.sectorArg with
          | some p => rw [memRead_hit hc]; simp [sectorOf, storeEnv, hc]
          | none =>
            have h2 : s.env.askTwice.1.2 = true := by simpa [storeGives, hc] using hg
            rw [memRead_miss hc]; simp [sectorOf, storeEnv, hc, h2]
        rw [e]
        refine ⟨rfl, ?_, ?_, _, s.card, rfl, ?_, rfl, rfl, id, .inl rfl⟩
        · simp only [storeEnv]; split <;> simp
        · simp only [storeEnv]; split <;> simp
        · simp [cardBlock]
      · have hc : cacheFind m.drive.cache s.card.sectorArg = none := by
          cases hc : cacheFind m.drive.cache s.card.sectorArg with
          | some p => simp [storeGives, hc] at hg
          | none => rfl
        have h2 : s.env.askTwice.1.2 = false := by simpa [storeGives, hc] using hg
        rw [memRead_miss hc, h2]
        exact ⟨rfl, by simp, by simp, _, s.card, rfl, by simp, rfl, rfl, id, .inl rfl⟩

theorem eraseWrBlkStart_result (m : Medium) (s : State) :
    CommandResult m s (s.mapCard (eraseWrBlkStart m)) := by
  by_cases h : s.card.eraseSequence ≠ .closed
  · exact commandResult_refuseErase (bits := r1EraseSeqError) (if_pos h) (by decide)
  · by_cases h' : m.totalSectors ≤ s.card.sectorArg
    · exact commandResult_refuseErase (bits := r1ParameterError)
        ((if_neg h).trans (if_pos h')) (by decide)
    · refine ⟨rfl, rfl, rfl, [], { s.card with
        eraseStart := s.card.argument, eraseSequence := .started },
        (if_neg h).trans (if_neg h'), by simp, rfl, rfl, fun _ => ⟨fun _ => ?_, nofun⟩,
        .inl rfl⟩
      simpa [Card.sectorArg] using h'

theorem eraseWrBlkEnd_result (m : Medium) (s : State) :
    CommandResult m s (s.mapCard (eraseWrBlkEnd m)) := by
  by_cases h : s.card.eraseSequence ≠ .started
  · exact commandResult_refuseErase (bits := r1EraseSeqError) (if_pos h) (by decide)
  · by_cases h' : m.totalSectors ≤ s.card.sectorArg ∨ s.card.sectorArg < s.card.eraseStart.toNat
    · exact commandResult_refuseErase (bits := r1ParameterError)
        ((if_neg h).trans (if_pos h')) (by decide)
    · refine ⟨rfl, rfl, rfl, [], { s.card with
        eraseEnd := s.card.argument, eraseSequence := .ended },
        (if_neg h).trans (if_neg h'), by simp, rfl, rfl, fun _ => ⟨nofun, fun _ => ?_⟩,
        .inl rfl⟩
      simp only [not_or, not_le, not_lt] at h'
      exact ⟨h'.2, h'.1⟩

theorem erase_result (m : Medium) (s : State) : CommandResult m s (s.mapCard (erase m)) := by
  by_cases h : s.card.eraseSequence ≠ .ended
  · exact commandResult_refuseErase (bits := r1EraseSeqError) (if_pos h) (by decide)
  · exact ⟨rfl, rfl, rfl, [0x01], _, if_neg h, by simp, rfl, rfl,
      fun _ => ⟨nofun, nofun⟩, .inr ⟨not_not.mp h, rfl⟩⟩

/-- Every standard command (R260 to R275). -/
theorem runCommand_result (m : Medium) (s : State) : CommandResult m s (runCommand m s) := by
  unfold runCommand
  split
  · exact commandResult_plain (l := []) (c := raiseR1 r1Idle { s.card with cmd8Issued := false }) rfl
      (by simp) rfl (raised_reserved _ _ (by decide))
  · exact commandResult_plain (l := [0x00, 0x00, 0x01, s.card.arg3])
      (c := { s.card with cmd8Issued := true }) rfl (by simp) rfl rfl
  · exact sendCsd_result m s
  · exact sendCid_result m s
  · exact readSingleBlock_result m s
  · exact writeBlock_result m s
  · exact eraseWrBlkStart_result m s
  · exact eraseWrBlkEnd_result m s
  · exact erase_result m s
  · exact commandResult_plain (l := []) (c := { s.card with cmd55Issued := true }) rfl (by simp) rfl rfl
  · exact commandResult_plain (l := [0xC0, 0x00, 0x00, 0x00]) (c := s.card) rfl (by simp) rfl rfl
  · exact commandResult_refuse rfl (by decide)

/-- Every application command (R260, R276, R277). -/
theorem runAppCommand_result (m : Medium) (s : State) : CommandResult m s (runAppCommand s) := by
  unfold runAppCommand
  split
  · cases h : s.card.cmd8Issued && s.card.arg0.getLsbD 6
    · exact commandResult_plain (l := []) (c := s.card) (by simp only [sdSendOpCond, h]; rfl) (by simp)
        rfl rfl
    · exact commandResult_plain (l := []) (c := { s.card with r1Status := s.card.r1Status &&& ~~~r1Idle })
        (by simp only [sdSendOpCond, h]; rfl) (by simp) rfl (lowered_reserved _)
  · exact commandResult_refuse rfl (by decide)

/-- A frame from its last byte on: the preamble, then a command (R236, R260). -/
theorem executeCommand_result (m : Medium) (s : State) :
    CommandResult m (s.mapCard framePreamble) (executeCommand m s) := by
  unfold executeCommand
  split
  · exact runAppCommand_result m _
  · exact runCommand_result m _

/-- The preamble of a frame changes R1 and the two flags of the frame only, and clears the unused R1
bits (R260, R279). -/
theorem framePreamble_frame (c : Card) :
    framePreamble c = { c with
      r1Status := (framePreamble c).r1Status, eraseSequence := (framePreamble c).eraseSequence
      cmd55Issued := false } ∧
    (framePreamble c).r1Status &&& 0xA8 = 0 ∧
    ((framePreamble c).eraseSequence = .closed ∨ (framePreamble c).eraseSequence = c.eraseSequence) := by
  have hz : ∀ r : Byte, clearResultBits r &&& 0xA8 = 0 ∧ (clearResultBits r ||| r1EraseReset) &&& 0xA8 = 0 := by
    decide +kernel
  by_cases h : c.eraseSequence ≠ .closed ∧ isEraseCommand c.cmd55Issued c.currentCommand = false
  · have e : framePreamble c = raiseR1 r1EraseReset { c with
        cmd55Issued := false, r1Status := clearResultBits c.r1Status, eraseSequence := .closed } :=
      if_pos h
    rw [e]; exact ⟨rfl, (hz _).2, .inl rfl⟩
  · have e : framePreamble c = { c with
        cmd55Issued := false, r1Status := clearResultBits c.r1Status } := if_neg h
    rw [e]; exact ⟨rfl, (hz _).1, .inr rfl⟩

/-! ### The value handed back to the host plays no part -/

theorem runAppCommand_returns (s : State) (r : Result) :
    runAppCommand (s.returns r) = (runAppCommand s).returns r := by
  have h : (s.returns r).card = s.card := rfl
  unfold runAppCommand
  rw [h]
  split <;> rfl

theorem readSingleBlock_returns (m : Medium) (s : State) (r : Result) :
    readSingleBlock m (s.returns r) = (readSingleBlock m s).returns r := by
  have h : (s.returns r).card = s.card := rfl
  have h' : (s.returns r).cfg = s.cfg := rfl
  unfold readSingleBlock
  simp only [h, h']
  repeat' split
  all_goals first | rfl | simp_all [State.returns]

theorem runCommand_returns (m : Medium) (s : State) (r : Result) :
    runCommand m (s.returns r) = (runCommand m s).returns r := by
  have h : (s.returns r).card = s.card := rfl
  unfold runCommand
  rw [h, readSingleBlock_returns]
  split <;> rfl

theorem executeCommand_returns (m : Medium) (s : State) (r : Result) :
    executeCommand m (s.returns r) = (executeCommand m s).returns r := by
  have h : (s.returns r).card = s.card := rfl
  have e : (s.returns r).mapCard framePreamble = (s.mapCard framePreamble).returns r := rfl
  unfold executeCommand
  rw [h, e, runAppCommand_returns, runCommand_returns]
  split <;> rfl

theorem completeFrame_returns (m : Medium) (s : State) (r : Result) :
    completeFrame m (s.returns r) = (completeFrame m s).returns r := by
  rw [completeFrame, executeCommand_returns]; rfl

theorem spiWrite_returns (b : Byte) (s : State) (r : Result) :
    spiWrite b (s.returns r) = (spiWrite b s).returns r := by
  have h : (s.returns r).card = s.card := rfl
  unfold spiWrite
  rw [h]
  cases s.card.slot with
  | none => rfl
  | some m => simp only [completeFrame_returns]; split <;> rfl

theorem spiWrites_returns (bs : List Byte) (s : State) (r : Result) :
    spiWrites bs (s.returns r) = (spiWrites bs s).returns r := by
  induction bs generalizing s with
  | nil => rfl
  | cons b bs ih =>
    show spiWrites bs (spiWrite b (s.returns r)) = _
    rw [spiWrite_returns, ih]; rfl

/-- Bytes sent one by one, as operations of their own (log 5). -/
theorem runs_spiWr (bs : List Byte) (s : State) (h : bs ≠ []) :
    runs (bs.map .spiWr) s =
      some (List.replicate bs.length .nothing, (spiWrites bs s).returns .nothing) := by
  induction bs generalizing s with
  | nil => exact absurd rfl h
  | cons b bs ih =>
    have e : exec (.spiWr b) s = .next ((spiWrite b s).returns .nothing) := rfl
    simp only [List.map_cons, runs, e]
    cases bs with
    | nil => rfl
    | cons c bs => rw [ih _ (by simp), spiWrites_returns]; rfl

/-! ### A data block -/

/-- Data bytes to a card that waits for data, none of them the last: they go into the send buffer one
after the other (R238). -/
theorem spiWrites_data {m : Medium} (l : List Byte) : ∀ {s : State}, s.card.slot = some m →
    s.card.commandState = .waitingForData → s.card.dataCount + l.length < 512 →
    ∃ v : Sector, spiWrites l s = { s with
        card := { s.card with sendBuffer := v, dataCount := s.card.dataCount + l.length } } ∧
      ∀ k, k < 512 → byteAt v k =
        if s.card.dataCount ≤ k ∧ k < s.card.dataCount + l.length then l.getD (k - s.card.dataCount) 0
        else byteAt s.card.sendBuffer k := by
  induction l with
  | nil =>
    intro s h1 h2 h3
    exact ⟨s.card.sendBuffer, rfl, fun k hk => by rw [if_neg]; simp⟩
  | cons b bs ih =>
    intro s h1 h2 h3
    simp only [List.length_cons] at h3
    have e : spiWrite b s = { s with card := { s.card with
        sendBuffer := setByte s.card.sendBuffer s.card.dataCount b
        dataCount := s.card.dataCount + 1 } } := by
      simp only [spiWrite, h1, h2, State.mapCard, receiveDataByte]
      rw [if_neg (by omega)]
    obtain ⟨v, hv, hb⟩ := ih (s := { s with card := { s.card with
        sendBuffer := setByte s.card.sendBuffer s.card.dataCount b
        dataCount := s.card.dataCount + 1 } }) h1 h2 (by simp only; omega)
    refine ⟨v, ?_, ?_⟩
    · show spiWrites bs (spiWrite b s) = _
      rw [e, hv]
      simp only [List.length_cons]
      congr 2; omega
    · intro k hk
      rw [hb k hk]
      simp only [List.length_cons]
      by_cases h : s.card.dataCount = k
      · subst h
        rw [if_neg (by omega), if_pos (by omega), byteAt_setByte _ _ _ _ (by omega)]
        simp
      · rw [byteAt_setByte _ _ _ _ (by omega), if_neg (Ne.symm h)]
        by_cases h' : s.card.dataCount + 1 ≤ k ∧ k < s.card.dataCount + 1 + bs.length
        · rw [if_pos h', if_pos (by omega), show k - s.card.dataCount = k - (s.card.dataCount + 1) + 1 by omega]
          simp
        · rw [if_neg h', if_neg (by omega)]

theorem vector_ext_byteAt {n : Nat} {v w : Vector Byte n} (h : ∀ k, k < n → byteAt v k = byteAt w k) :
    v = w := by
  ext k hk
  have := h k hk
  simp only [byteAt, Vector.getElem?_eq_getElem hk, Option.getD_some] at this
  rw [this]

/-- A data block to a card that waits for its token: the 512 bytes are the send buffer when the write
runs, with the second CRC byte (R237 to R240). -/
theorem spiWrites_dataBlock {s : State} {m : Medium} (h1 : s.card.slot = some m)
    (h2 : s.card.commandState = .waitingForDataToken) (data : Sector) (crc1 crc2 : Byte) :
    spiWrites (dataBlockBytes data crc1 crc2) s = { s with
      card := { writeSingleBlock s.cfg m { s.card with
          sendBuffer := data, dataCount := 512, commandState := .waitingForDataCrc2 } with
        commandState := .waitingForCommand } } := by
  have e0 : spiWrite 0xFE s = { s with card := { s.card with
      dataCount := 0, commandState := .waitingForData } } := by
    simp [spiWrite, h1, h2, State.mapCard, receiveToken]
  have hlen : data.toList.length = 512 := by simp
  have hsplit : data.toList = data.toList.take 511 ++ [byteAt data 511] := by
    apply List.ext_getElem
    · simp
    · intro i hi1 hi2
      simp only [Vector.length_toList] at hi1
      by_cases hi : i < 511
      · rw [List.getElem_append_left (by simp; omega)]; simp
      · have : i = 511 := by omega
        subst this
        rw [List.getElem_append_right (by simp)]
        simp [byteAt]
  obtain ⟨v, hv, hb⟩ := spiWrites_data (m := m) (data.toList.take 511)
    (s := { s with card := { s.card with dataCount := 0, commandState := .waitingForData } }) h1 rfl
    (by simp)
  have hl : (data.toList.take 511).length = 511 := by simp
  simp only [hl, Nat.zero_add] at hv hb
  have hsend : setByte v 511 (byteAt data 511) = data := by
    apply vector_ext_byteAt
    intro k hk
    rw [byteAt_setByte _ _ _ _ (by omega)]
    split
    · rename_i hk'; rw [hk']
    · rw [hb k hk, if_pos (by omega), byteAt_eq, Nat.sub_zero]
      simp only [List.getD_eq_getElem?_getD, List.getElem?_take]
      rw [if_pos (by omega)]
  have e1 : spiWrites (dataBlockBytes data crc1 crc2) s =
      spiWrite crc2 (spiWrite crc1 (spiWrite (byteAt data 511)
        (spiWrites (data.toList.take 511) (spiWrite 0xFE s)))) := by
    have h3 : dataBlockBytes data crc1 crc2 =
        (0xFE :: data.toList.take 511) ++ [byteAt data 511, crc1, crc2] := by
      conv_lhs => rw [dataBlockBytes, hsplit]
      simp
    rw [h3]; simp [spiWrites]
  rw [e1, e0, hv]
  simp only [spiWrite, h1, State.mapCard, receiveDataByte, hsend]
  simp

/-! ### Erase -/

theorem pack_zero (size : SectorSize) :
    pack size (Vector.replicate 512 0) = List.replicate size.bytes 0x00 := by
  cases size
  · decide +kernel
  · simp [pack, SectorSize.bytes]

/-- Zero fill: every number of the range is cached as zeros, every other entry is as before; of the
drive only the cache changes (R271). -/
theorem eraseFill_spec (count n : Nat) (d : Drive) :
    eraseFill count n d = { d with cache := (eraseFill count n d).cache } ∧
    ∀ k, cacheFind (eraseFill count n d).cache k =
      if n ≤ k ∧ k < n + count then some (List.replicate d.sectorSize.bytes 0x00)
      else cacheFind d.cache k := by
  induction count generalizing n d with
  | zero => exact ⟨rfl, fun k => by rw [if_neg (by omega)]; rfl⟩
  | succ count ih =>
    obtain ⟨h1, h2⟩ := ih (n + 1) (memWrite d n (Vector.replicate 512 0))
    refine ⟨by rw [eraseFill, h1]; rfl, fun k => ?_⟩
    rw [eraseFill, h2]
    simp only [memWrite, cacheFind_upsert, pack_zero]
    by_cases hk : k = n
    · subst hk; rw [if_neg (by omega), if_pos rfl, if_pos (by omega)]
    · by_cases h' : n + 1 ≤ k ∧ k < n + 1 + count
      · rw [if_pos h', if_pos (by omega)]
      · rw [if_neg h', if_neg hk, if_neg (by omega)]

/-! ### Without a card -/

@[simp] theorem spiWrites_noCard {s : State} (h : s.card.slot = none) (bs : List Byte) :
    spiWrites bs s = s := by
  induction bs with
  | nil => rfl
  | cons b bs ih =>
    have e : spiWrite b s = s := by simp [spiWrite, h]
    simpa [spiWrites, e] using ih

end Sys2Proof.Machine
end

