-- ==== Sys2Proof/Laws/PerInstr.lean ====
section
/-! SUPPORT. A statement about every instruction as syntax, proved constructor by constructor: its
encoding has exactly the bytes of its format. -/

namespace Sys2Proof.Laws

/-- How many bytes a transaction of a format has (R90, R92, R93, R97, R100, R109). -/
def formatLength : Format → Nat
  | .ataXact => 2
  | .ataCmd => 1
  | .spiXact => 2
  | .mmcFrame => 6
  | .mmcData => 515
  | .hostCall => 4

/-- The encoding has exactly the bytes of its format. -/
def EncodeShape.Statement (i : Instr) : Prop := (encode i).bytes.length = formatLength (encode i).fmt

namespace EncodeShape

theorem ataRdData : EncodeShape.Statement .ataRdData := rfl
theorem ataRdError : EncodeShape.Statement .ataRdError := rfl
theorem ataRdSectorCount : EncodeShape.Statement .ataRdSectorCount := rfl
theorem ataRdSector : EncodeShape.Statement .ataRdSector := rfl
theorem ataRdCylinderLow : EncodeShape.Statement .ataRdCylinderLow := rfl
theorem ataRdCylinderHigh : EncodeShape.Statement .ataRdCylinderHigh := rfl
theorem ataRdHeadDrive : EncodeShape.Statement .ataRdHeadDrive := rfl
theorem ataRdStatus : EncodeShape.Statement .ataRdStatus := rfl
theorem ataRdData2 : EncodeShape.Statement .ataRdData2 := rfl
theorem ataWrData (b : Byte) : EncodeShape.Statement (Instr.ataWrData b) := rfl
theorem ataWrFeature (b : Byte) : EncodeShape.Statement (Instr.ataWrFeature b) := rfl
theorem ataWrSectorCount (b : Byte) : EncodeShape.Statement (Instr.ataWrSectorCount b) := rfl
theorem ataWrSector (b : Byte) : EncodeShape.Statement (Instr.ataWrSector b) := rfl
theorem ataWrCylinderLow (b : Byte) : EncodeShape.Statement (Instr.ataWrCylinderLow b) := rfl
theorem ataWrCylinderHigh (b : Byte) : EncodeShape.Statement (Instr.ataWrCylinderHigh b) := rfl
theorem ataWrHeadDrive (b : Byte) : EncodeShape.Statement (Instr.ataWrHeadDrive b) := rfl
theorem ataWrCommand (b : Byte) : EncodeShape.Statement (Instr.ataWrCommand b) := rfl
theorem ataWrData2 (b : Byte) : EncodeShape.Statement (Instr.ataWrData2 b) := rfl
theorem readSectorRetry : EncodeShape.Statement .readSectorRetry := rfl
theorem readSectorNoretry : EncodeShape.Statement .readSectorNoretry := rfl
theorem writeSectorRetry : EncodeShape.Statement .writeSectorRetry := rfl
theorem writeSectorNoretry : EncodeShape.Statement .writeSectorNoretry := rfl
theorem identifyDriveAta : EncodeShape.Statement .identifyDriveAta := rfl
theorem identifyDriveAtapi : EncodeShape.Statement .identifyDriveAtapi := rfl
theorem initializeDeviceParameters : EncodeShape.Statement .initializeDeviceParameters := rfl
theorem ataCmdOther (op : Byte) : EncodeShape.Statement (Instr.ataCmdOther op) := rfl
theorem spiWr (b : Byte) : EncodeShape.Statement (Instr.spiWr b) := rfl
theorem spiRd : EncodeShape.Statement .spiRd := rfl
theorem cmd0GoIdleState (arg : BitVec 32) (crc : Byte) : EncodeShape.Statement (Instr.cmd0GoIdleState arg crc) := rfl
theorem cmd8SendIfCond (arg : BitVec 32) (crc : Byte) : EncodeShape.Statement (Instr.cmd8SendIfCond arg crc) := rfl
theorem cmd9SendCsd (arg : BitVec 32) (crc : Byte) : EncodeShape.Statement (Instr.cmd9SendCsd arg crc) := rfl
theorem cmd10SendCid (arg : BitVec 32) (crc : Byte) : EncodeShape.Statement (Instr.cmd10SendCid arg crc) := rfl
theorem cmd17ReadSingleBlock (arg : BitVec 32) (crc : Byte) : EncodeShape.Statement (Instr.cmd17ReadSingleBlock arg crc) := rfl
theorem cmd24WriteBlock (arg : BitVec 32) (crc : Byte) : EncodeShape.Statement (Instr.cmd24WriteBlock arg crc) := rfl
theorem cmd32EraseWrBlkStart (arg : BitVec 32) (crc : Byte) : EncodeShape.Statement (Instr.cmd32EraseWrBlkStart arg crc) := rfl
theorem cmd33EraseWrBlkEnd (arg : BitVec 32) (crc : Byte) : EncodeShape.Statement (Instr.cmd33EraseWrBlkEnd arg crc) := rfl
theorem cmd38Erase (arg : BitVec 32) (crc : Byte) : EncodeShape.Statement (Instr.cmd38Erase arg crc) := rfl
theorem cmd55AppCmd (arg : BitVec 32) (crc : Byte) : EncodeShape.Statement (Instr.cmd55AppCmd arg crc) := rfl
theorem cmd58ReadOcr (arg : BitVec 32) (crc : Byte) : EncodeShape.Statement (Instr.cmd58ReadOcr arg crc) := rfl
theorem cmdOther (index : BitVec 6) (arg : BitVec 32) (crc : Byte) : EncodeShape.Statement (Instr.cmdOther index arg crc) := rfl
theorem acmd41SdSendOpCond (arg : BitVec 32) (crc : Byte) : EncodeShape.Statement (Instr.acmd41SdSendOpCond arg crc) := rfl
theorem acmdOther (index : BitVec 6) (arg : BitVec 32) (crc : Byte) : EncodeShape.Statement (Instr.acmdOther index arg crc) := rfl
theorem mmcDataBlock (data : Sector) (crc1 crc2 : Byte) : EncodeShape.Statement (Instr.mmcDataBlock data crc1 crc2) := by
  simp [EncodeShape.Statement, encode, dataBlockBytes, formatLength]
theorem ataNew (databus : Databus) : EncodeShape.Statement (Instr.ataNew databus) := rfl
theorem ataInsert (unit : DriveUnit) (image : Nat) : EncodeShape.Statement (Instr.ataInsert unit image) := rfl
theorem ataEject (unit : DriveUnit) : EncodeShape.Statement (Instr.ataEject unit) := rfl
theorem ataCommit (unit : DriveUnit) : EncodeShape.Statement (Instr.ataCommit unit) := rfl
theorem ataDirty (unit : DriveUnit) : EncodeShape.Statement (Instr.ataDirty unit) := rfl
theorem mmcNew : EncodeShape.Statement .mmcNew := rfl
theorem mmcInsert (image : Nat) : EncodeShape.Statement (Instr.mmcInsert image) := rfl
theorem mmcEject : EncodeShape.Statement .mmcEject := rfl
theorem mmcCommit : EncodeShape.Statement .mmcCommit := rfl
theorem mmcDirty : EncodeShape.Statement .mmcDirty := rfl

end EncodeShape

end Sys2Proof.Laws
end

