-- ==== Sys2Proof/Laws/Transfer.lean ====
section
/-! SUPPORT. The ATA channel: seek, load and store of a sector, acceptance of a command; what each
can do. -/

namespace Sys2Proof.Machine

/-! ### The store read, once for both outcomes -/

theorem memRead_gives {d : Drive} {n : Nat} {e : Env} (h : storeGives d n e) :
    memRead d n e = (some (sectorOf d n e), storeEnv d n e) := by
  cases hc : cacheFind d.cache n with
  | some p => rw [memRead_hit hc]; simp [storeEnv, hc]
  | none =>
    have h2 : e.askTwice.1.2 = true := by simpa [storeGives, hc] using h
    rw [memRead_miss hc]; simp [storeEnv, hc, h2]

theorem memRead_fails {d : Drive} {n : Nat} {e : Env} (h : ¬ storeGives d n e) :
    memRead d n e = (none, storeEnv d n e) := by
  cases hc : cacheFind d.cache n with
  | some p => simp [storeGives, hc] at h
  | none =>
    have h2 : e.askTwice.1.2 = false := by simpa [storeGives, hc] using h
    rw [memRead_miss hc]; simp [storeEnv, hc, h2]

@[simp] theorem storeEnv_files (d : Drive) (n : Nat) (e : Env) : (storeEnv d n e).files = e.files := by
  unfold storeEnv; split <;> simp

@[simp] theorem storeEnv_freeUsed (d : Drive) (n : Nat) (e : Env) :
    (storeEnv d n e).freeUsed = e.freeUsed := by
  unfold storeEnv; split <;> simp

/-! ### The preamble -/

theorem preambleDrive_eq (d : Drive) : preambleDrive d = d.afterPreamble := by
  simp only [preambleDrive, Drive.afterPreamble, preambleStatus]
  congr 1

/-! ### The address -/

/-- Every accepted address is a sector of the drive (R206). -/
theorem address_lt {c : Channel} {d : Drive} {n : Nat} (h : address c d = some n) : n < d.total := by
  unfold address at h
  split at h
  · split at h
    · rename_i hlt; cases h; exact hlt
    · cases h
  · split at h
    · rename_i hv
      obtain ⟨h1, h2, h3, h4⟩ := hv
      cases h
      have h5 : c.cylinder.toNat * d.heads.toNat + c.headNibble.toNat + 1 ≤
          d.cylinders.toNat * d.heads.toNat := by nlinarith
      have h6 := Nat.mul_le_mul_right d.sectors.toNat h5
      simp only [Drive.total]
      rw [Nat.add_mul] at h6
      omega
    · cases h

/-! ### seek -/

theorem advanceLba_frame (c : Channel) :
    advanceLba c = { c with
      sector := (advanceLba c).sector, cylinderLow := (advanceLba c).cylinderLow
      cylinderHigh := (advanceLba c).cylinderHigh, head := (advanceLba c).head } := by
  unfold advanceLba; split
  · rfl
  · split
    · rfl
    · split <;> rfl

theorem advanceChs_frame (c : Channel) (d : Drive) :
    advanceChs c d = { c with
      sector := (advanceChs c d).sector, cylinderLow := (advanceChs c d).cylinderLow
      cylinderHigh := (advanceChs c d).cylinderHigh, head := (advanceChs c d).head } := by
  unfold advanceChs; split
  · split <;> rfl
  · rfl

theorem withNibble_high (head : Byte) (nibble : BitVec 4) :
    (withNibble head nibble).extractLsb' 4 4 = head.extractLsb' 4 4 := by
  unfold withNibble
  ext i hi
  rw [BitVec.getElem_extractLsb', BitVec.getElem_extractLsb']
  erw [BitVec.getLsbD_append]
  simp [hi]

theorem withNibble_low (head : Byte) (nibble : BitVec 4) :
    (withNibble head nibble).extractLsb' 0 4 = nibble := by
  unfold withNibble
  ext i hi
  rw [BitVec.getElem_extractLsb']
  erw [BitVec.getLsbD_append]
  simp [hi]

/-- Neither mode touches the upper half of HEAD. -/
theorem advance_head (c : Channel) (d : Drive) :
    (advance c d).head.extractLsb' 4 4 = c.head.extractLsb' 4 4 := by
  unfold advance; split
  · unfold advanceLba; split
    · rfl
    · split
      · rfl
      · split
        · rfl
        · exact withNibble_high _ _
  · unfold advanceChs; split
    · split <;> exact withNibble_high _ _
    · rfl

/-- What a successful seek writes: the count and the four address registers. -/
theorem seekAdvance_frame (d : Drive) (c : Channel) :
    seekAdvance d c = { c with
      sectorCount := c.sectorCount - 1
      sector := (seekAdvance d c).sector, cylinderLow := (seekAdvance d c).cylinderLow
      cylinderHigh := (seekAdvance d c).cylinderHigh, head := (seekAdvance d c).head } := by
  unfold seekAdvance; split
  · unfold advance; split
    · exact advanceLba_frame _
    · exact advanceChs_frame _ _
  · rfl

theorem seekAdvance_head (d : Drive) (c : Channel) :
    (seekAdvance d c).head.extractLsb' 4 4 = c.head.extractLsb' 4 4 := by
  unfold seekAdvance; split
  · rw [advance_head]
  · rfl

@[simp] theorem seekAdvance_databus (d : Drive) (c : Channel) :
    (seekAdvance d c).databus = c.databus := by rw [seekAdvance_frame]
@[simp] theorem seekAdvance_drive0 (d : Drive) (c : Channel) :
    (seekAdvance d c).drive0 = c.drive0 := by rw [seekAdvance_frame]
@[simp] theorem seekAdvance_drive1 (d : Drive) (c : Channel) :
    (seekAdvance d c).drive1 = c.drive1 := by rw [seekAdvance_frame]
@[simp] theorem seekAdvance_selected (d : Drive) (c : Channel) :
    (seekAdvance d c).selected = c.selected := by rw [seekAdvance_frame]
@[simp] theorem seekAdvance_feature (d : Drive) (c : Channel) :
    (seekAdvance d c).feature = c.feature := by rw [seekAdvance_frame]
@[simp] theorem seekAdvance_sectorCount (d : Drive) (c : Channel) :
    (seekAdvance d c).sectorCount = c.sectorCount - 1 := by rw [seekAdvance_frame]
@[simp] theorem seekAdvance_data2 (d : Drive) (c : Channel) :
    (seekAdvance d c).data2 = c.data2 := by rw [seekAdvance_frame]
@[simp] theorem seekAdvance_phase (d : Drive) (c : Channel) :
    (seekAdvance d c).phase = c.phase := by rw [seekAdvance_frame]
@[simp] theorem seekAdvance_datacounter (d : Drive) (c : Channel) :
    (seekAdvance d c).datacounter = c.datacounter := by rw [seekAdvance_frame]
@[simp] theorem seekAdvance_buffer (d : Drive) (c : Channel) :
    (seekAdvance d c).buffer = c.buffer := by rw [seekAdvance_frame]
@[simp] theorem seekAdvance_drive (d : Drive) (c : Channel) (u : DriveUnit) :
    (seekAdvance d c).drive u = c.drive u := by cases u <;> simp [Channel.drive]
@[simp] theorem seekAdvance_drv (d : Drive) (c : Channel) : (seekAdvance d c).drv = c.drv := by
  simp [Channel.drv]

theorem unitOfHead_high {a b : Byte} (h : a.extractLsb' 4 4 = b.extractLsb' 4 4) :
    unitOfHead a = unitOfHead b := by
  have h0 := congrArg (fun v : BitVec 4 => v.getLsbD 0) h
  simp at h0
  simp [unitOfHead, h0]

/-- seek keeps the selected unit in agreement with HEAD. -/
@[simp] theorem unitOfHead_seekAdvance (d : Drive) (c : Channel) :
    unitOfHead (seekAdvance d c).head = unitOfHead c.head := unitOfHead_high (seekAdvance_head d c)

/-! ### Changing the selected drive -/

/-- With a drive selected, a change of it is a write of its slot. -/
theorem mapDrv_eq {c : Channel} {d : Drive} (h : c.drv = some d) (f : Drive → Drive) :
    c.mapDrv f = c.setDrive c.selected (some (f d)) := by
  simp [Channel.mapDrv, h]

theorem setDrive_drv {c : Channel} {d : Option Drive} : (c.setDrive c.selected d).drv = d := by
  simp [Channel.drv]

@[simp] theorem setDrive_setDrive (c : Channel) (u : DriveUnit) (d d' : Option Drive) :
    (c.setDrive u d).setDrive u d' = c.setDrive u d' := by cases u <;> rfl

@[simp] theorem address_setDrive (c : Channel) (u : DriveUnit) (x : Option Drive) (d : Drive) :
    address (c.setDrive u x) d = address c d := by cases u <;> rfl

theorem advanceLba_setDrive (c : Channel) (u : DriveUnit) (x : Option Drive) :
    advanceLba (c.setDrive u x) = (advanceLba c).setDrive u x := by
  simp only [advanceLba, Channel.setDrive_sector, Channel.setDrive_cylinderLow,
    Channel.setDrive_cylinderHigh]
  by_cases h1 : c.sector + 1 ≠ 0
  · rw [if_pos h1, if_pos h1]; cases u <;> rfl
  · by_cases h2 : c.cylinderLow + 1 ≠ 0
    · rw [if_neg h1, if_neg h1, if_pos h2, if_pos h2]; cases u <;> rfl
    · by_cases h3 : c.cylinderHigh + 1 ≠ 0
      · rw [if_neg h1, if_neg h1, if_neg h2, if_neg h2, if_pos h3, if_pos h3]; cases u <;> rfl
      · rw [if_neg h1, if_neg h1, if_neg h2, if_neg h2, if_neg h3, if_neg h3]; cases u <;> rfl

theorem advanceChs_setDrive (c : Channel) (d : Drive) (u : DriveUnit) (x : Option Drive) :
    advanceChs (c.setDrive u x) d = (advanceChs c d).setDrive u x := by
  have hn : (c.setDrive u x).headNibble = c.headNibble := by cases u <;> rfl
  have hy : (c.setDrive u x).cylinder = c.cylinder := by cases u <;> rfl
  simp only [advanceChs, Channel.setDrive_sector, hn, hy]
  split
  · split <;> cases u <;> rfl
  · cases u <;> rfl

/-- seek reads no drive slot of the channel. -/
@[simp] theorem seekAdvance_setDrive (d : Drive) (c : Channel) (u : DriveUnit) (x : Option Drive) :
    seekAdvance d (c.setDrive u x) = (seekAdvance d c).setDrive u x := by
  have e : { c.setDrive u x with sectorCount := (c.setDrive u x).sectorCount - 1 } =
      { c with sectorCount := c.sectorCount - 1 }.setDrive u x := by cases u <;> rfl
  unfold seekAdvance
  rw [e, Channel.setDrive_sectorCount]
  by_cases h1 : c.sectorCount - 1 ≠ 0
  · rw [if_pos h1, if_pos h1]
    unfold advance
    by_cases h2 : c.lba = true
    · rw [if_pos (by cases u <;> exact h2), if_pos (by exact h2), advanceLba_setDrive]
    · rw [if_neg (by cases u <;> exact h2), if_neg (by exact h2), advanceChs_setDrive]
  · rw [if_neg h1, if_neg h1]

@[simp] theorem address_afterPreamble (c : Channel) (d : Drive) :
    address c d.afterPreamble = address c d := rfl

@[simp] theorem seekAdvance_afterPreamble (c : Channel) (d : Drive) :
    seekAdvance d.afterPreamble c = seekAdvance d c := rfl

@[simp] theorem sectorOf_afterPreamble (d : Drive) (n : Nat) (e : Env) :
    sectorOf d.afterPreamble n e = sectorOf d n e := rfl

@[simp] theorem storeGives_afterPreamble (d : Drive) (n : Nat) (e : Env) :
    storeGives d.afterPreamble n e ↔ storeGives d n e := .rfl

@[simp] theorem storeEnv_afterPreamble (d : Drive) (n : Nat) (e : Env) :
    storeEnv d.afterPreamble n e = storeEnv d n e := rfl

theorem setDrive_self {c : Channel} {u : DriveUnit} {d : Option Drive} (h : c.drive u = d) :
    c.setDrive u d = c := by subst h; cases u <;> rfl

/-- endTransfer with a drive selected: phase Ready, DRQ clear. -/
theorem endTransfer_eq {c : Channel} {d : Drive} (h : c.drv = some d) :
    endTransfer c =
      { c.setDrive c.selected (some { d with status := d.status &&& 0xF7 }) with phase := .ready } := by
  simp only [endTransfer, mapDrv_eq h]; rfl

/-- openTransfer with a drive selected: the phase, DRQ set, the counter at the start. -/
theorem openTransfer_eq {c : Channel} {d : Drive} (h : c.drv = some d) (p : Phase) :
    openTransfer p c =
      { c.setDrive c.selected (some { d with status := d.status ||| 0x08 }) with
        phase := p, datacounter := 0 } := by
  simp only [openTransfer, mapDrv_eq h]; rfl

/-- A sector received with a drive selected. -/
theorem receiveSector_eq {c : Channel} {d : Drive} (h : c.drv = some d) (v : Sector) :
    receiveSector v c =
      { c.setDrive c.selected (some { d with status := d.status ||| 0x08 }) with
        buffer := v, phase := .pioIn, datacounter := 0 } := by
  have h' : Channel.drv { c with buffer := v } = some d := by
    cases hs : c.selected <;> simpa [Channel.drv, Channel.drive, hs] using h
  rw [receiveSector, openTransfer_eq h']
  cases hs : c.selected <;> simp [Channel.setDrive, hs]

theorem rangeErrorByte_eq (p : Params) :
    rangeErrorByte p = if p.ataIdnfWithAbrt then 0x14 else 0x10 := by
  unfold rangeErrorByte; split <;> rfl

theorem readErrorByte_eq (p : Params) :
    readErrorByte p = if p.ataUncWithAbrt then 0x44 else 0x40 := by
  unfold readErrorByte; split <;> rfl

/-- An error recorded on the selected drive as its transfer ends. -/
theorem endTransfer_error {c : Channel} {d : Drive} (h : c.drv = some d) (code : Byte) :
    endTransfer (c.mapDrv (recordError code)) =
      { c.setDrive c.selected
          (some { d with status := (d.status ||| 0x01) &&& 0xF7, error := code }) with
        phase := .ready } := by
  rw [mapDrv_eq h, endTransfer_eq (d := recordError code d) setDrive_drv]
  simp only [setDrive_setDrive, Channel.setDrive_selected]
  rfl

/-! ### The data-bus policies -/

@[simp] theorem busRead_drv (c : Channel) : (busRead c).drv = c.drv := rfl
@[simp] theorem busRead_selected (c : Channel) : (busRead c).selected = c.selected := rfl
@[simp] theorem busRead_sectorCount (c : Channel) : (busRead c).sectorCount = c.sectorCount := rfl
@[simp] theorem busRead_phase (c : Channel) : (busRead c).phase = c.phase := rfl
@[simp] theorem busRead_datacounter (c : Channel) :
    (busRead c).datacounter = c.datacounter + busStep c.databus := rfl
@[simp] theorem address_busRead (c : Channel) (d : Drive) : address (busRead c) d = address c d := rfl
@[simp] theorem busWrite_drv (p : Params) (b : Byte) (c : Channel) : (busWrite p b c).drv = c.drv := rfl
@[simp] theorem busWrite_selected (p : Params) (b : Byte) (c : Channel) :
    (busWrite p b c).selected = c.selected := rfl
@[simp] theorem busWrite_sectorCount (p : Params) (b : Byte) (c : Channel) :
    (busWrite p b c).sectorCount = c.sectorCount := rfl
@[simp] theorem busWrite_phase (p : Params) (b : Byte) (c : Channel) :
    (busWrite p b c).phase = c.phase := rfl
@[simp] theorem busWrite_buffer (p : Params) (b : Byte) (c : Channel) :
    (busWrite p b c).buffer = busWriteBuffer p b c := rfl
@[simp] theorem busWrite_datacounter (p : Params) (b : Byte) (c : Channel) :
    (busWrite p b c).datacounter = c.datacounter + busStep c.databus := rfl
@[simp] theorem address_busWrite (p : Params) (b : Byte) (c : Channel) (d : Drive) :
    address (busWrite p b c) d = address c d := rfl

/-! ### Moving a sector -/

/-- load_sector with an address out of range: ERR and IDNF, the transfer ends. -/
theorem loadSector_range {d : Drive} {s : State} (h : address s.chan d = none) :
    loadSector d s = s.mapChan fun c => endTransfer (rangeError s.cfg c) := by
  simp [loadSector, h]

/-- load_sector when the store gives the sector. -/
theorem loadSector_gives {d : Drive} {s : State} {n : Nat} (h : address s.chan d = some n)
    (hg : storeGives d n s.env) :
    loadSector d s = { s with
      chan := receiveSector (sectorOf d n s.env) (seekAdvance d s.chan)
      env := storeEnv d n s.env } := by
  simp [loadSector, h, memRead_gives hg]

/-- load_sector when the store fails. -/
theorem loadSector_fails {d : Drive} {s : State} {n : Nat} (h : address s.chan d = some n)
    (hg : ¬ storeGives d n s.env) :
    loadSector d s = { s with
      chan := endTransfer ((seekAdvance d s.chan).mapDrv (recordError (readErrorByte s.cfg)))
      env := storeEnv d n s.env } := by
  simp [loadSector, h, memRead_fails hg]

/-- store_sector with an address out of range. -/
theorem storeSector_range {d : Drive} {s : State} (h : address s.chan d = none) :
    storeSector d s = s.mapChan fun c => endTransfer (rangeError s.cfg c) := by
  simp [storeSector, h]

/-- store_sector with a valid address: the sector in the cache, then the next buffer or the end. -/
theorem storeSector_valid {d : Drive} {s : State} {n : Nat} (h : address s.chan d = some n)
    (hd : s.chan.drv = some d) :
    storeSector d s = { s with
      chan :=
        if s.chan.sectorCount - 1 = 0 then
          { (seekAdvance d s.chan).setDrive s.chan.selected
              (some { memWrite d n s.chan.buffer with status := d.status &&& 0xF7 }) with
            phase := .ready }
        else
          { (seekAdvance d s.chan).setDrive s.chan.selected (some (memWrite d n s.chan.buffer)) with
            datacounter := 0 } } := by
  simp only [storeSector, h, nextBufferOrReady]
  rw [mapDrv_eq (c := seekAdvance d s.chan) (d := d) (by simpa using hd)]
  simp only [Channel.setDrive_sectorCount, seekAdvance_sectorCount]
  by_cases h1 : s.chan.sectorCount - 1 = 0
  · rw [if_pos h1, if_neg (by simpa using h1),
      endTransfer_eq (d := memWrite d n s.chan.buffer) setDrive_drv]
    simp
  · rw [if_neg h1, if_pos h1]; simp

/-- What load_sector cannot touch, whatever it meets. -/
theorem loadSector_frame (d : Drive) (s : State) :
    (loadSector d s).cfg = s.cfg ∧ (loadSector d s).card = s.card ∧
    (loadSector d s).inbox = s.inbox ∧ (loadSector d s).result = s.result ∧
    (loadSector d s).env.files = s.env.files ∧
    (loadSector d s).chan.selected = s.chan.selected ∧
    (∀ u, u ≠ s.chan.selected → (loadSector d s).chan.drive u = s.chan.drive u) := by
  cases h : address s.chan d with
  | none =>
    rw [loadSector_range h]
    refine ⟨rfl, rfl, rfl, rfl, rfl, ?_, ?_⟩
    · simp [rangeError]
    · intro u hu
      cases u <;> cases hs : s.chan.selected <;>
        simp_all [endTransfer, rangeError, Channel.mapDrv, Channel.drive, Channel.setDrive]
  | some n =>
    by_cases hg : storeGives d n s.env
    · rw [loadSector_gives h hg]
      refine ⟨rfl, rfl, rfl, rfl, by simp, ?_, ?_⟩
      · simp [receiveSector]
      · intro u hu
        cases u <;> cases hs : s.chan.selected <;>
          simp_all [receiveSector, openTransfer, Channel.mapDrv, Channel.drive, Channel.setDrive]
    · rw [loadSector_fails h hg]
      refine ⟨rfl, rfl, rfl, rfl, by simp, ?_, ?_⟩
      · simp
      · intro u hu
        cases u <;> cases hs : s.chan.selected <;>
          simp_all [endTransfer, Channel.mapDrv, Channel.drive, Channel.setDrive]

/-! ### Acceptance -/

/-- With no drive selected a command does nothing. -/
theorem acceptCommand_none {f : Drive → State → State} {s : State} (h : s.chan.drv = none) :
    acceptCommand f s = s := by simp [acceptCommand, h]

/-- Outside Ready a command does nothing. -/
theorem acceptCommand_busy {f : Drive → State → State} {s : State} (h : s.chan.phase ≠ .ready) :
    acceptCommand f s = s := by
  unfold acceptCommand; split
  · rfl
  · rw [if_neg h]

/-- In Ready with a drive selected the preamble runs, then the command. -/
theorem acceptCommand_ready {f : Drive → State → State} {s : State} {d : Drive}
    (h : s.chan.drv = some d) (hp : s.chan.phase = .ready) :
    acceptCommand f s =
      f d.afterPreamble
        { s with chan := s.chan.setDrive s.chan.selected (some d.afterPreamble) } := by
  simp [acceptCommand, h, hp, State.mapChan, mapDrv_eq h, preambleDrive_eq]

/-- A byte that is none of the seven opcodes is some other command. -/
theorem decodeAtaCmd_other {b : Byte} (h : b.toNat ∉ [0x20, 0x21, 0x30, 0x31, 0x91, 0xA1, 0xEC]) :
    decodeAtaCmd b = .ataCmdOther b := by
  simp only [List.mem_cons, List.not_mem_nil, or_false, not_or] at h
  unfold decodeAtaCmd
  split <;> first | (exfalso; omega) | rfl

theorem execAtaWrCommand_other {b : Byte} (h : b.toNat ∉ [0x20, 0x21, 0x30, 0x31, 0x91, 0xA1, 0xEC])
    (s : State) : execAtaWrCommand b s = execAtaCmdOther b s := by
  simp only [List.mem_cons, List.not_mem_nil, or_false, not_or] at h
  unfold execAtaWrCommand
  split <;> first | (exfalso; omega) | rfl

/-- A write to COMMAND and the instruction its byte decodes to are the same acceptance of one of the
five procedures. -/
theorem command_body (b : Byte) : ∃ body : Drive → State → State,
    (body = readBegin ∨ body = writeBegin ∨ body = identifyDevice ∨ body = initDeviceParams ∨
      body = abort) ∧
    ∀ s, exec (.ataWrCommand b) s = completes .nothing (acceptCommand body s) ∧
      exec (decodeAtaCmd b) s = completes .nothing (acceptCommand body s) := by
  by_cases h : b.toNat ∈ [0x20, 0x21, 0x30, 0x31, 0x91, 0xA1, 0xEC]
  · simp only [List.mem_cons, List.not_mem_nil, or_false] at h
    have hb : b = BitVec.ofNat 8 b.toNat := by simp
    rcases h with h | h | h | h | h | h | h <;> rw [h] at hb <;> subst hb
    · exact ⟨readBegin, by simp, fun s => ⟨rfl, rfl⟩⟩
    · exact ⟨readBegin, by simp, fun s => ⟨rfl, rfl⟩⟩
    · exact ⟨writeBegin, by simp, fun s => ⟨rfl, rfl⟩⟩
    · exact ⟨writeBegin, by simp, fun s => ⟨rfl, rfl⟩⟩
    · exact ⟨initDeviceParams, by simp, fun s => ⟨rfl, rfl⟩⟩
    · exact ⟨identifyDevice, by simp, fun s => ⟨rfl, rfl⟩⟩
    · exact ⟨identifyDevice, by simp, fun s => ⟨rfl, rfl⟩⟩
  · exact ⟨abort, by simp, fun s =>
      ⟨execAtaWrCommand_other h s, by rw [decodeAtaCmd_other h]; rfl⟩⟩

end Sys2Proof.Machine
end

