-- ==== Sys2Proof/Tests/Slice0.lean ====
section
/-! SUPPORT. The model's own tests: the well-formedness smoke test, words written out from the formats
of 30_encoding.md, single steps with the results that 95_test_vectors.md gives (its vector or example
is named with each), and one witness for every statement with hypotheses. -/

namespace Sys2Proof.Tests

open Sys2Proof.Machine

-- One theorem after the other: many kernel evaluations at once need a thread's stack each.
set_option Elab.async false

/-! ### Well-formedness: an ill-formed term for each check, refused; its neighbour, accepted -/

theorem test_wf_ata_opcode_of_another_row : (Instr.ataCmdOther 0x20).wellFormed = false := by decide
theorem test_wf_ata_opcode_free : (Instr.ataCmdOther 0xC8).wellFormed = true := by decide
theorem test_wf_index_of_another_row : (Instr.cmdOther 58 0 0).wellFormed = false := by decide
theorem test_wf_index_free : (Instr.cmdOther 41 0 0).wellFormed = true := by decide
theorem test_wf_app_index_of_another_row : (Instr.acmdOther 41 0 0).wellFormed = false := by decide
theorem test_wf_app_index_free : (Instr.acmdOther 17 0 0).wellFormed = true := by decide
theorem test_wf_ata_image_too_large : (Instr.ataInsert .slave 65536).wellFormed = false := by decide
theorem test_wf_mmc_image_too_large : (Instr.mmcInsert 65536).wellFormed = false := by decide
theorem test_wf_image_last : (Instr.mmcInsert 65535).wellFormed = true := by decide

/-! ### Decoding, from the formats of 30_encoding.md -/

/-- `T = w r r r r d d d d d d d d`, low byte first (R90, R91). -/
theorem test_decode_ata_reads :
    decode false ⟨.ataXact, [0x5A, 0b00000000]⟩ = .ok .ataRdData ∧
    decode false ⟨.ataXact, [0x00, 0b00000001]⟩ = .ok .ataRdError ∧
    decode false ⟨.ataXact, [0x00, 0b00000010]⟩ = .ok .ataRdSectorCount ∧
    decode false ⟨.ataXact, [0x00, 0b00000011]⟩ = .ok .ataRdSector ∧
    decode false ⟨.ataXact, [0x00, 0b00000100]⟩ = .ok .ataRdCylinderLow ∧
    decode false ⟨.ataXact, [0x00, 0b00000101]⟩ = .ok .ataRdCylinderHigh ∧
    decode false ⟨.ataXact, [0x00, 0b00000110]⟩ = .ok .ataRdHeadDrive ∧
    decode false ⟨.ataXact, [0x00, 0b00000111]⟩ = .ok .ataRdStatus ∧
    decode false ⟨.ataXact, [0x00, 0b00001000]⟩ = .ok .ataRdData2 := by decide

/-- The transactions of V20, V21, V22 and of programs P1 and P2. -/
theorem test_decode_ata_writes :
    decode false ⟨.ataXact, [0x11, 0b00010000]⟩ = .ok (.ataWrData 0x11) ∧
    decode false ⟨.ataXact, [0x55, 0b00010001]⟩ = .ok (.ataWrFeature 0x55) ∧
    decode false ⟨.ataXact, [0x09, 0b00010010]⟩ = .ok (.ataWrSectorCount 0x09) ∧
    decode false ⟨.ataXact, [0xFF, 0b00010011]⟩ = .ok (.ataWrSector 0xFF) ∧
    decode false ⟨.ataXact, [0x01, 0b00010100]⟩ = .ok (.ataWrCylinderLow 0x01) ∧
    decode false ⟨.ataXact, [0x80, 0b00010101]⟩ = .ok (.ataWrCylinderHigh 0x80) ∧
    decode false ⟨.ataXact, [0xF0, 0b00010110]⟩ = .ok (.ataWrHeadDrive 0xF0) ∧
    decode false ⟨.ataXact, [0x20, 0b00010111]⟩ = .ok (.ataWrCommand 0x20) ∧
    decode false ⟨.ataXact, [0x77, 0b00011000]⟩ = .ok (.ataWrData2 0x77) := by decide

/-- The opcodes of R97. -/
theorem test_decode_ata_commands :
    decode false ⟨.ataCmd, [0x20]⟩ = .ok .readSectorRetry ∧
    decode false ⟨.ataCmd, [0x21]⟩ = .ok .readSectorNoretry ∧
    decode false ⟨.ataCmd, [0x30]⟩ = .ok .writeSectorRetry ∧
    decode false ⟨.ataCmd, [0x31]⟩ = .ok .writeSectorNoretry ∧
    decode false ⟨.ataCmd, [0xEC]⟩ = .ok .identifyDriveAta ∧
    decode false ⟨.ataCmd, [0xA1]⟩ = .ok .identifyDriveAtapi ∧
    decode false ⟨.ataCmd, [0x91]⟩ = .ok .initializeDeviceParameters ∧
    decode false ⟨.ataCmd, [0xC8]⟩ = .ok (.ataCmdOther 0xC8) := by decide

/-- `S = 0x100 + b` writes, `S = 0x000` reads (R92). -/
theorem test_decode_spi :
    decode true ⟨.spiXact, [0x40, 0x01]⟩ = .ok (.spiWr 0x40) ∧
    decode true ⟨.spiXact, [0x00, 0x00]⟩ = .ok .spiRd ∧
    decode true ⟨.spiXact, [0x00, 0x02]⟩ = .error .reservedBits := by decide

/-- Frames of E6, E12, P4, P5 and the vectors of section 2.5. -/
theorem test_decode_frames :
    decode false ⟨.mmcFrame, [0x40, 0, 0, 0, 0, 0x95]⟩ = .ok (.cmd0GoIdleState 0 0x95) ∧
    decode false ⟨.mmcFrame, [0x48, 0, 0, 0x01, 0xAA, 0x87]⟩ = .ok (.cmd8SendIfCond 0x1AA 0x87) ∧
    decode false ⟨.mmcFrame, [0x49, 0, 0, 0, 0, 0xFF]⟩ = .ok (.cmd9SendCsd 0 0xFF) ∧
    decode false ⟨.mmcFrame, [0x4A, 0, 0, 0, 0, 0xFF]⟩ = .ok (.cmd10SendCid 0 0xFF) ∧
    decode false ⟨.mmcFrame, [0x51, 0x12, 0x34, 0x56, 0x78, 0xFF]⟩ =
      .ok (.cmd17ReadSingleBlock 0x12345678 0xFF) ∧
    decode false ⟨.mmcFrame, [0x58, 0, 0, 0, 0x07, 0xFF]⟩ = .ok (.cmd24WriteBlock 7 0xFF) ∧
    decode false ⟨.mmcFrame, [0x60, 0, 0, 0, 0x04, 0xFF]⟩ = .ok (.cmd32EraseWrBlkStart 4 0xFF) ∧
    decode false ⟨.mmcFrame, [0x61, 0, 0, 0, 0x07, 0xFF]⟩ = .ok (.cmd33EraseWrBlkEnd 7 0xFF) ∧
    decode false ⟨.mmcFrame, [0x66, 0, 0, 0, 0, 0xFF]⟩ = .ok (.cmd38Erase 0 0xFF) ∧
    decode false ⟨.mmcFrame, [0x77, 0, 0, 0, 0, 0x65]⟩ = .ok (.cmd55AppCmd 0 0x65) ∧
    decode false ⟨.mmcFrame, [0x7A, 0, 0, 0, 0, 0xFD]⟩ = .ok (.cmd58ReadOcr 0 0xFD) ∧
    decode false ⟨.mmcFrame, [0x50, 0, 0, 0x02, 0, 0xFF]⟩ = .ok (.cmdOther 16 0x200 0xFF) ∧
    decode true ⟨.mmcFrame, [0x69, 0x40, 0, 0, 0, 0x77]⟩ =
      .ok (.acmd41SdSendOpCond 0x40000000 0x77) ∧
    decode true ⟨.mmcFrame, [0x40, 0, 0, 0, 0, 0x95]⟩ = .ok (.acmdOther 0 0 0x95) ∧
    decode false ⟨.mmcFrame, [0xC0, 0, 0, 0, 0, 0x95]⟩ = .error (.notACommandByte 0xC0) := by decide

/-- Token, 512 bytes, two CRC bytes (R109). -/
theorem test_decode_data_block :
    (match decode false ⟨.mmcData, 0xFE :: (List.replicate 511 0xA5 ++ [0x5A, 0x12, 0x34])⟩ with
      | .ok (.mmcDataBlock data crc1 crc2) =>
        (byteAt data 0, byteAt data 510, byteAt data 511, crc1, crc2)
      | _ => (0, 0, 0, 0, 0)) = (0xA5, 0xA5, 0x5A, 0x12, 0x34) := by decide +kernel

/-- The selectors of R93. -/
theorem test_decode_host_calls :
    decode false ⟨.hostCall, [0, 2, 0, 0]⟩ = .ok (.ataNew .d16Byteswap) ∧
    decode false ⟨.hostCall, [1, 1, 0x34, 0x12]⟩ = .ok (.ataInsert .slave 0x1234) ∧
    decode false ⟨.hostCall, [2, 0, 0, 0]⟩ = .ok (.ataEject .master) ∧
    decode false ⟨.hostCall, [3, 1, 0, 0]⟩ = .ok (.ataCommit .slave) ∧
    decode false ⟨.hostCall, [4, 0, 0, 0]⟩ = .ok (.ataDirty .master) ∧
    decode false ⟨.hostCall, [8, 0, 0, 0]⟩ = .ok .mmcNew ∧
    decode false ⟨.hostCall, [9, 0, 5, 0]⟩ = .ok (.mmcInsert 5) ∧
    decode false ⟨.hostCall, [10, 0, 0, 0]⟩ = .ok .mmcEject ∧
    decode false ⟨.hostCall, [11, 0, 0, 0]⟩ = .ok .mmcCommit ∧
    decode false ⟨.hostCall, [12, 0, 0, 0]⟩ = .ok .mmcDirty ∧
    decode false ⟨.hostCall, [5, 0, 0, 0]⟩ = .error (.noSuchCall 5) := by decide

/-- Register indices 9 to 15 are no transactions (R90). -/
theorem test_decode_no_register :
    decode false ⟨.ataXact, [0x00, 0x09]⟩ = .error (.noSuchRegister 9) ∧
    decode false ⟨.ataXact, [0x00, 0x1F]⟩ = .error (.noSuchRegister 15) ∧
    decode false ⟨.ataXact, [0x00, 0x20]⟩ = .error .reservedBits := by decide

/-- Numbers of spec/opcode_table.json. -/
theorem test_table_words :
    decodeTableWord 16 0x1200 = some (.ataWrSectorCount 0) ∧
    decodeTableWord 8 0xEC = some .identifyDriveAta ∧
    decodeTableWord 8 0x0C = some .mmcDirty ∧
    decodeTableWord 16 0x1FF = some (.spiWr 0xFF) ∧
    decodeTableWord 48 0x48000001AA87 = some (.cmd8SendIfCond 0x1AA 0x87) ∧
    decodeTableWord 48 0x694000000077 = some (.acmd41SdSendOpCond 0x40000000 0x77) := by
  decide +kernel

/-! ### Small states -/

/-- The default parameters (R10), with one value each for the two that have no default. -/
def cfg0 : Params := { paramsDefault with mmcResetIdle := false, mmcCid := Vector.replicate 16 0xC1 }

/-- The drive of `IMG(C, H, S)` of 95_test_vectors.md as inserted, its identity zero but for words 1,
3, 6 and for byte 99. -/
def drive0 (c h s : BitVec 16) (byte99 : Byte) (cache : Cache) : Drive :=
  { image := 1, dataOffset := 128, sectorSize := .s512, cylinders := c, heads := h, sectors := s
    identity := setByte (setWord (setWord (setWord (Vector.replicate 106 0) 1 c) 3 h) 6 s) 99 byte99
    error := 0x01, status := 0x40, cache }

/-- `IMG(8, 4, 16)`. -/
def drive8 (cache : Cache) : Drive := drive0 8 4 16 0x00 cache

/-- A channel with its master slot as given, addressing CHS (0, 0, 1) with count 1. -/
def chan0 (databus : Databus) (d : Option Drive) : Channel :=
  { databus, drive0 := d, drive1 := none, selected := .master, feature := 0, sectorCount := 0x01,
    sector := 0x01, cylinderLow := 0x00, cylinderHigh := 0x00, head := 0x00, data2 := 0x33,
    phase := .ready, datacounter := 0, buffer := Vector.replicate 512 0x6E }

/-- A card controller that waits for a command, its slot as given. -/
def card0 (slot : Option Medium) : Card :=
  { Card.fresh cfg0 0 0 0 0 0 (Vector.replicate 512 0x5D) (Vector.replicate 516 0x4C) 0 0 with slot }

/-- `IMG(2, 16, 32)` as a card: 1024 sectors (V12). -/
def medium0 (cache : Cache) : Medium :=
  { drive := { drive0 2 16 32 0x00 cache with image := 2 }, totalSectors := 1024, cSize := 0 }

/-- A state of these, its files as given, answering yes to the next four file operations. -/
def state0 (c : Channel) (k : Card) (files : Mem) : State :=
  { cfg := cfg0, chan := c, card := k
    env := { files, fileScript := [true, true, true, true], fileAsked := 0, freeUsed := 0 }
    inbox := [], result := .nothing }

/-- ATA: the drive IMG(8,4,16) in the master slot, no card. -/
def ata (databus : Databus) (cache : Cache) (files : Mem) : State :=
  state0 (chan0 databus (some (drive8 cache))) (card0 none) files

/-- The same with the channel changed. -/
def ataIn (databus : Databus) (cache : Cache) (f : Channel → Channel) : State :=
  (ata databus cache []).mapChan f

/-- MMC: the card IMG(2,16,32), no drive. -/
def mmc (f : Card → Card) (files : Mem) : State :=
  state0 (chan0 .d16 none) (f (card0 (some (medium0 [])))) files

/-- What a step that completes leaves, of the fields asked for. -/
def after {α : Type} (f : State → α) (o : Host.Outcome State Fault Refusal) : Option α :=
  match o with
  | .next s => some (f s)
  | .fault _ => none
  | .refused _ => none

/-- Status, error and phase of the selected drive. -/
def seen (s : State) : Option (Byte × Byte × Phase) :=
  s.chan.drv.map fun d => (d.status, d.error, s.chan.phase)

/-- The response bytes pending in the card. -/
def reply (o : Host.Outcome State Fault Refusal) : Option (List Byte) := after (fun s => s.card.pending) o

/-! ### ATA register access -/

/-- V110. -/
theorem test_reads_after_insert :
    after State.result (exec .ataRdSectorCount (ata .d16 [] [])) = some (.byte 0x01) ∧
    after State.result (exec .ataRdSector (ata .d16 [] [])) = some (.byte 0x01) ∧
    after State.result (exec .ataRdCylinderLow (ata .d16 [] [])) = some (.byte 0x00) ∧
    after State.result (exec .ataRdCylinderHigh (ata .d16 [] [])) = some (.byte 0x00) ∧
    after State.result (exec .ataRdHeadDrive (ata .d16 [] [])) = some (.byte 0x00) ∧
    after State.result (exec .ataRdStatus (ata .d16 [] [])) = some (.byte 0x40) ∧
    after State.result (exec .ataRdError (ata .d16 [] [])) = some (.byte 0x01) ∧
    after State.result (exec .ataRdData (ata .d16 [] [])) = some (.byte 0xFF) := by decide +kernel

/-- V26, the second half. -/
theorem test_read_data2 :
    after State.result (exec .ataRdData2 (ata .d16 [] [])) = some (.byte 0x33) := by decide +kernel

/-- V20, V21, P1 steps 3 to 5, V26. -/
theorem test_writes :
    after (fun s => s.chan.sectorCount) (exec (.ataWrSectorCount 0x09) (ata .d16 [] [])) = some 0x09 ∧
    after (fun s => s.chan.feature) (exec (.ataWrFeature 0x55) (ata .d16 [] [])) = some 0x55 ∧
    after (fun s => s.chan.sector) (exec (.ataWrSector 0xFF) (ata .d16 [] [])) = some 0xFF ∧
    after (fun s => s.chan.cylinderLow) (exec (.ataWrCylinderLow 0x08) (ata .d16 [] [])) = some 0x08 ∧
    after (fun s => s.chan.cylinderHigh) (exec (.ataWrCylinderHigh 0x07) (ata .d16 [] [])) =
      some 0x07 ∧
    after (fun s => s.chan.data2) (exec (.ataWrData2 0x77) (ata .d16 [] [])) = some 0x77 := by
  decide +kernel

/-- V22: HEAD_DRIVE selects, and the reads of an empty slot. -/
theorem test_head_drive_selects :
    after (fun s => (s.chan.head, s.chan.selected)) (exec (.ataWrHeadDrive 0xF0) (ata .d16 [] [])) =
      some (0xF0, .slave) ∧
    after State.result (exec .ataRdStatus (ataIn .d16 [] fun c => { c with selected := .slave })) =
      some (.byte 0xFF) := by decide +kernel

/-- V30 to V33: the second DATA read of sector 2 of the image. -/
theorem test_data_read_policies :
    [Databus.d8, .d16, .d16Byteswap, .d16Data2].map (fun b =>
      after (fun s => (s.result, s.chan.datacounter, s.chan.data2))
        (exec .ataRdData (ataIn b [] fun c => { c with
          phase := .pioIn, datacounter := busStep b
          buffer := blockOf 512 [0x0E, 0x0F, 0x10, 0x11, 0x12, 0x13] }))) =
      [some (.byte 0x10, 4, 0x33), some (.byte 0x0F, 2, 0x33), some (.byte 0x0E, 2, 0x33),
        some (.byte 0x10, 4, 0x11)] := by decide +kernel

/-- V34 to V37: the second DATA write. -/
theorem test_data_write_policies :
    [Databus.d8, .d16, .d16Byteswap, .d16Data2].map (fun b =>
      after (fun s => (s.chan.buffer.toList.take 4, s.chan.datacounter))
        (exec (.ataWrData 0xA1) (ataIn b [] fun c => { c with
          phase := .pioOut, datacounter := busStep b, data2 := 0xB1
          buffer := blockOf 512 [0xA0, 0xB0, 0xC0, 0xD0] }))) =
      [some ([0xA0, 0xB0, 0xA1, 0xFF], 4), some ([0xA0, 0xA1, 0xC0, 0xD0], 2),
        some ([0xA1, 0xB0, 0xC0, 0xD0], 2), some ([0xA0, 0xB0, 0xA1, 0xB1], 4)] := by decide +kernel

/-- Before the 512th write of V35. -/
def lastWrite : State := ataIn .d16 [] fun c => { c with
  phase := .pioOut, datacounter := 511, head := 0xE0, sector := 0x02
  buffer := Vector.replicate 512 0x9E
  drive0 := some { drive8 [] with status := 0x48, error := 0x00 } }

/-- V35, the 512th write: the buffer is cached as sector 2, the transfer ends. -/
theorem test_data_write_last :
    after (fun s => (seen s, s.chan.sectorCount, s.chan.sector, s.chan.datacounter))
      (exec (.ataWrData 0x9F) lastWrite) = some (some (0x40, 0x00, .ready), 0x00, 0x02, 512) ∧
    after (fun s => s.chan.drv.map fun d => d.cache.map fun x => (x.1, x.2.drop 509))
      (exec (.ataWrData 0x9F) lastWrite) = some (some [(2, [0x9E, 0x9E, 0x9F])]) := by decide +kernel

/-- V63, the 512th read: the reload finds the store failing. -/
theorem test_data_read_reload_fails :
    after (fun s => (s.result, seen s, s.chan.sectorCount, s.chan.sector))
      (exec .ataRdData { ataIn .d16 [] fun c => { c with
          phase := .pioIn, datacounter := 511, head := 0xE0, sectorCount := 0x01, sector := 0x0B
          drive0 := some { drive8 [] with status := 0x48, error := 0x00 } } with
        env := { files := [], fileScript := [true, false], fileAsked := 0, freeUsed := 0 } }) =
      some (.byte 0x6E, some (0x41, 0x40, .ready), 0x00, 0x0B) := by decide +kernel

/-! ### ATA commands -/

/-- P1 step 6 (V58 in CHS is V60): LBA 0xFF of three, carry into CYLINDER_LOW. -/
theorem test_read_lba_carry :
    after (fun s => (seen s, [s.chan.sectorCount, s.chan.sector, s.chan.cylinderLow,
        byteAt s.chan.buffer 0, byteAt s.chan.buffer 1]))
      (exec .readSectorRetry { ata .d8 [] [(fileAddr 1 (128 + 255 * 512), 0xF9)] with
        chan := { chan0 .d8 (some (drive8 [])) with
          head := 0xE0, sectorCount := 0x03, sector := 0xFF, datacounter := 77 } }) =
      some (some (0x48, 0x00, .pioIn), [0x02, 0x00, 0x01, 0xF9, 0x00]) := by decide +kernel

/-- V57. -/
theorem test_read_noretry_range :
    after seen (exec .readSectorNoretry (ataIn .d16 [] fun c => { c with
      head := 0x40, sector := 0x00, cylinderLow := 0x02 })) = some (some (0x41, 0x10, .ready)) := by
  decide +kernel

/-- V60: CHS (7, 3, 16) of two steps past the last cylinder. -/
theorem test_read_chs_wrap :
    after (fun s => (s.chan.sectorCount, s.chan.sector, s.chan.head, s.chan.cylinderLow))
      (exec .readSectorRetry (ataIn .d16 [] fun c => { c with
        head := 0x03, sectorCount := 0x02, sector := 0x10, cylinderLow := 0x07 })) =
      some (0x01, 0x01, 0x00, 0x08) := by decide +kernel

/-- V59, the command: no address check. -/
theorem test_write_commands :
    after seen (exec .writeSectorRetry (ataIn .d16 [] fun c => { c with
      head := 0x40, sector := 0x00, cylinderLow := 0x02 })) = some (some (0x48, 0x00, .pioOut)) ∧
    after seen (exec .writeSectorNoretry (ata .d16 [] [])) = some (some (0x48, 0x00, .pioOut)) := by
  decide +kernel

/-- V65: IDENTIFY with the LBA capability. -/
theorem test_identify_ata :
    after (fun s => (seen s, s.chan.sectorCount, s.chan.buffer.toList.take 14,
        (s.chan.buffer.toList.drop 98).take 26))
      (exec .identifyDriveAta (ataIn .d16 [] fun c => { c with
        drive0 := some (drive0 8 4 16 0x02 []) })) =
      some (some (0x48, 0x00, .pioIn), 0x00,
        [0x00, 0x00, 0x08, 0x00, 0x00, 0x00, 0x04, 0x00, 0x00, 0x00, 0x00, 0x00, 0x10, 0x00],
        [0x00, 0x02, 0x00, 0x00, 0x00, 0x00, 0x00, 0x00, 0x00, 0x00, 0x08, 0x00, 0x04, 0x00, 0x10, 0x00,
          0x00, 0x02, 0x00, 0x00, 0x00, 0x00, 0x00, 0x02, 0x00, 0x00]) := by decide +kernel

/-- V66: without it. -/
theorem test_identify_atapi :
    after (fun s => (s.chan.sectorCount, (s.chan.buffer.toList.drop 120).take 4))
      (exec .identifyDriveAtapi (ata .d16 [] [])) = some (0x00, [0x00, 0x00, 0x00, 0x00]) := by
  decide +kernel

/-- V52. -/
theorem test_initialize_device_parameters :
    after (fun s => (seen s, s.chan.drv.map fun d => d.heads))
      (exec .initializeDeviceParameters (ataIn .d16 [] fun c => { c with
        drive0 := some { drive8 [] with status := 0x41, error := 0x10 } })) =
      some (some (0x40, 0x00, .ready), some 4) := by decide +kernel

/-- V50, by the opcode and by the register write; V64. -/
theorem test_other_opcode :
    after seen (exec (.ataCmdOther 0xC8) (ata .d16 [] [])) = some (some (0x41, 0x04, .ready)) ∧
    after seen (exec (.ataWrCommand 0xC8) (ata .d16 [] [])) = some (some (0x41, 0x04, .ready)) ∧
    after seen (exec (.ataWrCommand 0xC8) (ataIn .d16 [] fun c => { c with
      phase := .pioIn, datacounter := 1
      drive0 := some { drive8 [] with status := 0x48, error := 0x00 } })) =
      some (some (0x48, 0x00, .pioIn)) := by decide +kernel

/-! ### SPI bytes -/

/-- V71, V72. -/
theorem test_spi_wr_command_byte :
    after (fun s => (s.card.commandState, s.card.currentCommand)) (exec (.spiWr 0x7F) (mmc id [])) =
      some (.waitingForData0, 63) ∧
    after (fun s => s.card.commandState) (exec (.spiWr 0x80) (mmc id [])) =
      some .waitingForCommand := by decide +kernel

/-- E6, V74: the byte, then 0xFF. -/
theorem test_spi_rd :
    after (fun s => (s.result, s.card.rd)) (exec .spiRd (mmc (respond [0x01]) [])) =
      some (.byte 0x01, 1) ∧
    after (fun s => (s.result, s.card.rd)) (exec .spiRd (mmc (fun c => { c with rd := 1, wr := 1 }) [])) =
      some (.byte 0xFF, 1) := by decide +kernel

/-! ### MMC commands -/

/-- A card in the idle state. -/
def idle (c : Card) : Card := { c with r1Status := 0x01 }

/-- E6; V102: with an open erase sequence. -/
theorem test_cmd0 :
    reply (exec (.cmd0GoIdleState 0 0x95) (mmc id [])) = some [0x01] ∧
    reply (exec (.cmd0GoIdleState 0 0x95) (mmc (fun c => { c with eraseSequence := .started }) [])) =
      some [0x03] := by decide +kernel

/-- P4 step 2. -/
theorem test_cmd8 :
    reply (exec (.cmd8SendIfCond 0x1AA 0x87) (mmc idle [])) = some [0x01, 0x00, 0x00, 0x01, 0xAA] := by
  decide +kernel

/-- V81, V87. -/
theorem test_cmd9 :
    reply (exec (.cmd9SendCsd 0 0xFF) (mmc idle [])) = some [0x05] ∧
    reply (exec (.cmd9SendCsd 0 0xFF)
        (mmc (fun c => { c with slot := some { medium0 [] with cSize := 1023 } }) [])) =
      some [0x00, 0xFE, 0x40, 0x00, 0x00, 0x00, 0x00, 0x09, 0x00, 0x00, 0x03, 0xFF, 0x00, 0x00, 0x00,
        0x00, 0x00, 0x00, 0x00, 0x00] := by decide +kernel

/-- V82; R265 with the CID of these tests. -/
theorem test_cmd10 :
    reply (exec (.cmd10SendCid 0 0xFF) (mmc idle [])) = some [0x05] ∧
    reply (exec (.cmd10SendCid 0 0xFF) (mmc id [])) =
      some ([0x00, 0xFE] ++ List.replicate 16 0xC1 ++ [0x00, 0x00]) := by decide +kernel

/-- V89 at the last sector; V90 one behind it. -/
theorem test_cmd17 :
    (reply (exec (.cmd17ReadSingleBlock 0x3FF 0xFF) (mmc id [(fileAddr 2 (128 + 1023 * 512), 0xF9)]))).map
      (fun l => (l.take 4, l.length)) = some ([0x00, 0xFE, 0xF9, 0x00], 516) ∧
    reply (exec (.cmd17ReadSingleBlock 0x400 0xFF) (mmc id [])) = some [0x40] := by decide +kernel

/-- V104, V105: the data phase opens whatever the outcome. -/
theorem test_cmd24 :
    after (fun s => (s.card.pending, s.card.commandState)) (exec (.cmd24WriteBlock 0x400 0xFF) (mmc id [])) =
      some ([0x40], .waitingForDataToken) ∧
    after (fun s => (s.card.pending, s.card.commandState)) (exec (.cmd24WriteBlock 2 0xFF) (mmc idle [])) =
      some ([0x05], .waitingForDataToken) := by decide +kernel

/-- P5 step 5; V99. -/
theorem test_cmd32 :
    after (fun s => (s.card.pending, s.card.eraseSequence, s.card.eraseStart))
      (exec (.cmd32EraseWrBlkStart 4 0xFF) (mmc id [])) = some ([0x00], .started, 4) ∧
    after (fun s => (s.card.pending, s.card.eraseSequence))
      (exec (.cmd32EraseWrBlkStart 9 0xFF) (mmc (fun c => { c with eraseSequence := .started }) [])) =
      some ([0x10], .closed) := by decide +kernel

/-- P5 step 6; V98. -/
theorem test_cmd33 :
    after (fun s => (s.card.pending, s.card.eraseSequence, s.card.eraseEnd))
      (exec (.cmd33EraseWrBlkEnd 7 0xFF)
        (mmc (fun c => { c with eraseSequence := .started, eraseStart := 4 }) [])) =
      some ([0x00], .ended, 7) ∧
    after (fun s => (s.card.pending, s.card.eraseSequence))
      (exec (.cmd33EraseWrBlkEnd 3 0xFF)
        (mmc (fun c => { c with eraseSequence := .started, eraseStart := 9 }) [])) =
      some ([0x40], .closed) := by decide +kernel

/-- V103; E8. -/
theorem test_cmd38 :
    after (fun s => (s.card.pending, s.card.slot.map fun m => m.drive.cache.map fun x =>
        (x.1, x.2.length, x.2.all (· == 0)))) (exec (.cmd38Erase 0 0xFF)
      (mmc (fun c => { c with eraseSequence := .ended, eraseStart := 4, eraseEnd := 5 }) [])) =
      some ([0x00, 0x01], some [(4, 512, true), (5, 512, true)]) ∧
    reply (exec (.cmd38Erase 0 0xFF) (mmc id [])) = some [0x10] := by decide +kernel

/-- V95: APP_CMD, and APP_CMD after APP_CMD. -/
theorem test_cmd55 :
    after (fun s => (s.card.pending, s.card.cmd55Issued)) (exec (.cmd55AppCmd 0 0xFF) (mmc id [])) =
      some ([0x00], true) ∧
    after (fun s => (s.card.pending, s.card.cmd55Issued))
      (exec (.cmd55AppCmd 0 0xFF) (mmc (fun c => { c with cmd55Issued := true }) [])) =
      some ([0x04], false) := by decide +kernel

/-- V92. -/
theorem test_cmd58 :
    reply (exec (.cmd58ReadOcr 0 0xFD) (mmc id [])) = some [0x00, 0xC0, 0x00, 0x00, 0x00] := by
  decide +kernel

/-- V93; V101: with an open erase sequence. -/
theorem test_cmd_other :
    reply (exec (.cmdOther 16 0x200 0xFF) (mmc id [])) = some [0x04] ∧
    reply (exec (.cmdOther 16 0x200 0xFF) (mmc (fun c => { c with eraseSequence := .started }) [])) =
      some [0x06] := by decide +kernel

/-- V84, V85. -/
theorem test_acmd41 :
    reply (exec (.acmd41SdSendOpCond 0 0xFF)
      (mmc (fun c => { idle c with cmd8Issued := true, cmd55Issued := true }) [])) = some [0x01] ∧
    reply (exec (.acmd41SdSendOpCond 0x40000000 0x77)
      (mmc (fun c => { idle c with cmd8Issued := true, cmd55Issued := true }) [])) = some [0x00] := by
  decide +kernel

/-- V96, V106. -/
theorem test_acmd_other :
    reply (exec (.acmdOther 0 0 0x95) (mmc (fun c => { c with cmd55Issued := true }) [])) = some [0x04] ∧
    after (fun s => (s.card.pending, s.card.commandState))
      (exec (.acmdOther 24 2 0xFF) (mmc (fun c => { c with cmd55Issued := true }) [])) =
      some ([0x04], .waitingForCommand) := by decide +kernel

/-- V77: the block FE ... FE; V104: out of range. -/
theorem test_data_block :
    after (fun s => (s.card.pending, s.card.slot.map fun m => m.drive.cache.map fun x =>
        (x.1, x.2.length, x.2.all (· == 0xFE))))
      (exec (.mmcDataBlock (Vector.replicate 512 0xFE) 0 0)
        (mmc (fun c => { c with commandState := .waitingForDataToken, arg3 := 7 }) [])) =
      some ([0x05, 0x01], some [(7, 512, true)]) := by
  show after _ (completes .nothing (spiWrites (dataBlockBytes _ 0 0) _)) = _
  rw [spiWrites_dataBlock rfl rfl]
  decide +kernel

theorem test_data_block_out_of_range :
    after (fun s => (s.card.pending, s.card.slot.map fun m => m.drive.cache))
      (exec (.mmcDataBlock (Vector.replicate 512 0xFE) 0 0)
        (mmc (fun c => { c with commandState := .waitingForDataToken, arg2 := 4 }) [])) =
      some ([0x40], some []) := by decide +kernel

/-! ### Host calls -/

/-- The header of `IMG(C, H, S)`, C, H, S below 256, and of `IMG256` with flag 1 (R62). -/
def header (image : Nat) (id flags c h s : Byte) : Mem :=
  [0x52, 0x53, 0x2D, 0x49, 0x44, 0x45, id].mapIdx (fun i b => (fileAddr image i, b)) ++
    (if flags = 0 then [] else [(fileAddr image 8, flags)]) ++
    [(fileAddr image 9, 0x80), (fileAddr image 24, c), (fileAddr image 28, h), (fileAddr image 34, s)]

/-- A state with empty slots and one image file. -/
def files (m : Mem) : State := state0 (chan0 .d16 none) (card0 none) m

/-- R50, V110; V113. -/
theorem test_new :
    after (fun s => (s.chan.databus, s.chan.sectorCount, s.chan.head, s.chan.drive0.isNone))
      (exec (.ataNew .d8) (ata .d16 [] [])) = some (.d8, 0x01, 0x00, true) ∧
    after (fun s => (s.card.slot.isNone, s.card.r1Status, s.card.rd, s.card.wr))
      (exec .mmcNew (mmc idle [])) = some (true, 0x00, 0, 0) := by decide +kernel

/-- V14; V9: the id byte. -/
theorem test_ata_insert :
    after State.result (exec (.ataInsert .master 1) (files (header 1 0x1A 0x01 8 4 16))) = some .ok ∧
    after (fun s => s.chan.drive0.map fun d => (d.sectorSize, [d.dataOffset, d.cylinders.toNat,
      d.heads.toNat, d.sectors.toNat, d.status.toNat, d.error.toNat]))
      (exec (.ataInsert .master 1) (files (header 1 0x1A 0x01 8 4 16))) =
      some (some (.s256, [128, 8, 4, 16, 0x40, 0x01])) ∧
    after (fun s => (s.result, s.chan.drive0.isNone))
      (exec (.ataInsert .master 1) (files (header 1 0x1B 0x00 8 4 16))) =
      some (.error .invalidFormat, true) := by decide +kernel

/-- V12; V10. -/
theorem test_mmc_insert :
    after (fun s => (s.result, s.card.slot.map fun m => (m.totalSectors, m.cSize)))
      (exec (.mmcInsert 1) (files (header 1 0x1A 0x00 2 16 32))) = some (.ok, some (1024, 0)) ∧
    after (fun s => (s.result, s.card.slot.isNone))
      (exec (.mmcInsert 1) (files (header 1 0x1A 0x00 8 4 16))) =
      some (.error .insertRejected, true) := by decide +kernel

/-- V1, V2; V4: a failed write keeps the entry. -/
theorem test_dirty_and_failed_commit :
    after State.result (exec (.ataDirty .master) (ata .d16 [] [])) = some (.flag false) ∧
    after State.result (exec (.ataDirty .master) (ata .d16 [(5, [1])] [])) = some (.flag true) ∧
    after (fun s => s.chan.drive0.map fun d => d.cache)
      (exec (.ataCommit .master) { ata .d16 [(5, [0xAB, 0xCD])] [] with
        env := { files := [], fileScript := [false], fileAsked := 0, freeUsed := 0 } }) =
      some (some [(5, [0xAB, 0xCD])]) := by decide +kernel

/-- V3; P5 steps 13 and 14, on an entry of two bytes. -/
theorem test_commit :
    after (fun s => s.chan.drive0.map fun d => d.cache)
      (exec (.ataCommit .master) (ata .d16 [(5, [0xAB, 0xCD])] [])) = some (some []) ∧
    after (fun s => s.env.files) (exec (.ataCommit .master) (ata .d16 [(5, [0xAB, 0xCD])] [])) =
      some [(fileAddr 1 (128 + 5 * 512), 0xAB), (fileAddr 1 (128 + 5 * 512 + 1), 0xCD)] ∧
    after (fun s => s.env.files)
      (exec .mmcCommit (mmc (fun c => { c with slot := some (medium0 [(0, [0xAB])]) }) [])) =
      some [(fileAddr 2 128, 0xAB)] ∧
    after State.result (exec .mmcDirty (mmc (fun c => { c with slot := some (medium0 [(0, [1])]) }) [])) =
      some (.flag true) := by decide +kernel

/-- V115: eject drops the cache. -/
theorem test_eject :
    after (fun s => (s.chan.drive0.isNone, s.env.files))
      (exec (.ataEject .master) (ata .d16 [(5, [1])] [])) = some (true, []) ∧
    after (fun s => (s.card.slot.isNone, s.card.r1Status)) (exec .mmcEject (mmc idle [])) =
      some (true, 0x01) := by decide +kernel

/-- The refusal an operation ends in. -/
def refusal (o : Host.Outcome State Fault Refusal) : Option Refusal :=
  match o with
  | .next _ => none
  | .fault _ => none
  | .refused r => some r

/-- The host duties of R141, each broken once; R314. -/
theorem test_duties :
    refusal (exec (.ataInsert .master 7) (ata .d16 [] [])) = some .slotOccupied ∧
    refusal (exec (.ataEject .slave) (ata .d16 [] [])) = some .slotEmpty ∧
    refusal (exec (.ataEject .master) (ataIn .d16 [] fun c => { c with phase := .pioOut })) =
      some .transferOpen ∧
    refusal (exec .mmcEject (mmc (fun c => { c with commandState := .waitingForDataToken }) [])) =
      some .frameOpen ∧
    refusal (exec (.ataInsert .slave 2) (mmc id [])) = some .imageShared := by decide +kernel

/-- The step takes the oldest operation; a table number placed after reset is the next one run. -/
theorem test_step :
    after (fun s => (s.result, s.inbox)) (step { ata .d16 [] [] with
      inbox := [⟨.ataXact, [0x00, 0x07]⟩, ⟨.ataXact, [0x00, 0x01]⟩] }) =
      some (.byte 0x40, [⟨.ataXact, [0x00, 0x01]⟩]) ∧
    after (fun s => s.chan.sectorCount) (step (State.reset.withFetchWord 16 0x1209)) = some 0x09 ∧
    after (fun s => s.result) (step (State.reset.withFetchWord 16 0x0700)) = some (.byte 0xFF) := by
  decide +kernel

/-- E5: three seeks over a carry into CYLINDER_LOW. -/
theorem test_seek_three :
    (let c := { chan0 .d16 none with head := 0xE0, sectorCount := 0x03, sector := 0xFF }
     let c1 := seekAdvance (drive8 []) c
     let c2 := seekAdvance (drive8 []) c1
     let c3 := seekAdvance (drive8 []) c2
     [(address c (drive8 []), c1.sectorCount, c1.sector, c1.cylinderLow),
       (address c1 (drive8 []), c2.sectorCount, c2.sector, c2.cylinderLow),
       (address c2 (drive8 []), c3.sectorCount, c3.sector, c3.cylinderLow)]) =
      [(some 0xFF, 0x02, 0x00, 0x01), (some 0x100, 0x01, 0x01, 0x01),
        (some 0x101, 0x00, 0x01, 0x01)] := by decide +kernel

/-- E10, V7: a 256-byte sector. -/
theorem test_packing :
    ((unpack .s256 [0x07, 0x08, 0x09]).toList.take 6, (pack .s256
      (blockOf 512 [0x00, 0xAA, 0x01, 0xBB, 0x02, 0xCC])).take 3) =
      ([0x07, 0xFF, 0x08, 0xFF, 0x09, 0xFF], [0x00, 0x01, 0x02]) := by decide +kernel

/-! ### Witnesses: a state and operands that meet all hypotheses of a statement -/

theorem witness_StepRunsDecodedInstruction : ∃ (s : State) (x : Xact) (rest : List Xact) (i : Instr),
    s.inbox = x :: rest ∧ decode s.card.cmd55Issued x = .ok i ∧ i.wellFormed = true :=
  ⟨{ ata .d16 [] [] with inbox := [⟨.ataXact, [0x09, 0x12]⟩, ⟨.ataXact, [0x00, 0x02]⟩] },
    ⟨.ataXact, [0x09, 0x12]⟩, [⟨.ataXact, [0x00, 0x02]⟩], .ataWrSectorCount 0x09, rfl, rfl, rfl⟩

theorem witness_StepWithoutInstruction :
    (ata .d16 [] []).inbox = [] ∧
    ((0x09 : Byte).toNat < 32 ∧ 9 ≤ (0x09 : Byte).toNat % 16) ∧
    ((0x1F : Byte).toNat < 32 ∧ 9 ≤ (0x1F : Byte).toNat % 16) ∧
    decode false ⟨.spiXact, [0x00, 0x02]⟩ = .error .reservedBits ∧
    (∀ k, DecodeError.reservedBits ≠ .noSuchRegister k) :=
  ⟨rfl, by decide, by decide, rfl, fun _ h => nomatch h⟩

theorem witness_DecodeOfEncode :
    ((Instr.acmd41SdSendOpCond 0x40000000 0x77).wellFormed = true ∧
      ((encode (.acmd41SdSendOpCond 0x40000000 0x77)).fmt = .mmcFrame →
        true = (Instr.acmd41SdSendOpCond 0x40000000 0x77).isApp)) ∧
    ((Instr.mmcInsert 65535).wellFormed = true ∧
      ((encode (.mmcInsert 65535)).fmt = .mmcFrame → true = (Instr.mmcInsert 65535).isApp)) := by
  decide

theorem witness_EncodeOfDecode :
    decode true ⟨.ataXact, [0x5A, 0x08]⟩ = .ok .ataRdData2 ∧
    decode true ⟨.spiXact, [0x5A, 0x00]⟩ = .ok .spiRd ∧
    decode true ⟨.mmcFrame, [0x7F, 1, 2, 3, 4, 5]⟩ = .ok (.acmdOther 63 0x01020304 5) := by decide

theorem witness_RegisterReadsReturnTheirValue : (ata .d16 [] []).chan.drv = some (drive8 []) := rfl

theorem witness_AbsentDriveOrCard :
    (ataIn .d16 [] fun c => { c with selected := .slave }).chan.drv = none ∧
    (ataIn .d16 [] fun c => { c with selected := .slave }).card.slot = none := ⟨rfl, rfl⟩

/-- Neither transfer phase is open, so both clauses apply. -/
theorem witness_DataAccessOutsideItsPhase :
    (ata .d16 [] []).chan.drv = some (drive8 []) ∧ (ata .d16 [] []).chan.phase ≠ .pioIn ∧
      (ata .d16 [] []).chan.phase ≠ .pioOut := ⟨rfl, by decide, by decide⟩

/-- A channel in a phase, at a place of the buffer, with a count. -/
def inPhase (databus : Databus) (phase : Phase) (datacounter : Nat) (sectorCount : Byte) : State :=
  ataIn databus [] fun c => { c with phase, datacounter, sectorCount }

/-- The last place inside the buffer under each policy. -/
theorem witness_DataReadInsideBuffer :
    (inPhase .d8 .pioIn 508 1).chan.drv = some (drive8 []) ∧
    (inPhase .d8 .pioIn 508 1).chan.phase = .pioIn ∧ 508 + 2 < 512 ∧
    (inPhase .d16 .pioIn 510 1).chan.databus = .d16 ∧ 510 + 1 < 512 ∧
    (inPhase .d16Byteswap .pioIn 510 1).chan.databus = .d16Byteswap ∧
    (inPhase .d16Data2 .pioIn 508 1).chan.databus = .d16Data2 :=
  ⟨rfl, rfl, by decide, rfl, by decide, rfl, rfl⟩

theorem witness_DataReadEndsTransfer :
    (inPhase .d8 .pioIn 510 0).chan.drv = some (drive8 []) ∧
    (inPhase .d8 .pioIn 510 0).chan.phase = .pioIn ∧ 512 ≤ 510 + busStep .d8 ∧
    512 ≤ 511 + busStep .d16 ∧ (inPhase .d8 .pioIn 510 0).chan.sectorCount = 0 :=
  ⟨rfl, rfl, by decide, by decide, rfl⟩

/-- The three clauses, at the addresses CHS (0, 0, 1) and (0, 0, 0). -/
theorem witness_DataReadReloads :
    (inPhase .d16 .pioIn 511 1).chan.drv = some (drive8 []) ∧ 512 ≤ 511 + busStep .d16 ∧
    (inPhase .d16 .pioIn 511 1).chan.sectorCount ≠ 0 ∧
    address (inPhase .d16 .pioIn 511 1).chan (drive8 []) = some 0 ∧
    storeGives (drive8 []) 0 (inPhase .d16 .pioIn 511 1).env ∧
    ¬ storeGives (drive8 []) 0
      { files := [], fileScript := [true, false], fileAsked := 0, freeUsed := 0 } ∧
    address { (inPhase .d16 .pioIn 511 1).chan with sector := 0x00 } (drive8 []) = none :=
  ⟨rfl, by decide, by decide +kernel, by decide +kernel, .inr (by decide +kernel),
    by rintro (h | h) <;> revert h <;> decide +kernel, by decide +kernel⟩

theorem witness_DataWriteInsideBuffer :
    (inPhase .d8 .pioOut 508 1).chan.drv = some (drive8 []) ∧
    (inPhase .d8 .pioOut 508 1).chan.phase = .pioOut ∧ 508 + busStep .d8 < 512 ∧
    (inPhase .d16Byteswap .pioOut 510 1).chan.drv = some (drive8 []) ∧
    510 + busStep .d16Byteswap < 512 :=
  ⟨rfl, rfl, by decide, rfl, by decide⟩

/-- The last sector of the drive, with one and with two to go; an address out of range. -/
theorem witness_DataWriteCompletesSector :
    (inPhase .d16 .pioOut 511 1).chan.drv = some (drive8 []) ∧
    (inPhase .d16 .pioOut 511 1).chan.phase = .pioOut ∧ 512 ≤ 511 + busStep .d16 ∧
    address { (inPhase .d16 .pioOut 511 2).chan with head := 0x03, sector := 0x10, cylinderLow := 0x07 }
      (drive8 []) = some 511 ∧
    address { (inPhase .d16 .pioOut 511 1).chan with head := 0x04 } (drive8 []) = none :=
  ⟨rfl, rfl, by decide, by decide +kernel, by decide +kernel⟩

theorem witness_DataReadsDrainTheBuffer :
    (inPhase .d16Data2 .pioIn 0 0).chan.drv = some (drive8 []) ∧
    (inPhase .d16Data2 .pioIn 0 0).chan.phase = .pioIn ∧
    (inPhase .d16Data2 .pioIn 0 0).chan.datacounter = 0 ∧
    (inPhase .d16Data2 .pioIn 0 0).chan.sectorCount = 0 := ⟨rfl, rfl, rfl, rfl⟩

theorem witness_DataWritesStoreOneSector :
    (inPhase .d16 .pioOut 0 1).chan.drv = some (drive8 []) ∧
    (inPhase .d16 .pioOut 0 1).chan.databus = .d16 ∧ (inPhase .d16 .pioOut 0 1).chan.phase = .pioOut ∧
    (inPhase .d16 .pioOut 0 1).chan.datacounter = 0 ∧
    (inPhase .d16 .pioOut 0 1).chan.sectorCount = 1 ∧
    address (inPhase .d16 .pioOut 0 1).chan (drive8 []) = some 0 :=
  ⟨rfl, rfl, rfl, rfl, rfl, by decide +kernel⟩

theorem witness_CommandsIgnoredOutsideReady : (inPhase .d8 .pioOut 2 1).chan.phase ≠ .ready := by
  decide +kernel

theorem witness_ReadCommandLoadsSector :
    (inPhase .d16 .ready 0 1).chan.drv = some (drive8 []) ∧ (inPhase .d16 .ready 0 1).chan.phase = .ready ∧
    address (inPhase .d16 .ready 0 1).chan (drive8 []) = some 0 ∧
    storeGives (drive8 []) 0 (inPhase .d16 .ready 0 1).env :=
  ⟨rfl, rfl, by decide +kernel, .inr (by decide +kernel)⟩

/-- An address out of range (sector 17 of 1 to 16, V55), and a store that fails. -/
theorem witness_ReadCommandFailures :
    (inPhase .d16 .ready 0 1).chan.drv = some (drive8 []) ∧ (inPhase .d16 .ready 0 1).chan.phase = .ready ∧
    address { (inPhase .d16 .ready 0 1).chan with sector := 0x11 } (drive8 []) = none ∧
    address { (inPhase .d16 .ready 0 1).chan with sector := 0x10 } (drive8 []) = some 15 ∧
    ¬ storeGives (drive8 []) 15
      { files := [], fileScript := [false], fileAsked := 0, freeUsed := 0 } :=
  ⟨rfl, rfl, by decide +kernel, by decide +kernel,
    by rintro (h | h) <;> revert h <;> decide +kernel⟩

theorem witness_WriteCommandOpensTransfer :
    (inPhase .d16 .ready 0 1).chan.drv = some (drive8 []) ∧
    (inPhase .d16 .ready 0 1).chan.phase = .ready := ⟨rfl, rfl⟩

/-- A drive with the LBA capability, and one without. -/
theorem witness_IdentifyLoadsIdentity :
    (inPhase .d16 .ready 0 1).chan.drv = some (drive8 []) ∧
    (inPhase .d16 .ready 0 1).chan.phase = .ready ∧
    (wordAt (drive8 []).identity 49).getLsbD 9 = false ∧
    (wordAt (drive0 8 4 16 0x02 []).identity 49).getLsbD 9 = true :=
  ⟨rfl, rfl, by decide +kernel, by decide +kernel⟩

theorem witness_InitializeDeviceParametersKeepsGeometry :
    (inPhase .d16 .ready 0 1).chan.drv = some (drive8 []) ∧
    (inPhase .d16 .ready 0 1).chan.phase = .ready := ⟨rfl, rfl⟩

theorem witness_UnknownOpcodesAbort :
    (inPhase .d16 .ready 0 1).chan.drv = some (drive8 []) ∧
    (inPhase .d16 .ready 0 1).chan.phase = .ready ∧
    (Instr.ataCmdOther 0x00).wellFormed = true ∧ (Instr.ataCmdOther 0xFF).wellFormed = true :=
  ⟨rfl, rfl, rfl, rfl⟩

/-- The count one, and any other; LBA mode; CHS mode inside a track, at its end, at a cylinder's end. -/
theorem witness_SeekCountsDownAndAdvances :
    (chan0 .d16 none).sectorCount = 1 ∧ (inPhase .d16 .ready 0 0).chan.sectorCount ≠ 1 ∧
    { chan0 .d16 none with head := 0xE0 }.lba = true ∧ (chan0 .d16 none).lba = false ∧
    (chan0 .d16 none).sector.toNat ≠ (drive8 []).sectors.toNat ∧
    { chan0 .d16 none with sector := 0x10 }.sector.toNat = (drive8 []).sectors.toNat ∧
    (chan0 .d16 none).headNibble.toNat + 1 ≠ (drive8 []).heads.toNat ∧
    { chan0 .d16 none with head := 0xA3 }.headNibble.toNat + 1 = (drive8 []).heads.toNat := by
  decide +kernel

theorem witness_AcceptedAddressIsBelowTotal :
    address { chan0 .d16 none with head := 0x03, sector := 0x10, cylinderLow := 0x07 } (drive8 []) =
      some 511 ∧ (drive8 []).total = 512 := by decide +kernel

/-- LBA mode on a drive of 512 sectors, and CHS mode at the largest geometry the registers reach. -/
theorem witness_SuccessiveSeeksAreConsecutiveSectors :
    (address { chan0 .d16 none with head := 0xE0, sector := 0xFF, cylinderLow := 0x01, sectorCount := 2 }
        (drive8 []) = some 511 ∧ (2 : Byte) ≠ 1 ∧ (drive8 []).total ≤ 2 ^ 28) ∧
    (address { chan0 .d16 none with head := 0x0F, sector := 0xFF, sectorCount := 0 }
        (drive0 65535 16 255 0x00 []) = some 4079 ∧ (0 : Byte) ≠ 1 ∧
      (drive0 65535 16 255 0x00 []).sectors.toNat ≤ 255 ∧
      (drive0 65535 16 255 0x00 []).heads.toNat ≤ 16) := by decide +kernel

/-- A card in every receiver state, with the bytes and the counts that part the clauses. -/
theorem witness_SpiWriteMovesTheReceiver :
    (∀ w : CommandState, (mmc (fun c => { c with commandState := w }) []).card.slot =
      some (medium0 [])) ∧
    (0x40 : Byte) &&& 0xC0 = 0x40 ∧ (0x7F : Byte) &&& 0xC0 = 0x40 ∧ (0x80 : Byte) &&& 0xC0 ≠ 0x40 ∧
    (0x3F : Byte) &&& 0xC0 ≠ 0x40 ∧
    (mmc (fun c => { c with dataCount := 510 }) []).card.dataCount + 1 < 512 ∧
    (mmc (fun c => { c with dataCount := 511 }) []).card.dataCount + 1 = 512 :=
  ⟨fun _ => rfl, by decide, by decide, by decide, by decide, by decide +kernel, by decide +kernel⟩

/-- A card at the last byte of a frame, and of a data block. -/
theorem witness_FramesAreSpiBytes :
    (∀ w : CommandState, (mmc (fun c => { c with commandState := w }) []).card.slot =
      some (medium0 [])) ∧
    (mmc (fun c => { c with commandState := .waitingForCrc }) []).card.commandState = .waitingForCrc ∧
    (mmc (fun c => { c with commandState := .waitingForDataCrc2 }) []).card.commandState =
      .waitingForDataCrc2 := ⟨fun _ => rfl, rfl, rfl⟩

theorem witness_NoCardIgnoresSpi :
    (ata .d16 [] []).card.slot = none ∧ isSpiAccess (.spiWr 0x40) = true ∧
    Instr.spiWr 0x40 ≠ .spiRd ∧ isSpiAccess (.cmd38Erase 0 0xFF) = true := ⟨rfl, rfl, by decide, rfl⟩

/-- A response of two bytes; an exhausted queue of the largest length. -/
theorem witness_SpiReadsDrainTheResponse :
    (mmc (respond [0x00, 0x01]) []).card.slot = some (medium0 []) ∧
    (mmc (respond [0x00, 0x01]) []).card.wr ≤ 516 ∧
    (mmc (respond [0x00, 0x01]) []).card.rd ≤ (mmc (respond [0x00, 0x01]) []).card.wr ∧
    (mmc (respond [0x00, 0x01]) []).card.pending = [0x00, 0x01] ∧
    (mmc (fun c => { c with rd := 516, wr := 516 }) []).card.pending = [] ∧
    (mmc (fun c => { c with rd := 516, wr := 516 }) []).card.wr ≤ 516 :=
  ⟨rfl, by decide +kernel, by decide +kernel, by decide +kernel, by decide +kernel, by decide +kernel⟩

theorem witness_ResponseReplacesTheQueue :
    ([0xC0, 0x00] : List Byte).length ≤ 516 ∧ ([0xC0, 0x00] : List Byte).length ≤ 515 ∧ 515 < 516 := by
  decide

/-- A card that waits for a standard command, one that waits for an application command. -/
theorem witness_ready :
    ((mmc id []).card.readyFor (medium0 []) ∧ (mmc id []).card.cmd55Issued = false) ∧
    ((mmc (fun c => { c with cmd55Issued := true }) []).card.readyFor (medium0 []) ∧
      (mmc (fun c => { c with cmd55Issued := true }) []).card.cmd55Issued = true) :=
  ⟨⟨⟨rfl, rfl⟩, rfl⟩, ⟨⟨rfl, rfl⟩, rfl⟩⟩

theorem witness_CommandsAlwaysAccepted :
    (mmc id []).card.readyFor (medium0 []) ∧ (mmc id []).card.cmd55Issued = false := witness_ready.1

theorem witness_SendCsdAndCid :
    ((mmc idle []).card.readyFor (medium0 []) ∧ (mmc idle []).card.cmd55Issued = false ∧
      (mmc idle []).card.r1Status &&& 0x01 = 0x01) ∧
    ((mmc id []).card.readyFor (medium0 []) ∧ (mmc id []).card.cmd55Issued = false ∧
      (mmc id []).card.r1Status &&& 0x01 = 0x00) :=
  ⟨⟨⟨rfl, rfl⟩, rfl, by decide +kernel⟩, ⟨⟨rfl, rfl⟩, rfl, by decide +kernel⟩⟩

/-- The last sector and the one behind it, with a store that gives it and one that does not. -/
theorem witness_ReadSingleBlockAnswers :
    ((mmc idle []).card.readyFor (medium0 []) ∧ (mmc idle []).card.cmd55Issued = false ∧
      (mmc idle []).card.r1Status &&& 0x01 = 0x01) ∧
    ((mmc id []).card.readyFor (medium0 []) ∧ (mmc id []).card.cmd55Issued = false ∧
      (mmc id []).card.r1Status &&& 0x01 = 0x00) ∧
    (medium0 []).totalSectors ≤ (1024 : BitVec 32).toNat ∧
    (1023 : BitVec 32).toNat < (medium0 []).totalSectors ∧
    storeGives (medium0 []).drive 1023 (mmc id []).env ∧
    ¬ storeGives (medium0 []).drive 1023
      { files := [], fileScript := [false], fileAsked := 0, freeUsed := 0 } :=
  ⟨⟨⟨rfl, rfl⟩, rfl, by decide +kernel⟩, ⟨⟨rfl, rfl⟩, rfl, by decide +kernel⟩, by decide +kernel,
    by decide +kernel, .inr (by decide +kernel), by rintro (h | h) <;> revert h <;> decide +kernel⟩

theorem witness_WriteBlockOpensDataPhase :
    (mmc id []).card.readyFor (medium0 []) ∧ (mmc id []).card.cmd55Issued = false := witness_ready.1

/-- A card that waits for the token of its last sector, and of the one behind it. -/
theorem witness_DataBlockIsWritten :
    (mmc (fun c => { c with commandState := .waitingForDataToken, arg2 := 0x03, arg3 := 0xFF }) []).card.slot =
      some (medium0 []) ∧
    (mmc (fun c => { c with commandState := .waitingForDataToken }) []).card.commandState =
      .waitingForDataToken ∧
    (mmc (fun c => { c with arg2 := 0x03, arg3 := 0xFF }) []).card.argument.toNat <
      (medium0 []).totalSectors ∧
    (medium0 []).totalSectors ≤ (mmc (fun c => { c with arg2 := 0x04 }) []).card.argument.toNat ∧
    (0xFF : Byte) ≠ 0xFE :=
  ⟨rfl, rfl, by decide +kernel, by decide +kernel, by decide⟩

theorem witness_EraseBoundsAreChecked :
    (mmc id []).card.readyFor (medium0 []) ∧ (mmc id []).card.cmd55Issued = false := witness_ready.1

theorem witness_EraseZeroFillsTheRange :
    ((mmc id []).card.readyFor (medium0 []) ∧ (mmc id []).card.cmd55Issued = false ∧
      (mmc id []).card.eraseSequence ≠ .ended) ∧
    ((mmc (fun c => { c with eraseSequence := .ended }) []).card.readyFor (medium0 []) ∧
      (mmc (fun c => { c with eraseSequence := .ended }) []).card.cmd55Issued = false ∧
      (mmc (fun c => { c with eraseSequence := .ended }) []).card.eraseSequence = .ended) :=
  ⟨⟨⟨rfl, rfl⟩, rfl, by decide +kernel⟩, ⟨⟨rfl, rfl⟩, rfl, rfl⟩⟩

theorem witness_UnknownIndicesAreIllegal :
    ((mmc id []).card.readyFor (medium0 []) ∧ (mmc id []).card.cmd55Issued = false ∧
      (Instr.cmdOther 63 0 0).wellFormed = true) ∧
    ((mmc (fun c => { c with cmd55Issued := true }) []).card.readyFor (medium0 []) ∧
      (mmc (fun c => { c with cmd55Issued := true }) []).card.cmd55Issued = true ∧
      (Instr.acmdOther 24 0 0).wellFormed = true ∧ (Instr.acmdOther 40 0 0).wellFormed = true) :=
  ⟨⟨⟨rfl, rfl⟩, rfl, rfl⟩, ⟨⟨rfl, rfl⟩, rfl, rfl, rfl⟩⟩

theorem witness_SdSendOpCondLeavesIdle :
    (mmc (fun c => { c with cmd55Issued := true }) []).card.readyFor (medium0 []) ∧
      (mmc (fun c => { c with cmd55Issued := true }) []).card.cmd55Issued = true := witness_ready.2

theorem witness_SectorReadsAsWritten :
    (drive8 []).sectorSize = .s512 ∧ { drive8 [] with sectorSize := .s256 }.sectorSize = .s256 ∧
    511 < 512 ∧ (4 : Nat) ≠ 5 := ⟨rfl, rfl, by decide, by decide⟩

theorem witness_UncachedSectorReadsTheImage :
    cacheFind (drive8 [(4, []), (6, [])]).cache 5 = none := rfl

/-- A free slot and an image: a file operation that fails, a header with a wrong id byte, a valid
header. -/
theorem witness_AtaInsertBuildsTheDrive :
    dutiful (.ataInsert .slave 1) (files (header 1 0x1A 0x00 8 4 16)) ∧
    ({ files := [], fileScript := [false], fileAsked := 0, freeUsed := 0 } : Env).askTwice.1.2 = false ∧
    (files (header 1 0x1A 0x00 8 4 16)).env.askTwice.1.2 = true ∧
    ((files (header 1 0x1B 0x00 8 4 16)).env.fileBytes 1 0 128).getD 6 0 ≠ 0x1A ∧
    ((files (header 1 0x1A 0x00 8 4 16)).env.fileBytes 1 0 128).take 6 =
      [0x52, 0x53, 0x2D, 0x49, 0x44, 0x45] ∧
    ((files (header 1 0x1A 0x00 8 4 16)).env.fileBytes 1 0 128).getD 6 0 = 0x1A :=
  ⟨⟨rfl, rfl, rfl⟩, by decide +kernel, by decide +kernel, by decide +kernel, by decide +kernel,
    by decide +kernel⟩

/-- As above; a drive of 512 sectors, one of 1024. -/
theorem witness_MmcInsertBuildsTheCard :
    dutiful (.mmcInsert 1) (files (header 1 0x1A 0x00 2 16 32)) ∧
    (files (header 1 0x1A 0x00 2 16 32)).env.askTwice.1.2 = true ∧
    ((files (header 1 0x1A 0x00 2 16 32)).env.fileBytes 1 0 128).getD 6 0 = 0x1A ∧
    (let d := driveOfHeader cfg0 1 ((files (header 1 0x1A 0x00 8 4 16)).env.fileBytes 1 0 128)
     d.total % 1024 ≠ 0) ∧
    (let d := driveOfHeader cfg0 1 ((files (header 1 0x1A 0x00 2 16 32)).env.fileBytes 1 0 128)
     d.sectorSize = .s512 ∧ d.total % 1024 = 0 ∧ d.total ≠ 0) :=
  ⟨⟨rfl, rfl⟩, by decide +kernel, by decide +kernel, by decide +kernel, by decide +kernel⟩

theorem witness_EjectAndDirty :
    dutiful (.ataEject .master) (ata .d16 [] []) ∧ dutiful .mmcEject (mmc id []) ∧
    (ata .d16 [] []).chan.drive .master = some (drive8 []) ∧ (mmc id []).card.slot = some (medium0 []) :=
  ⟨⟨rfl, rfl⟩, ⟨rfl, rfl⟩, rfl, rfl⟩

/-- Two cached sectors of a 256-byte drive, the last one among them. -/
def dirty256 : Drive :=
  { drive0 1 1 2 0x00 [(0, List.replicate 256 0xAB), (1, List.replicate 256 0xCD)] with
    sectorSize := .s256 }

theorem dirty256_cacheOk : dirty256.cacheOk := by unfold Drive.cacheOk; decide +kernel

theorem witness_CommitWritesTheCache :
    (state0 (chan0 .d16 (some dirty256)) (card0 none) []).chan.drive .master = some dirty256 ∧
    Mem.wf (state0 (chan0 .d16 (some dirty256)) (card0 none) []).env.files = true ∧ dirty256.cacheOk ∧
    (state0 (chan0 .d16 (some dirty256)) (card0 none) []).env.says (2 * dirty256.cache.length) :=
  ⟨rfl, rfl, dirty256_cacheOk, [], rfl⟩

theorem witness_CommitKeepsEverySector :
    (state0 (chan0 .d16 (some dirty256)) (card0 none) []).chan.drive .master = some dirty256 ∧
    Mem.wf (state0 (chan0 .d16 (some dirty256)) (card0 none) []).env.files = true ∧ dirty256.cacheOk :=
  ⟨rfl, rfl, dirty256_cacheOk⟩

/-- The drive that a valid header describes, with one cached sector. -/
def reinserted : Drive :=
  { driveOfHeader cfg0 1 ((files (header 1 0x1A 0x00 8 4 16)).env.fileBytes 1 0 128) with
    status := 0x41, error := 0x04, cache := [(3, List.replicate 512 0xAB)] }

/-- It stands in the slave slot. -/
def reinsertion : State :=
  (files (header 1 0x1A 0x00 8 4 16)).mapChan fun c => { c with drive1 := some reinserted }

theorem witness_CommittedDataSurviveReinsertion :
    reinsertion.chan.drive .slave = some reinserted ∧ reinsertion.chan.phase = .ready ∧
    reinsertion.card.holdsImage reinserted.image = false ∧ Mem.wf reinsertion.env.files = true ∧
    reinserted.cacheOk ∧ headerValid (reinsertion.env.fileBytes reinserted.image 0 128) = true ∧
    128 ≤ reinserted.dataOffset ∧
    (∃ status error cache, reinserted =
      { driveOfHeader reinsertion.cfg reinserted.image (reinsertion.env.fileBytes reinserted.image 0 128) with
        status := status, error := error, cache := cache }) ∧
    reinsertion.env.says (2 * reinserted.cache.length + 2) :=
  ⟨rfl, rfl, rfl, by decide +kernel, by unfold Drive.cacheOk; decide +kernel, by decide +kernel,
    by decide +kernel, ⟨_, _, _, rfl⟩, [], rfl⟩

theorem witness_UncommittedDataAreLost :
    reinsertion.chan.drive .slave = some reinserted ∧ reinsertion.chan.phase = .ready ∧
    reinsertion.card.holdsImage reinserted.image = false ∧
    headerValid (reinsertion.env.fileBytes reinserted.image 0 128) = true ∧
    (∃ status error cache, reinserted =
      { driveOfHeader reinsertion.cfg reinserted.image (reinsertion.env.fileBytes reinserted.image 0 128) with
        status := status, error := error, cache := cache }) ∧ reinsertion.env.says 2 :=
  ⟨rfl, rfl, rfl, by decide +kernel, ⟨_, _, _, rfl⟩, [true, true], rfl⟩

/-- A duty met, a duty broken; an ATA access, an SPI access. -/
theorem witness_OperationsCompleteWithinDuties :
    isAtaAccess .ataRdData = true ∧ isSpiAccess .spiRd = true ∧
    dutiful (.ataCommit .master) (ata .d16 [] []) ∧ ¬ dutiful (.ataCommit .slave) (ata .d16 [] []) :=
  ⟨rfl, rfl, rfl, nofun⟩

theorem witness_ImagesChangeOnlyByCommit : ∃ t,
    exec (.ataEject .master) (ata .d16 [(5, [1])] []) = .next t ∧ isCommit (.ataEject .master) = false :=
  ⟨_, rfl, rfl⟩

/-- A machine with a drive in a transfer and a card: phase PioIn, DRQ set. -/
def busy : State :=
  state0
    { chan0 .d16 (some { drive8 [(0, List.replicate 512 0xAB)] with status := 0x48 }) with
      phase := .pioIn, datacounter := 511 }
    { card0 (some (medium0 [(1023, List.replicate 512 0xCD)])) with
      eraseSequence := .ended, eraseStart := 1023, eraseEnd := 1023, rd := 1, wr := 516 } []

theorem witness_DriveRecordIsImmutable : ∃ t, exec .ataRdData busy = .next t :=
  ⟨_, rfl⟩

theorem witness_EnginesAreSeparate :
    (∃ t, exec .ataRdData busy = .next t) ∧ isAtaAccess .ataRdData = true ∧
    (∃ t, exec .spiRd busy = .next t) ∧ isSpiAccess .spiRd = true ∧
    DriveUnit.slave ≠ busy.chan.selected :=
  ⟨⟨_, rfl⟩, rfl, ⟨_, rfl⟩, rfl, by decide⟩

theorem busy_inv : busy.Inv := by
  refine ⟨?_, ⟨?_, ?_, ?_, ?_, ?_⟩, ⟨?_, ?_, ?_, ?_, ?_⟩, ?_, ?_⟩
  · unfold paramsOk; decide +kernel
  · rintro (_ | _) d h
    · cases h; unfold Drive.ok Drive.cacheOk; decide +kernel
    · cases h
  · decide +kernel
  · decide +kernel
  · decide +kernel
  · decide +kernel
  · intro m h; cases h
    refine ⟨?_, ?_⟩
    · unfold Medium.ok Drive.ok Drive.cacheOk; decide +kernel
    · unfold Card.eraseOk; decide +kernel
  · decide +kernel
  · decide +kernel
  · decide +kernel
  · decide +kernel
  · decide +kernel
  · intro m h; cases h; decide +kernel

theorem witness_StepKeepsInvariant :
    State.Inv { busy with inbox := [⟨.ataXact, [0x00, 0x00]⟩] } ∧
    ∃ t, step { busy with inbox := [⟨.ataXact, [0x00, 0x00]⟩] } = .next t :=
  ⟨busy_inv, _, rfl⟩

theorem busy_coherent : busy.chan.coherent := by
  refine ⟨?_, fun _ => rfl⟩
  rintro (_ | _) d h
  · cases h; decide +kernel
  · cases h

theorem witness_PhaseAndDrqStayTogether :
    busy.Inv ∧ busy.chan.coherent ∧ keepsSelection (.ataWrHeadDrive 0xEF) busy ∧
    ∃ t, exec (.ataWrHeadDrive 0xEF) busy = .next t :=
  ⟨busy_inv, busy_coherent, (fun b h _ => by cases h; decide +kernel), _, rfl⟩

theorem witness_PhaseEdges :
    ((∃ t, exec .ataRdData busy = .next t) ∧ busy.chan.phase = .pioIn) ∧
    ((∃ t, exec (.ataWrData 0) (inPhase .d16 .pioOut 511 1) = .next t) ∧
      (inPhase .d16 .pioOut 511 1).chan.phase = .pioOut) ∧
    ((∃ t, exec .identifyDriveAta (inPhase .d16 .ready 0 1) = .next t ∧ t.chan.phase ≠ .ready) ∧
      (inPhase .d16 .ready 0 1).chan.phase = .ready) :=
  ⟨⟨⟨_, rfl⟩, rfl⟩, ⟨⟨_, rfl⟩, rfl⟩, ⟨⟨_, rfl, by decide +kernel⟩, rfl⟩⟩

end Sys2Proof.Tests
end

section
/-! The sector store (40_sector_store.md): what a written sector leaves in the cache and how it reads
back. -/

namespace Sys2Proof.Machine

/-! ### Packing, byte by byte (R136) -/

/-- A 256-byte drive keeps the even bytes of a sector. -/
theorem pack_s256 (v : Sector) :
    pack .s256 v = (List.range 256).map fun i => byteAt v (2 * i) := by
  refine List.ext_getElem (by simp [SectorSize.bytes]) fun i hi _ => ?_
  have kept : (pack .s256 v).getD i 0 = byteAt v (2 * i) := by
    rw [byteAt_eq]; exact everyOther_getD v.toList i
  rw [List.getD_eq_getElem _ _ hi] at kept
  simpa using kept

/-! ### The drive after a write (R135) -/

/-- The written sector's entry is the packed data; every other sector's is as before. -/
theorem cacheFind_memWrite (d : Drive) (n : Nat) (v : Sector) (k : Nat) :
    cacheFind (memWrite d n v).cache k =
      if k = n then some (pack d.sectorSize v) else cacheFind d.cache k :=
  cacheFind_upsert d.cache n _ k

theorem cacheFind_memWrite_self (d : Drive) (n : Nat) (v : Sector) :
    cacheFind (memWrite d n v).cache n = some (pack d.sectorSize v) := by
  rw [cacheFind_memWrite, if_pos rfl]

/-- A written sector is a hit: the read cannot fail and asks nothing of the image (R133). -/
theorem memRead_memWrite_self (d : Drive) (n : Nat) (v : Sector) (e : Env) :
    memRead (memWrite d n v) n e = (some (sectorOf (memWrite d n v) n e), e) :=
  memRead_hit (cacheFind_memWrite_self d n v)

theorem sectorOf_memWrite_self (d : Drive) (n : Nat) (v : Sector) (e : Env) :
    sectorOf (memWrite d n v) n e = unpack d.sectorSize (pack d.sectorSize v) := by
  rw [sectorOf_memWrite, if_pos rfl]

/-- Settles O43: the entry of the written sector decides what the store reads there, and no other
entry moved. -/
theorem sectorReadsAsWritten : Obligations.SectorReadsAsWritten := by
  intro d n v e
  refine ⟨rfl, ?entry, memRead_memWrite_self d n v e, ?whole, ?halved, fun k hk => ⟨?sector, ?other⟩⟩
  case entry =>
    rw [cacheFind_memWrite_self]
    cases d.sectorSize with
    | s256 => exact congrArg some (pack_s256 v)
    | s512 => rfl
  case whole =>
    intro hs
    rw [sectorOf_memWrite_self, hs, unpack_pack_s512]
  case halved =>
    intro hs k hk
    rw [sectorOf_memWrite_self, hs]
    exact byteAt_unpack_pack .s256 v k hk
  case sector => rw [sectorOf_memWrite, if_neg hk]
  case other => rw [cacheFind_memWrite, if_neg hk]

end Sys2Proof.Machine
end

section
/-! ATA register access (41_ata_register_access.md): the write to COMMAND. Its byte is not stored, and
neither is anything else outside what the command itself works on. -/

namespace Sys2Proof.Machine

/-! ### What no ATA command touches (R190 to R211) -/

/-- The state that every ATA command leaves as it was: FEATURE, DATA2 and the selection, the bus, the
card, the files and the parameters. -/
structure CommandFrame (s t : State) : Prop where
  feature : t.chan.feature = s.chan.feature
  data2 : t.chan.data2 = s.chan.data2
  selected : t.chan.selected = s.chan.selected
  databus : t.chan.databus = s.chan.databus
  card : t.card = s.card
  files : t.env.files = s.env.files
  cfg : t.cfg = s.cfg

theorem CommandFrame.refl (s : State) : CommandFrame s s := ⟨rfl, rfl, rfl, rfl, rfl, rfl, rfl⟩

theorem CommandFrame.trans {s t u : State} (h : CommandFrame s t) (h' : CommandFrame t u) :
    CommandFrame s u :=
  ⟨h'.feature.trans h.feature, h'.data2.trans h.data2, h'.selected.trans h.selected,
    h'.databus.trans h.databus, h'.card.trans h.card, h'.files.trans h.files, h'.cfg.trans h.cfg⟩

/-- Changing the selected drive is within the frame: the preamble, INITIALIZE DEVICE PARAMETERS and the
abort do no more. -/
theorem commandFrame_mapDrv (g : Drive → Drive) (s : State) :
    CommandFrame s (s.mapChan fun c => c.mapDrv g) := by
  constructor <;> simp

/-- So is opening a transfer on another buffer and count: WRITE and IDENTIFY. -/
theorem commandFrame_openTransfer (p : Phase) (v : Sector) (count : Byte) (s : State) :
    CommandFrame s
      (s.mapChan fun c => openTransfer p { c with buffer := v, sectorCount := count }) := by
  constructor <;> simp

/-- load_sector asks for file operations, but writes to no file (R133, R210). -/
theorem commandFrame_loadSector (d : Drive) (s : State) : CommandFrame s (loadSector d s) := by
  cases h : address s.chan d with
  | none =>
    rw [loadSector_range h]
    constructor <;> simp [rangeError]
  | some n =>
    by_cases hg : storeGives d n s.env
    · rw [loadSector_gives h hg]
      constructor <;> simp [receiveSector]
    · rw [loadSector_fails h hg]
      constructor <;> simp

/-! ### Every command keeps the frame -/

theorem commandFrame_body {body : Drive → State → State}
    (h : body = readBegin ∨ body = writeBegin ∨ body = identifyDevice ∨ body = initDeviceParams ∨
      body = abort) (d : Drive) (s : State) : CommandFrame s (body d s) := by
  obtain rfl | rfl | rfl | rfl | rfl := h
  · exact commandFrame_loadSector d s
  · exact commandFrame_openTransfer .pioOut s.chan.buffer s.chan.sectorCount s
  · exact commandFrame_openTransfer .pioIn (identifyBuffer d) 0 s
  · exact commandFrame_mapDrv _ s
  · exact commandFrame_mapDrv _ s

/-- An ignored command changes nothing; an accepted one runs its procedure after the preamble. -/
theorem commandFrame_acceptCommand {body : Drive → State → State}
    (h : ∀ d s, CommandFrame s (body d s)) (s : State) : CommandFrame s (acceptCommand body s) := by
  cases hd : s.chan.drv with
  | none => rw [acceptCommand_none hd]; exact .refl s
  | some d =>
    by_cases hp : s.chan.phase = .ready
    · rw [acceptCommand_ready hd hp, ← preambleDrive_eq, ← mapDrv_eq hd]
      exact (commandFrame_mapDrv preambleDrive s).trans (h _ _)
    · rw [acceptCommand_busy hp]; exact .refl s

/-- Settles O18: the write and the decoded instruction are the same acceptance of one procedure, and
no procedure leaves the frame. -/
theorem commandWriteRunsTheOpcode : Obligations.CommandWriteRunsTheOpcode := by
  intro b s
  obtain ⟨body, hbody, hexec⟩ := command_body b
  obtain ⟨hwrite, hopcode⟩ := hexec s
  obtain ⟨hfeature, hdata2, hselected, hdatabus, hcard, hfiles, hcfg⟩ :=
    commandFrame_acceptCommand (commandFrame_body hbody) s
  exact ⟨(acceptCommand body s).returns .nothing, hwrite, hopcode, hfeature, hdata2, hselected,
    hdatabus, hcard, hfiles, hcfg, rfl⟩

end Sys2Proof.Machine
end

section
/-! SPI bytes (43_mmc_spi_bytes.md): what a read takes from the response queue, what a written byte
does to a card that collects a frame or a block, and that without a card nothing happens. -/

namespace Sys2Proof.Machine

/-! ### The response queue as a list (R45) -/

/-- The card with the oldest response byte read (R241). -/
def Card.popped (c : Card) : Card := { c with rd := c.rd + 1 }

theorem Card.pending_length {c : Card} (hwr : c.wr ≤ 516) : c.pending.length = c.wr - c.rd := by
  simp [Card.pending, Nat.min_eq_left hwr]

/-- Bytes are left exactly while `rd < wr`: the test that a read makes. -/
theorem Card.pending_eq_nil_iff {c : Card} (hwr : c.wr ≤ 516) : c.pending = [] ↔ c.wr ≤ c.rd := by
  rw [← List.length_eq_zero_iff, pending_length hwr, Nat.sub_eq_zero_iff_le]

/-- The oldest byte is the one at `rd`; moving `rd` by one leaves the others. -/
theorem Card.pending_eq_cons {c : Card} (hwr : c.wr ≤ 516) (h : c.rd < c.wr) :
    c.pending = byteAt c.responseBuffer c.rd :: c.popped.pending := by
  have hlen : c.rd < (c.responseBuffer.toList.take c.wr).length := by simp; omega
  have hbyte : byteAt c.responseBuffer c.rd = (c.responseBuffer.toList.take c.wr)[c.rd] := by
    simp [byteAt, show c.rd < 516 by omega]
  rw [hbyte]
  exact List.drop_eq_getElem_cons hlen

/-! ### SPI_RD (R241) -/

theorem exec_spiRd_exhausted {s : State} (hwr : s.card.wr ≤ 516) (h : s.card.pending = []) :
    exec .spiRd s = .next (s.returns (.byte 0xFF)) := by
  have hend : s.card.wr ≤ s.card.rd := (Card.pending_eq_nil_iff hwr).mp h
  exact if_neg fun hmore => absurd hmore.2 (by omega)

theorem exec_spiRd_pops {s : State} {m : Medium} {b : Byte} {rest : List Byte}
    (hslot : s.card.slot = some m) (hwr : s.card.wr ≤ 516) (h : s.card.pending = b :: rest) :
    exec .spiRd s = .next ((s.mapCard Card.popped).returns (.byte b)) ∧
      s.card.popped.pending = rest := by
  have hmore : s.card.rd < s.card.wr := by
    by_contra hend
    simp [(Card.pending_eq_nil_iff hwr).mpr (by omega)] at h
  rw [Card.pending_eq_cons hwr hmore] at h
  obtain ⟨rfl, hrest⟩ := List.cons.inj h
  exact ⟨if_pos ⟨by simp [hslot], hmore⟩, hrest⟩

/-- Reads until the queue is empty return its bytes in order and move `rd` alone. -/
theorem runs_spiRd_drains {m : Medium} (l : List Byte) {s : State} (hslot : s.card.slot = some m)
    (hwr : s.card.wr ≤ 516) (hrd : s.card.rd ≤ s.card.wr) (hl : s.card.pending = l) :
    ∃ t : State, runs (List.replicate l.length .spiRd) s = some (l.map .byte, t) ∧
      t.card = { s.card with rd := s.card.wr } ∧ t.chan = s.chan ∧ t.env = s.env := by
  induction l generalizing s with
  | nil =>
    have hend : s.card.rd = s.card.wr := by
      have := (Card.pending_eq_nil_iff hwr).mp hl
      omega
    exact ⟨s, rfl, by rw [← hend], rfl, rfl⟩
  | cons b rest ih =>
    obtain ⟨hread, hrest⟩ := exec_spiRd_pops hslot hwr hl
    have hmore : s.card.rd + 1 ≤ s.card.wr := by
      have hlen := Card.pending_length hwr
      simp only [hl, List.length_cons] at hlen
      omega
    obtain ⟨t, hruns, hcard, hchan, henv⟩ :=
      ih (s := (s.mapCard Card.popped).returns (.byte b)) hslot hwr hmore hrest
    refine ⟨t, ?_, hcard, hchan, henv⟩
    simp [List.replicate_succ, runs, hread, hruns]

/-- Settles O31: a read pops the head of the pending list, and the drain is an induction over that
list. -/
theorem spiReadsDrainTheResponse : Obligations.SpiReadsDrainTheResponse := by
  intro s m hslot hwr
  refine ⟨fun b rest hpending => ?_, exec_spiRd_exhausted hwr,
    fun hrd => runs_spiRd_drains _ hslot hwr hrd rfl⟩
  obtain ⟨hread, hrest⟩ := exec_spiRd_pops hslot hwr hpending
  exact ⟨_, hread, hrest, rfl⟩

/-! ### One byte to a card, by the state of its receiver (R231 to R239) -/

theorem receiveCommandByte_start {b : Byte} (h : b &&& 0xC0 = 0x40) (c : Card) :
    receiveCommandByte b c =
      { c with currentCommand := b.setWidth 6, commandState := .waitingForData0 } := if_pos h

theorem receiveCommandByte_ignored {b : Byte} (h : b &&& 0xC0 ≠ 0x40) (c : Card) :
    receiveCommandByte b c = c := if_neg h

theorem receiveDataByte_more {c : Card} (h : c.dataCount + 1 < 512) (b : Byte) :
    receiveDataByte b c =
      { c with sendBuffer := setByte c.sendBuffer c.dataCount b, dataCount := c.dataCount + 1 } := by
  rw [receiveDataByte, if_neg (by omega)]

theorem receiveDataByte_last {c : Card} (h : c.dataCount + 1 = 512) (b : Byte) :
    receiveDataByte b c =
      { c with
          sendBuffer := setByte c.sendBuffer c.dataCount b
          dataCount := 512, commandState := .waitingForDataCrc1 } := by
  rw [receiveDataByte, if_pos h, h]


section Present
variable {s : State} {m : Medium} (hslot : s.card.slot = some m) (b : Byte)
include hslot

theorem spiWrite_waitingForCommand (hw : s.card.commandState = .waitingForCommand) :
    spiWrite b s = s.mapCard (receiveCommandByte b) := by
  simp only [spiWrite, hslot, hw]

theorem spiWrite_waitingForData0 (hw : s.card.commandState = .waitingForData0) :
    spiWrite b s = s.mapCard fun c => { c with arg0 := b, commandState := .waitingForData1 } := by
  simp only [spiWrite, hslot, hw]

theorem spiWrite_waitingForData1 (hw : s.card.commandState = .waitingForData1) :
    spiWrite b s = s.mapCard fun c => { c with arg1 := b, commandState := .waitingForData2 } := by
  simp only [spiWrite, hslot, hw]

theorem spiWrite_waitingForData2 (hw : s.card.commandState = .waitingForData2) :
    spiWrite b s = s.mapCard fun c => { c with arg2 := b, commandState := .waitingForData3 } := by
  simp only [spiWrite, hslot, hw]

theorem spiWrite_waitingForData3 (hw : s.card.commandState = .waitingForData3) :
    spiWrite b s = s.mapCard fun c => { c with arg3 := b, commandState := .waitingForCrc } := by
  simp only [spiWrite, hslot, hw]

theorem spiWrite_waitingForData (hw : s.card.commandState = .waitingForData) :
    spiWrite b s = s.mapCard (receiveDataByte b) := by
  simp only [spiWrite, hslot, hw]

theorem spiWrite_waitingForDataCrc1 (hw : s.card.commandState = .waitingForDataCrc1) :
    spiWrite b s = s.mapCard fun c => { c with commandState := .waitingForDataCrc2 } := by
  simp only [spiWrite, hslot, hw]

end Present

/-- An SPI_WR that only moves the card to `c` completes with everything else as it was. -/
theorem exec_spiWr_of_mapCard {b : Byte} {s : State} {f : Card → Card} {c : Card}
    (hwrite : spiWrite b s = s.mapCard f) (hcard : f s.card = c) :
    exec (.spiWr b) s = .next { s with card := c, result := .nothing } := by
  subst hcard
  exact congrArg (completes .nothing) hwrite

/-- Settles O29: the receiver's state picks what is done with the byte; the start bits split the
command state, and the count of 512 the data state. -/
theorem spiWriteMovesTheReceiver : Obligations.SpiWriteMovesTheReceiver := by
  intro s m b hslot
  refine ⟨fun hw => ⟨fun hstart => ?start, fun hother => ?ignored⟩, fun hw => ?arg0, fun hw => ?arg1,
    fun hw => ?arg2, fun hw => ?arg3, fun hw => ⟨fun hcount => ?more, fun hcount => ?last⟩,
    fun hw => ?crc1⟩
  case start =>
    exact exec_spiWr_of_mapCard (spiWrite_waitingForCommand hslot b hw)
      (receiveCommandByte_start hstart s.card)
  case ignored =>
    exact exec_spiWr_of_mapCard (spiWrite_waitingForCommand hslot b hw)
      (receiveCommandByte_ignored hother s.card)
  case arg0 => exact exec_spiWr_of_mapCard (spiWrite_waitingForData0 hslot b hw) rfl
  case arg1 => exact exec_spiWr_of_mapCard (spiWrite_waitingForData1 hslot b hw) rfl
  case arg2 => exact exec_spiWr_of_mapCard (spiWrite_waitingForData2 hslot b hw) rfl
  case arg3 => exact exec_spiWr_of_mapCard (spiWrite_waitingForData3 hslot b hw) rfl
  case more =>
    exact exec_spiWr_of_mapCard (spiWrite_waitingForData hslot b hw) (receiveDataByte_more hcount b)
  case last =>
    exact exec_spiWr_of_mapCard (spiWrite_waitingForData hslot b hw) (receiveDataByte_last hcount b)
  case crc1 => exact exec_spiWr_of_mapCard (spiWrite_waitingForDataCrc1 hslot b hw) rfl

/-! ### What is sent without a card (R230) -/

/-- Every operation on the SPI port but a read is a run of written bytes (R100, R109). -/
theorem exec_eq_spiWrites {i : Instr} (hspi : isSpiAccess i = true) (hread : i ≠ .spiRd) :
    ∃ bs : List Byte, ∀ s, exec i s = .next ((spiWrites bs s).returns .nothing) := by
  cases i with
  | spiWr b => exact ⟨[b], fun _ => rfl⟩
  | spiRd => exact absurd rfl hread
  | cmd0GoIdleState arg crc | cmd8SendIfCond arg crc | cmd9SendCsd arg crc | cmd10SendCid arg crc
  | cmd17ReadSingleBlock arg crc | cmd24WriteBlock arg crc | cmd32EraseWrBlkStart arg crc
  | cmd33EraseWrBlkEnd arg crc | cmd38Erase arg crc | cmd55AppCmd arg crc | cmd58ReadOcr arg crc
  | acmd41SdSendOpCond arg crc => exact ⟨frameBytes _ arg crc, fun _ => rfl⟩
  | cmdOther index arg crc | acmdOther index arg crc =>
    exact ⟨frameBytes index arg crc, fun _ => rfl⟩
  | mmcDataBlock data crc1 crc2 => exact ⟨dataBlockBytes data crc1 crc2, fun _ => rfl⟩
  | _ => exact Bool.noConfusion hspi

/-- Settles O30: what is sent is bytes, and without a card a run of bytes changes nothing. -/
theorem noCardIgnoresSpi : Obligations.NoCardIgnoresSpi := by
  intro s i hslot hspi hread
  obtain ⟨bs, hexec⟩ := exec_eq_spiWrites hspi hread
  rw [hexec, spiWrites_noCard hslot]
  rfl

end Sys2Proof.Machine
end

section
/-! The transactions of 30_encoding.md: decoder and encoder undo each other, but for the bits that the
decoder ignores. -/

namespace Sys2Proof

/-! ### Register accesses (R90) -/

/-- A register access that decodes is a read, whose data byte is ignored, or a write. -/
theorem encode_decodeAtaXact {reg b : Byte} {i : Instr} (h : decodeAtaXact reg.toNat b = .ok i) :
    i.wellFormed = true ∧
      (encode i = ⟨.ataXact, [b, reg]⟩ ∨ (encode i = ⟨.ataXact, [0, reg]⟩ ∧ reg.toNat ≤ 8)) := by
  have hreg : reg = BitVec.ofNat 8 reg.toNat := by simp
  generalize reg.toNat = k at h hreg
  subst hreg
  unfold decodeAtaXact at h
  split at h
  case h_1 | h_2 | h_3 | h_4 | h_5 | h_6 | h_7 | h_8 | h_9 =>
    cases h; exact ⟨rfl, .inr ⟨rfl, by decide⟩⟩
  case h_19 => split at h <;> cases h
  all_goals cases h; exact ⟨rfl, .inl rfl⟩

/-! ### Commands (R97, R102, R103) -/

/-- A standard index that R102 does not list is some other command. -/
theorem decodeCmd_other {index : BitVec 6} (h : index ∉ mmcIndices) (arg : BitVec 32) (crc : Byte) :
    decodeCmd index arg crc = .cmdOther index arg crc := by
  simp only [mmcIndices, List.mem_cons, List.not_mem_nil, or_false, not_or, BitVec.toNat_eq,
    BitVec.reduceToNat] at h
  unfold decodeCmd
  split <;> first | (exfalso; omega) | rfl

/-- The rows of the standard commands cover every index, each with its own. -/
theorem encode_decodeCmd (index : BitVec 6) (arg : BitVec 32) (crc : Byte) :
    (decodeCmd index arg crc).wellFormed = true ∧
      encode (decodeCmd index arg crc) = encodeFrame index arg crc := by
  by_cases h : index ∈ mmcIndices
  · simp only [mmcIndices, List.mem_cons, List.not_mem_nil, or_false] at h
    obtain rfl | rfl | rfl | rfl | rfl | rfl | rfl | rfl | rfl | rfl | rfl := h <;>
      exact ⟨rfl, rfl⟩
  · rw [decodeCmd_other h]
    exact ⟨by simpa [Instr.wellFormed] using h, rfl⟩

theorem encode_decodeAcmd (index : BitVec 6) (arg : BitVec 32) (crc : Byte) :
    (decodeAcmd index arg crc).wellFormed = true ∧
      encode (decodeAcmd index arg crc) = encodeFrame index arg crc := by
  unfold decodeAcmd
  split
  · next h => subst h; exact ⟨rfl, rfl⟩
  · next h => exact ⟨by simpa [Instr.wellFormed] using h, rfl⟩

/-- The opcodes of R97 and every other byte. -/
theorem encode_decodeAtaCmd (op : Byte) :
    (decodeAtaCmd op).wellFormed = true ∧ encode (decodeAtaCmd op) = ⟨.ataCmd, [op]⟩ := by
  by_cases h : op.toNat ∈ [0x20, 0x21, 0x30, 0x31, 0x91, 0xA1, 0xEC]
  · have hop : op = BitVec.ofNat 8 op.toNat := by simp
    generalize op.toNat = k at h hop
    subst hop
    simp only [List.mem_cons, List.not_mem_nil, or_false] at h
    obtain rfl | rfl | rfl | rfl | rfl | rfl | rfl := h <;> exact ⟨rfl, rfl⟩
  · rw [Machine.decodeAtaCmd_other h]
    refine ⟨?_, rfl⟩
    simp only [List.mem_cons, List.not_mem_nil, or_false, not_or] at h
    simp [Instr.wellFormed, ataOpcodes, BitVec.toNat_eq, h]

/-- A well-formed unnamed opcode is none of the seven. -/
theorem opcode_free {op : Byte} (h : (Instr.ataCmdOther op).wellFormed = true) :
    op.toNat ∉ [0x20, 0x21, 0x30, 0x31, 0x91, 0xA1, 0xEC] := by
  simpa [Instr.wellFormed, ataOpcodes, BitVec.toNat_eq] using h

/-! ### Frames (R100, R104) -/

/-- The four argument bytes of a frame, put together, are the argument. -/
theorem argOfBytes_extract (arg : BitVec 32) :
    argOfBytes (arg.extractLsb' 24 8) (arg.extractLsb' 16 8) (arg.extractLsb' 8 8)
      (arg.extractLsb' 0 8) = arg :=
  Machine.argument_received Machine.State.reset.card 0 arg

theorem extract_argOfBytes (a0 a1 a2 a3 : Byte) :
    (argOfBytes a0 a1 a2 a3).extractLsb' 24 8 = a0 ∧ (argOfBytes a0 a1 a2 a3).extractLsb' 16 8 = a1 ∧
    (argOfBytes a0 a1 a2 a3).extractLsb' 8 8 = a2 ∧ (argOfBytes a0 a1 a2 a3).extractLsb' 0 8 = a3 := by
  have hbits : ∀ n k (b : Byte), (∀ i < 8, (argOfBytes a0 a1 a2 a3).getLsbD (n + i) = b.getLsbD i) →
      k = n → (argOfBytes a0 a1 a2 a3).extractLsb' k 8 = b := by
    rintro n _ b hb rfl
    ext i hi
    rw [BitVec.getElem_extractLsb', hb i hi, BitVec.getLsbD_eq_getElem hi]
  unfold argOfBytes at *
  refine ⟨hbits 24 24 a0 ?_ rfl, hbits 16 16 a1 ?_ rfl, hbits 8 8 a2 ?_ rfl, hbits 0 0 a3 ?_ rfl⟩ <;>
  · intro i hi
    simp only [BitVec.getLsbD_append]
    grind

/-- The first byte of a frame carries its index and nothing else (R100). -/
theorem commandByte_eq {c : Byte} (h : c &&& 0xC0 = 0x40) :
    (0x40 : Byte) ||| (c.setWidth 6).setWidth 8 = c := by
  revert c; decide +kernel


/-- Under either mode the frame of an index is read back as that mode's command (R100, R103, R104). -/
theorem decode_encodeFrame (app : Bool) (index : BitVec 6) (arg : BitVec 32) (crc : Byte) :
    decode app (encodeFrame index arg crc) =
      .ok (if app then decodeAcmd index arg crc else decodeCmd index arg crc) := by
  obtain ⟨hkind, hindex⟩ := Machine.frameByte_kind index
  simp only [decode, encodeFrame, frameBytes, argOfBytes_extract, hindex, if_neg (not_not.mpr hkind)]
  cases app <;> rfl

/-- What a frame decodes to is encoded as that frame. -/
theorem encodeFrame_of_bytes {c : Byte} (h : c &&& 0xC0 = 0x40) (a0 a1 a2 a3 crc : Byte) :
    encodeFrame (c.setWidth 6) (argOfBytes a0 a1 a2 a3) crc = ⟨.mmcFrame, [c, a0, a1, a2, a3, crc]⟩ := by
  obtain ⟨h0, h1, h2, h3⟩ := extract_argOfBytes a0 a1 a2 a3
  rw [encodeFrame, frameBytes, commandByte_eq h, h0, h1, h2, h3]

/-! ### Data blocks (R109) -/

theorem decode_encodeDataBlock (app : Bool) (data : Sector) (crc1 crc2 : Byte) :
    decode app ⟨.mmcData, dataBlockBytes data crc1 crc2⟩ = .ok (.mmcDataBlock data crc1 crc2) := by
  have hblock : blockOf 512 (data.toList ++ [crc1, crc2]) = data := by
    apply Machine.vector_ext_byteAt
    intro k hk
    rw [Machine.byteAt_blockOf _ _ _ hk, Machine.byteAt_eq]
    simp only [List.getD_eq_getElem?_getD]
    rw [List.getElem?_append_left (by simpa using hk)]
  simp only [decode, dataBlockBytes, hblock]
  simp

/-- 514 bytes are a sector and two CRC bytes. -/
theorem blockOf_append_crc {l : List Byte} (h : l.length = 514) :
    (blockOf 512 l).toList ++ [l.getD 512 0, l.getD 513 0] = l := by
  rw [Machine.blockOf_toList, Machine.padTo_eq_take 512 l (by omega)]
  refine List.ext_getElem (by simp [h]) fun i hi _ => ?_
  obtain hlow | rfl | rfl : i < 512 ∨ i = 512 ∨ i = 513 := by simp [h] at hi; omega
  · simp [h, hlow]
  · simp [h]
  · simp [h]

/-! ### Host calls (R93) -/

theorem encodeUnit_of_decode {x : Byte} {u : DriveUnit} (h : decodeUnit x = some u) :
    encodeUnit u = x := by
  have hx : x = BitVec.ofNat 8 x.toNat := by simp
  unfold decodeUnit at h
  split at h <;> cases h <;> simp_all [encodeUnit]

theorem encodeDatabus_of_decode {x : Byte} {d : Databus} (h : decodeDatabus x = some d) :
    encodeDatabus d = x := by
  have hx : x = BitVec.ofNat 8 x.toNat := by simp
  unfold decodeDatabus at h
  split at h <;> cases h <;> simp_all [encodeDatabus]

/-- An image number of two bytes is read back from them (log 3). -/
theorem decode_encodeCall (app : Bool) (selector x : Byte) {image : Nat} (h : image < imageLimit) :
    decode app (encodeCall selector x image) = decodeHostCall selector.toNat x image := by
  have himage : (BitVec.ofNat 8 image).toNat + 256 * (BitVec.ofNat 8 (image / 256)).toNat = image := by
    simp only [imageLimit] at h
    simp only [BitVec.toNat_ofNat]
    omega
  simp only [decode, encodeCall, himage]

theorem encodeCall_of_bytes (selector x lo hi : Byte) :
    encodeCall selector x (lo.toNat + 256 * hi.toNat) = ⟨.hostCall, [selector, x, lo, hi]⟩ := by
  have hlo : BitVec.ofNat 8 (lo.toNat + 256 * hi.toNat) = lo := by
    apply BitVec.eq_of_toNat_eq
    simp only [BitVec.toNat_ofNat]
    omega
  have hhi : BitVec.ofNat 8 ((lo.toNat + 256 * hi.toNat) / 256) = hi := by
    apply BitVec.eq_of_toNat_eq
    simp only [BitVec.toNat_ofNat]
    omega
  rw [encodeCall, hlo, hhi]

/-- A call on a unit that decodes names its unit and no image. -/
theorem unitCall_ok {call : DriveUnit → Instr} {x : Byte} {image : Nat} {i : Instr}
    (h : unitCall call x image = .ok i) : ∃ u, i = call u ∧ encodeUnit u = x ∧ image = 0 := by
  unfold unitCall at h
  split at h
  · next u hu =>
    split at h
    · next himage => exact ⟨u, (Except.ok.inj h).symm, encodeUnit_of_decode hu, himage⟩
    · cases h
  · cases h

theorem plainCall_ok {call i : Instr} {x : Byte} {image : Nat} (h : plainCall call x image = .ok i) :
    i = call ∧ x = 0 ∧ image = 0 := by
  unfold plainCall at h
  split at h
  · next hzero => exact ⟨(Except.ok.inj h).symm, hzero⟩
  · cases h

/-- A host call that decodes is well formed and encoded as it was read. -/
theorem encode_decodeHostCall {selector x : Byte} {image : Nat} {i : Instr} (hi : image < imageLimit)
    (h : decodeHostCall selector.toNat x image = .ok i) :
    i.wellFormed = true ∧ encode i = encodeCall selector x image := by
  have hsel : selector = BitVec.ofNat 8 selector.toNat := by simp
  generalize selector.toNat = k at h hsel
  subst hsel
  unfold decodeHostCall at h
  split at h
  case h_1 =>
    split at h
    · next d hd =>
      split at h
      · next himage =>
        cases h
        exact ⟨rfl, by rw [encode, encodeDatabus_of_decode hd, himage]; rfl⟩
      · cases h
    · cases h
  case h_2 =>
    split at h
    · next u hu =>
      cases h
      exact ⟨decide_eq_true hi, by rw [encode, encodeUnit_of_decode hu]; rfl⟩
    · cases h
  case h_3 | h_4 | h_5 => obtain ⟨u, rfl, rfl, rfl⟩ := unitCall_ok h; exact ⟨rfl, rfl⟩
  case h_7 =>
    split at h
    · next hx => cases h; exact ⟨decide_eq_true hi, by rw [encode, hx]; rfl⟩
    · cases h
  case h_6 | h_8 | h_9 | h_10 => obtain ⟨rfl, rfl, rfl⟩ := plainCall_ok h; exact ⟨rfl, rfl⟩
  case h_11 => split at h <;> cases h

/-! ### The two directions -/

/-- Settles O3: by the instruction's format; a frame is read back by its mode, a host call from the two
bytes of its image number, everything else byte by byte. -/
theorem decodeOfEncode : Obligations.DecodeOfEncode := by
  intro i app hwf happ
  cases i with
  | ataCmdOther op =>
    exact congrArg Except.ok (Machine.decodeAtaCmd_other (opcode_free hwf))
  | cmd0GoIdleState arg crc | cmd8SendIfCond arg crc | cmd9SendCsd arg crc | cmd10SendCid arg crc
  | cmd17ReadSingleBlock arg crc | cmd24WriteBlock arg crc | cmd32EraseWrBlkStart arg crc
  | cmd33EraseWrBlkEnd arg crc | cmd38Erase arg crc | cmd55AppCmd arg crc | cmd58ReadOcr arg crc
  | acmd41SdSendOpCond arg crc => rw [happ rfl, encode, decode_encodeFrame]; rfl
  | cmdOther index arg crc =>
    rw [happ rfl, encode, decode_encodeFrame]
    exact congrArg Except.ok (decodeCmd_other (by simpa [Instr.wellFormed] using hwf) arg crc)
  | acmdOther index arg crc =>
    rw [happ rfl, encode, decode_encodeFrame]
    exact congrArg Except.ok (if_neg (by simpa [Instr.wellFormed] using hwf))
  | mmcDataBlock data crc1 crc2 => exact decode_encodeDataBlock app data crc1 crc2
  | ataNew d => cases d <;> rfl
  | ataEject u | ataCommit u | ataDirty u => cases u <;> rfl
  | ataInsert u image =>
    rw [encode, decode_encodeCall app _ _ (of_decide_eq_true hwf)]
    cases u <;> rfl
  | mmcInsert image => rw [encode, decode_encodeCall app _ _ (of_decide_eq_true hwf)]; rfl
  | _ => rfl

/-- Settles O4: by the format of the transaction. -/
theorem encodeOfDecode : Obligations.EncodeOfDecode := by
  intro app x i h
  obtain ⟨fmt, bytes⟩ := x
  simp only [decode] at h
  split at h
  case h_1 lo hi =>
    obtain ⟨hwf, hwrite | ⟨hread, hreg⟩⟩ := encode_decodeAtaXact h
    · exact ⟨hwf, .inl hwrite⟩
    · exact ⟨hwf, .inr (.inl ⟨lo, hi, rfl, hread, hreg⟩)⟩
  case h_2 op =>
    cases h
    obtain ⟨hwf, henc⟩ := encode_decodeAtaCmd op
    exact ⟨hwf, .inl henc⟩
  case h_3 lo hi =>
    split at h
    · next hhi => cases h; subst hhi; exact ⟨rfl, .inr (.inr ⟨lo, rfl, rfl⟩)⟩
    · split at h
      · next hhi => cases h; subst hhi; exact ⟨rfl, .inl rfl⟩
      · cases h
  case h_4 c a0 a1 a2 a3 k =>
    split at h
    · cases h
    · next hkind =>
      have hframe := encodeFrame_of_bytes (not_not.mp hkind) a0 a1 a2 a3 k
      split at h <;> cases h
      · obtain ⟨hwf, henc⟩ := encode_decodeAcmd (c.setWidth 6) (argOfBytes a0 a1 a2 a3) k
        exact ⟨hwf, .inl (henc.trans hframe)⟩
      · obtain ⟨hwf, henc⟩ := encode_decodeCmd (c.setWidth 6) (argOfBytes a0 a1 a2 a3) k
        exact ⟨hwf, .inl (henc.trans hframe)⟩
  case h_5 token rest =>
    split at h
    · cases h
    · next htoken =>
      split at h
      · cases h
      · next hlen =>
        cases h
        refine ⟨rfl, .inl ?_⟩
        rw [encode, dataBlockBytes, blockOf_append_crc (not_not.mp hlen), not_not.mp htoken]
  case h_6 sel x lo hi =>
    obtain ⟨hwf, henc⟩ := encode_decodeHostCall (by simp only [imageLimit]; omega) h
    exact ⟨hwf, .inl (henc.trans (encodeCall_of_bytes sel x lo hi))⟩
  case h_7 => cases h

/-- Settles O5: each written-out word is read by the decoder. -/
theorem writtenOutTransactions : Obligations.WrittenOutTransactions := by
  unfold Obligations.WrittenOutTransactions
  decide

end Sys2Proof
end

section
/-! The step (00_scope.md, 30_encoding.md) and the state after reset (70_reset_and_hazards.md). -/

namespace Sys2Proof.Machine

/-! ### One step -/

theorem step_idle {s : State} (h : s.inbox = []) : step s = .next s := by
  simp only [step, fetch, h]

theorem step_decoded {s : State} {x : Xact} {rest : List Xact} {i : Instr} (h : s.inbox = x :: rest)
    (hd : decode s.card.cmd55Issued x = .ok i) : step s = exec i { s with inbox := rest } := by
  simp only [step, fetch, h, hd]

theorem step_noSuchRegister {s : State} {x : Xact} {rest : List Xact} {k : Nat}
    (h : s.inbox = x :: rest) (hd : decode s.card.cmd55Issued x = .error (.noSuchRegister k)) :
    step s = .fault (.noSuchRegister k) := by
  simp only [step, fetch, h, hd]

theorem step_notATransaction {s : State} {x : Xact} {rest : List Xact} {e : DecodeError}
    (h : s.inbox = x :: rest) (hd : decode s.card.cmd55Issued x = .error e)
    (he : ∀ k, e ≠ .noSuchRegister k) : step s = .refused (.notATransaction e) := by
  simp only [step, fetch, h, hd]

/-- A step that completes was idle, or ran the instruction it decoded. -/
theorem step_next_cases {s t : State} (h : step s = .next t) :
    t = s ∨ ∃ x rest i, s.inbox = x :: rest ∧ decode s.card.cmd55Issued x = .ok i ∧
      exec i { s with inbox := rest } = .next t := by
  cases hin : s.inbox with
  | nil =>
    rw [step_idle hin] at h
    exact .inl (Host.Outcome.next.inj h).symm
  | cons x rest =>
    cases hd : decode s.card.cmd55Issued x with
    | ok i =>
      rw [step_decoded hin hd] at h
      exact .inr ⟨x, rest, i, rfl, hd, h⟩
    | error e =>
      by_cases he : ∃ k, e = .noSuchRegister k
      · obtain ⟨k, rfl⟩ := he
        rw [step_noSuchRegister hin hd] at h
        cases h
      · rw [step_notATransaction hin hd fun k hk => he ⟨k, hk⟩] at h
        cases h

/-- Settles O1: what the decoder reads is well formed, so the step runs it. -/
theorem stepRunsDecodedInstruction : Obligations.StepRunsDecodedInstruction :=
  fun _ _ _ _ hin hd _ => step_decoded hin hd

/-- Register indices 9 to 15, in a read or in a write, are no registers (R90). -/
theorem decodeAtaXact_noSuchRegister {k : Nat} (b : Byte) (hk : k < 32) (h : 9 ≤ k % 16) :
    decodeAtaXact k b = .error (.noSuchRegister (k % 16)) := by
  unfold decodeAtaXact
  split
  case h_19 => rw [if_pos hk]
  all_goals exfalso; omega

/-- Settles O2: by what the inbox holds and what the decoder says of it. -/
theorem stepWithoutInstruction : Obligations.StepWithoutInstruction :=
  ⟨fun _ => step_idle,
    fun _ _ lo _ hin hlt hreg =>
      step_noSuchRegister hin (decodeAtaXact_noSuchRegister lo hlt hreg),
    fun _ _ _ _ => step_notATransaction⟩

/-! ### After reset (R50, R51) -/

theorem fileBytes_unlisted (image offset n : Nat) :
    State.reset.env.fileBytes image offset n = List.replicate n 0x00 := by
  simp [Env.fileBytes, readBytes, State.reset, readByte, unlistedByte, List.map_const']

/-- Settles O6: every clause is the reset record's own field, but for the queue and the files, which
are empty. -/
theorem resetIsConstruction : Obligations.ResetIsConstruction :=
  ⟨rfl, rfl, rfl, rfl, rfl, rfl, rfl, rfl, rfl, rfl, rfl, rfl, rfl, rfl, rfl, rfl, rfl, rfl,
    fileBytes_unlisted⟩

/-- The IDLE bit is the only one that construction may set in R1 (R51). -/
theorem r1AtReset_reserved (p : Params) : r1AtReset p &&& 0xA8 = 0 := by
  unfold r1AtReset; split <;> decide

theorem paramsOk_default : paramsOk paramsDefault := by
  unfold paramsOk; decide

/-- A newly constructed channel is in order if the parameters are (R50). -/
theorem Channel.fresh_ok {p : Params} (h : paramsOk p) (databus : Databus) (feature data2 : Byte)
    (buffer : Sector) : (Channel.fresh p databus feature data2 buffer).ok := by
  obtain ⟨hhead, -⟩ := h
  refine ⟨?_, ?_, Nat.zero_le _, fun hp => absurd rfl hp, fun _ => rfl⟩
  · rintro (_ | _) d hd <;> cases hd
  · exact (if_neg (Bool.eq_false_iff.mp hhead)).symm

/-- A newly constructed card controller is in order (R51). -/
theorem Card.fresh_ok (p : Params) (currentCommand : BitVec 6) (arg0 arg1 arg2 arg3 : Byte)
    (sendBuffer : Sector) (responseBuffer : Vector Byte 516) (eraseStart eraseEnd : BitVec 32) :
    (Card.fresh p currentCommand arg0 arg1 arg2 arg3 sendBuffer responseBuffer eraseStart
      eraseEnd).ok :=
  ⟨nofun, Nat.le_refl 0, Nat.zero_le _, nofun, r1AtReset_reserved p⟩

/-- Settles O58: reset is construction under the default parameters, with no drive and no file byte. -/
theorem resetMeetsInvariant : Obligations.ResetMeetsInvariant :=
  ⟨paramsOk_default, Channel.fresh_ok paramsOk_default _ _ _ _, Card.fresh_ok _ _ _ _ _ _ _ _ _ _,
    rfl, nofun⟩

end Sys2Proof.Machine
end

section
/-! ATA register access (41_ata_register_access.md): the registers, and the DATA accesses of a
transfer. -/

namespace Sys2Proof.Machine

/-! ### Registers other than DATA and COMMAND (R150 to R168) -/

theorem readRegister_present {s : State} {d : Drive} (h : s.chan.drv = some d)
    (value : Channel → Drive → Byte) :
    readRegister value s = .next { s with result := .byte (value s.chan d) } := by
  simp only [readRegister, h]; rfl

theorem readRegister_absent {s : State} (h : s.chan.drv = none) (value : Channel → Drive → Byte) :
    readRegister value s = .next { s with result := .byte s.cfg.ataAbsentRead } := by
  simp only [readRegister, h]; rfl

/-- Settles O7: each read is `readRegister` of its register. -/
theorem registerReadsReturnTheirValue : Obligations.RegisterReadsReturnTheirValue := fun _ _ h =>
  ⟨readRegister_present h fun _ d => d.error, readRegister_present h fun c _ => c.sectorCount,
    readRegister_present h fun c _ => c.sector, readRegister_present h fun c _ => c.cylinderLow,
    readRegister_present h fun c _ => c.cylinderHigh, readRegister_present h fun c _ => c.head,
    readRegister_present h fun _ d => d.status, readRegister_present h fun c _ => c.data2⟩

/-- The registers whose read is no more than a value. -/
def plainReads : List Instr :=
  [.ataRdError, .ataRdSectorCount, .ataRdSector, .ataRdCylinderLow, .ataRdCylinderHigh,
    .ataRdHeadDrive, .ataRdStatus, .ataRdData2]

theorem exec_plainRead {i : Instr} (h : i ∈ plainReads) :
    ∃ value : Channel → Drive → Byte, ∀ s, exec i s = readRegister value s := by
  simp only [plainReads, List.mem_cons, List.not_mem_nil, or_false] at h
  obtain rfl | rfl | rfl | rfl | rfl | rfl | rfl | rfl := h
  · exact ⟨fun _ d => d.error, fun _ => rfl⟩
  · exact ⟨fun c _ => c.sectorCount, fun _ => rfl⟩
  · exact ⟨fun c _ => c.sector, fun _ => rfl⟩
  · exact ⟨fun c _ => c.cylinderLow, fun _ => rfl⟩
  · exact ⟨fun c _ => c.cylinderHigh, fun _ => rfl⟩
  · exact ⟨fun c _ => c.head, fun _ => rfl⟩
  · exact ⟨fun _ d => d.status, fun _ => rfl⟩
  · exact ⟨fun c _ => c.data2, fun _ => rfl⟩

/-- Settles O8: each write is `writeRegister` of its register, which looks at no other state. -/
theorem registerWritesStoreTheByte : Obligations.RegisterWritesStoreTheByte :=
  fun _ _ => ⟨rfl, rfl, rfl, rfl, rfl, rfl, rfl⟩

/-! ### DATA and COMMAND outside a transfer (R150, R169, R174) -/

theorem exec_ataRdData_absent {s : State} (h : s.chan.drv = none) :
    exec .ataRdData s = .next { s with result := .byte s.cfg.ataAbsentRead } := by
  simp only [exec, execAtaRdData, h]; rfl

theorem exec_ataWrData_absent {s : State} (h : s.chan.drv = none) (b : Byte) :
    exec (.ataWrData b) s = .next { s with result := .nothing } := by
  simp only [exec, execAtaWrData, h]; rfl

theorem exec_ataRdData_gated {s : State} {d : Drive} (h : s.chan.drv = some d)
    (hp : s.chan.phase ≠ .pioIn) : exec .ataRdData s = .next { s with result := .byte 0xFF } := by
  simp only [exec, execAtaRdData, h, if_neg hp]; rfl

theorem exec_ataWrData_gated {s : State} {d : Drive} (h : s.chan.drv = some d)
    (hp : s.chan.phase ≠ .pioOut) (b : Byte) :
    exec (.ataWrData b) s = .next { s with result := .nothing } := by
  simp only [exec, execAtaWrData, h, if_neg hp]; rfl

/-- A COMMAND write with the selected slot empty is ignored, whatever the opcode. -/
theorem exec_ataWrCommand_absent {s : State} (h : s.chan.drv = none) (b : Byte) :
    exec (.ataWrCommand b) s = .next { s with result := .nothing } := by
  obtain ⟨body, -, hexec⟩ := command_body b
  rw [(hexec s).1, acceptCommand_none h]
  rfl

/-- A read of the card without a card. -/
theorem exec_spiRd_absent {s : State} (h : s.card.slot = none) :
    exec .spiRd s = .next { s with result := .byte 0xFF } :=
  if_neg (by simp [h])

/-- Settles O9: nothing is selected, so a read gives the parameter and only the plain registers take
their byte. -/
theorem absentDriveOrCard : Obligations.AbsentDriveOrCard := by
  intro s
  refine ⟨exec_spiRd_absent, fun h i hi => ?reads, fun h b => ?writes⟩
  case reads =>
    rcases List.mem_cons.mp hi with rfl | hplain
    · exact exec_ataRdData_absent h
    · obtain ⟨value, hexec⟩ := exec_plainRead hplain
      rw [hexec, readRegister_absent h]
  case writes =>
    exact ⟨exec_ataWrData_absent h b, exec_ataWrCommand_absent h b, rfl, rfl, rfl, rfl, rfl, rfl, rfl⟩

/-- Settles O10: the gates. -/
theorem dataAccessOutsideItsPhase : Obligations.DataAccessOutsideItsPhase :=
  fun _ _ h => ⟨exec_ataRdData_gated h, exec_ataWrData_gated h⟩

/-! ### A DATA access in its phase, then the end-of-buffer step (R169 to R180) -/

section Transfer
variable {s : State} {d : Drive} (hd : s.chan.drv = some d)

section Read
variable (hp : s.chan.phase = .pioIn)
include hd hp

theorem exec_ataRdData_pioIn :
    exec .ataRdData s =
      completes (.byte (busReadByte s.chan)) (endOfBufferIn d (s.mapChan busRead)) := by
  simp only [exec, execAtaRdData, hd, if_pos hp]

theorem exec_ataRdData_inside (h : s.chan.datacounter + busStep s.chan.databus < 512) :
    exec .ataRdData s =
      .next { s with chan := busRead s.chan, result := .byte (busReadByte s.chan) } := by
  rw [exec_ataRdData_pioIn hd hp, endOfBufferIn, if_neg (by simpa using h)]
  rfl

theorem exec_ataRdData_ends (h : 512 ≤ s.chan.datacounter + busStep s.chan.databus)
    (hcount : s.chan.sectorCount = 0) :
    exec .ataRdData s = .next { s with
      chan :=
        { (busRead s.chan).setDrive s.chan.selected (some { d with status := d.status &&& 0xF7 }) with
          phase := .ready }
      result := .byte (busReadByte s.chan) } := by
  rw [exec_ataRdData_pioIn hd hp, endOfBufferIn, if_pos (by simpa using h),
    if_neg (by simpa using hcount), State.mapChan, State.mapChan_chan,
    endTransfer_eq (c := busRead s.chan) (d := d) hd]
  rfl

theorem exec_ataRdData_reloads (h : 512 ≤ s.chan.datacounter + busStep s.chan.databus)
    (hcount : s.chan.sectorCount ≠ 0) :
    exec .ataRdData s =
      completes (.byte (busReadByte s.chan)) (loadSector d (s.mapChan busRead)) := by
  rw [exec_ataRdData_pioIn hd hp, endOfBufferIn, if_pos (by simpa using h),
    if_pos (by simpa using hcount)]

end Read

section Write
variable (hp : s.chan.phase = .pioOut) (b : Byte)
include hd hp

theorem exec_ataWrData_inside (h : s.chan.datacounter + busStep s.chan.databus < 512) :
    exec (.ataWrData b) s =
      .next { s with chan := busWrite s.cfg b s.chan, result := .nothing } := by
  simp only [exec, execAtaWrData, hd, if_pos hp]
  rw [endOfBufferOut, if_neg (by simpa using h)]
  rfl

theorem exec_ataWrData_fills (h : 512 ≤ s.chan.datacounter + busStep s.chan.databus) :
    exec (.ataWrData b) s =
      completes .nothing (storeSector d (s.mapChan (busWrite s.cfg b))) := by
  simp only [exec, execAtaWrData, hd, if_pos hp]
  rw [endOfBufferOut, if_pos (by simpa using h)]

end Write
end Transfer

/-- A sector received while PioIn is already open: the phase stays. -/
theorem receiveSector_again {c : Channel} {d : Drive} (h : c.drv = some d) (hp : c.phase = .pioIn)
    (v : Sector) :
    receiveSector v c =
      { c.setDrive c.selected (some { d with status := d.status ||| 0x08 }) with
        buffer := v, datacounter := 0 } := by
  rw [receiveSector_eq h, ← hp]
  cases c.selected <;> rfl

/-- Settles O11: `busRead` and the byte it passes, policy by policy. -/
theorem dataReadInsideBuffer : Obligations.DataReadInsideBuffer := by
  intro s d hd hp
  split <;> next hbus =>
    intro hinside
    rw [exec_ataRdData_inside hd hp (by simpa only [hbus, busStep] using hinside)]
    simp [busRead, busReadByte, busStep, busIndex, hbus]

/-- Settles O12: no sector is left, so the end of the buffer is the end of the transfer. -/
theorem dataReadEndsTransfer : Obligations.DataReadEndsTransfer :=
  fun _ _ hd hp hend hcount => exec_ataRdData_ends hd hp hend hcount

/-- Settles O13: the end of the buffer is a load_sector, by its three outcomes. -/
theorem dataReadReloads : Obligations.DataReadReloads := by
  intro s d hd hp hend hcount
  have hexec := exec_ataRdData_reloads hd hp hend hcount
  refine ⟨fun n haddr hgives => ?loaded, fun n haddr hfails => ?storeFailure, fun haddr => ?range⟩
  case loaded =>
    rw [hexec, loadSector_gives (s := s.mapChan busRead) haddr hgives,
      receiveSector_again (d := d) (by simpa using hd)
      (by simpa using hp), seekAdvance_selected]
    rfl
  case storeFailure =>
    rw [hexec, loadSector_fails (s := s.mapChan busRead) haddr hfails,
      endTransfer_error (d := d) (by simpa using hd),
      readErrorByte_eq, seekAdvance_selected]
    rfl
  case range =>
    rw [hexec, loadSector_range (s := s.mapChan busRead) haddr, State.mapChan, rangeError,
      endTransfer_error (d := d) (by simpa using hd), rangeErrorByte_eq]
    rfl

/-- The byte-swapped index stays inside the buffer. -/
theorem xor_one_lt {k : Nat} (h : k < 512) : k ^^^ 1 < 512 := Nat.xor_lt_two_pow (n := 9) h (by decide)

/-- Two neighbouring bytes stored one after the other. -/
theorem byteAt_setByte_pair {n : Nat} (v : Vector Byte n) {i : Nat} (hi : i + 1 < n) (b b' : Byte)
    (k : Nat) :
    byteAt (setByte (setByte v i b) (i + 1) b') k =
      if k = i then b else if k = i + 1 then b' else byteAt v k := by
  rw [byteAt_setByte _ _ _ _ hi, byteAt_setByte _ _ _ _ (by omega)]
  grind

/-- Settles O14: the buffer that the policy writes, byte by byte. -/
theorem dataWriteInsideBuffer : Obligations.DataWriteInsideBuffer := by
  intro s d b hd hp hinside
  refine ⟨busWriteBuffer s.cfg b s.chan, ?next, ?bytes⟩
  case next => exact exec_ataWrData_inside hd hp b hinside
  case bytes =>
    simp only [busWriteBuffer, busIndex]
    split <;> rename_i hbus <;> simp only [hbus, busStep] at hinside ⊢
    · exact fun k _ => byteAt_setByte_pair _ (by omega) b _ k
    · exact fun k _ => byteAt_setByte _ _ b k (by omega)
    · exact fun k _ => byteAt_setByte _ _ b k (xor_one_lt (by omega))
    · exact fun k _ => byteAt_setByte_pair _ (by omega) b _ k

/-- Settles O15: the end of the buffer is a store_sector, by its two outcomes. -/
theorem dataWriteCompletesSector : Obligations.DataWriteCompletesSector := by
  intro s d b hd hp hend
  refine ⟨fun n haddr => ?stored, fun haddr => ?range⟩
  case stored =>
    rw [exec_ataWrData_fills hd hp b hend,
      storeSector_valid (s := s.mapChan (busWrite s.cfg b)) haddr (by simpa using hd)]
    rfl
  case range =>
    rw [exec_ataWrData_fills hd hp b hend,
      storeSector_range (s := s.mapChan (busWrite s.cfg b)) haddr, State.mapChan, rangeError,
      endTransfer_error (d := d) (by simpa using hd), rangeErrorByte_eq]
    rfl

/-! ### Whole buffers, access by access -/

/-- The first of several operations, then the rest. -/
theorem runs_cons_next {i : Instr} {s t : State} (h : exec i s = .next t) (l : List Instr) :
    runs (i :: l) s = (runs l t).map fun rt => (t.result :: rt.1, rt.2) := by
  simp only [runs, h]

/-- The bytes that n DATA reads return, from the counter on, in the policy's order. -/
def drained (c : Channel) (n : Nat) : List Result :=
  (List.range n).map fun k =>
    .byte (byteAt c.buffer (busIndex c.databus (c.datacounter + busStep c.databus * k)))

theorem drained_succ (c : Channel) (n : Nat) :
    drained c (n + 1) = .byte (busReadByte c) :: drained (busRead c) n := by
  simp only [drained, List.range_succ_eq_map, List.map_cons, List.map_map, busReadByte, busRead,
    Nat.mul_zero, Nat.add_zero]
  congr 1
  refine List.map_congr_left fun k _ => ?_
  simp only [Function.comp_apply, Nat.mul_succ, Nat.add_comm (busStep c.databus * k), Nat.add_assoc]

/-- A channel whose transfer from the selected drive d has ended with the whole buffer read. -/
def readOut (d : Drive) (c : Channel) : Channel :=
  { c.setDrive c.selected (some { d with status := d.status &&& 0xF7 }) with
    phase := .ready, datacounter := 512
    data2 := if c.databus = .d16Data2 then byteAt c.buffer 511 else c.data2 }

theorem readOut_busRead (d : Drive) (c : Channel) : readOut d (busRead c) = readOut d c := by
  unfold readOut
  cases hs : c.selected <;> by_cases hb : c.databus = .d16Data2 <;>
    simp [busRead, Channel.setDrive, hs, hb]

/-- The last read leaves the channel read out. -/
theorem readOut_last {c : Channel} (h : c.datacounter + busStep c.databus = 512) (d : Drive) :
    { (busRead c).setDrive c.selected (some { d with status := d.status &&& 0xF7 }) with
      phase := .ready } = readOut d c := by
  unfold readOut busRead
  by_cases hb : c.databus = .d16Data2
  · rw [hb] at h
    have hodd : c.datacounter + 1 = 511 := by simp only [busStep] at h; omega
    cases hs : c.selected <;> simp [Channel.setDrive, hs, hb, h, hodd]
  · cases hs : c.selected <;> simp [Channel.setDrive, hs, hb, h]

/-- With no sector left, as many reads as the buffer still holds return them and end the transfer. -/
theorem runs_dataReads (n : Nat) : ∀ {s : State} {d : Drive}, s.chan.drv = some d →
    s.chan.phase = .pioIn → s.chan.sectorCount = 0 →
    s.chan.datacounter + busStep s.chan.databus * (n + 1) = 512 →
    ∃ r, runs (List.replicate (n + 1) .ataRdData) s =
      some (drained s.chan (n + 1), { s with chan := readOut d s.chan, result := r }) := by
  induction n with
  | zero =>
    intro s d hd hp hcount hleft
    have hlast : s.chan.datacounter + busStep s.chan.databus = 512 := by omega
    have hend := exec_ataRdData_ends hd hp (by omega) hcount
    rw [readOut_last hlast] at hend
    exact ⟨.byte (busReadByte s.chan), by rw [List.replicate_one, runs_cons_next hend]; rfl⟩
  | succ n ih =>
    intro s d hd hp hcount hleft
    have hstep : 0 < busStep s.chan.databus := by cases s.chan.databus <;> decide
    have hread := exec_ataRdData_inside hd hp (by rw [Nat.mul_succ] at hleft; nlinarith)
    obtain ⟨r, hruns⟩ := ih (s := { s with
      chan := busRead s.chan, result := .byte (busReadByte s.chan) }) (d := d) hd hp hcount
      (by simp only [busRead]; rw [Nat.mul_succ] at hleft; omega)
    refine ⟨r, ?_⟩
    rw [List.replicate_succ, runs_cons_next hread, hruns, drained_succ s.chan, readOut_busRead]
    rfl

/-- Settles O16: the drain from counter 0, its bytes read off policy by policy. -/
theorem dataReadsDrainTheBuffer : Obligations.DataReadsDrainTheBuffer := by
  intro s d hd hp hzero hcount
  obtain ⟨n, hn⟩ : ∃ n, 512 / busStep s.chan.databus = n + 1 :=
    ⟨512 / busStep s.chan.databus - 1, by cases s.chan.databus <;> rfl⟩
  have hwhole : busStep s.chan.databus * (n + 1) = 512 := by
    rw [← hn]; cases s.chan.databus <;> rfl
  obtain ⟨r, hruns⟩ := runs_dataReads n hd hp hcount (by rw [hzero, hwhole])
  refine ⟨{ s with chan := readOut d s.chan, result := r }, ?_, rfl⟩
  rw [hn, hruns]
  congr 2
  refine List.map_congr_left fun k _ => ?_
  rw [hzero, Nat.zero_add]
  cases s.chan.databus <;> simp [busStep, busIndex]

/-- A channel whose transfer to sector n of the selected drive d has ended with the buffer v stored. -/
def writtenOut (d : Drive) (n : Nat) (v : Sector) (c : Channel) : Channel :=
  { c.setDrive c.selected (some { memWrite d n v with status := d.status &&& 0xF7 }) with
    buffer := v, phase := .ready, datacounter := 512, sectorCount := 0 }

theorem writtenOut_busWrite (d : Drive) (n : Nat) (v : Sector) (p : Params) (b : Byte) (c : Channel) :
    writtenOut d n v (busWrite p b c) = writtenOut d n v c := by
  unfold writtenOut
  cases hs : c.selected <;> simp [busWrite, Channel.setDrive, hs]

/-- With one sector to go, a seek only counts it. -/
theorem seekAdvance_last {c : Channel} (h : c.sectorCount = 1) (d : Drive) :
    seekAdvance d c = { c with sectorCount := 0 } := by
  rw [seekAdvance, if_neg (by simp [h]), h]
  rfl

/-- The write of the last byte of the last sector. -/
theorem storeSector_last {s : State} {d : Drive} {n : Nat} {b : Byte}
    (haddr : address s.chan d = some n) (hd : s.chan.drv = some d) (hcount : s.chan.sectorCount = 1)
    (hlast : s.chan.datacounter + busStep s.chan.databus = 512) :
    storeSector d (s.mapChan (busWrite s.cfg b)) =
      { s with chan := writtenOut d n (busWriteBuffer s.cfg b s.chan) s.chan } := by
  rw [storeSector_valid (s := s.mapChan (busWrite s.cfg b)) haddr hd, if_pos (by simp [hcount]),
    seekAdvance_last (c := (s.mapChan (busWrite s.cfg b)).chan) hcount, writtenOut, ← hlast]
  cases hs : s.chan.selected <;> simp [State.mapChan, busWrite, Channel.setDrive, hs]

theorem busWriteBuffer_d16 {c : Channel} (h : c.databus = .d16) (p : Params) (b : Byte) :
    busWriteBuffer p b c = setByte c.buffer c.datacounter b := by
  simp only [busWriteBuffer, h, busIndex]

/-- Under D16, one write for each byte that the buffer still lacks, for the last sector: they fill the
buffer from the counter on, and the last one stores it. -/
theorem runs_dataWrites {d : Drive} {n : Nat} (l : List Byte) : ∀ {b : Byte} {s : State},
    s.chan.drv = some d → s.chan.databus = .d16 → s.chan.phase = .pioOut → s.chan.sectorCount = 1 →
    address s.chan d = some n → s.chan.datacounter + (l.length + 1) = 512 →
    ∃ v : Sector,
      runs ((b :: l).map .ataWrData) s = some (List.replicate (l.length + 1) .nothing,
        { s with chan := writtenOut d n v s.chan, result := .nothing }) ∧
      ∀ k, byteAt v k = if s.chan.datacounter ≤ k ∧ k < 512 then
        (b :: l).getD (k - s.chan.datacounter) 0 else byteAt s.chan.buffer k := by
  induction l with
  | nil =>
    intro b s hd hbus hp hcount haddr hleft
    simp only [List.length_nil] at hleft
    have hfill := exec_ataWrData_fills hd hp b (by rw [hbus, busStep]; omega)
    rw [storeSector_last haddr hd hcount (by rw [hbus, busStep]; omega)] at hfill
    refine ⟨busWriteBuffer s.cfg b s.chan, by rw [List.map_singleton, runs_cons_next hfill]; rfl,
      fun k => ?_⟩
    rw [busWriteBuffer_d16 hbus, byteAt_setByte _ _ _ _ (by omega)]
    by_cases hk : k = s.chan.datacounter
    · subst hk; rw [if_pos rfl, if_pos ⟨le_rfl, by omega⟩, Nat.sub_self]; rfl
    · rw [if_neg hk, if_neg (by omega)]
  | cons b' l ih =>
    intro b s hd hbus hp hcount haddr hleft
    simp only [List.length_cons] at hleft
    have hwrite := exec_ataWrData_inside hd hp b (by rw [hbus, busStep]; omega)
    obtain ⟨v, hruns, hbytes⟩ := ih (b := b') (s := { s with
      chan := busWrite s.cfg b s.chan, result := .nothing }) hd hbus hp hcount haddr
      (by simp only [busWrite, hbus, busStep]; omega)
    refine ⟨v, ?_, ?_⟩
    · rw [List.map_cons, runs_cons_next hwrite, hruns, writtenOut_busWrite]
      rfl
    · intro k
      rw [hbytes k]
      simp only [busWrite, hbus, busStep, busWriteBuffer_d16 hbus]
      rw [byteAt_setByte _ _ _ _ (by omega)]
      by_cases hk : k = s.chan.datacounter
      · subst hk; rw [if_neg (by omega), if_pos rfl, if_pos ⟨le_rfl, by omega⟩, Nat.sub_self]; rfl
      · rw [if_neg hk]
        by_cases hlater : s.chan.datacounter + 1 ≤ k ∧ k < 512
        · rw [if_pos hlater, if_pos (by omega),
            show k - s.chan.datacounter = k - (s.chan.datacounter + 1) + 1 by omega,
            List.getD_cons_succ]
        · rw [if_neg hlater, if_neg (by omega)]

/-- Settles O17: the 512 bytes fill the buffer from its start, so they are what is stored. -/
theorem dataWritesStoreOneSector : Obligations.DataWritesStoreOneSector := by
  intro s d n v hd hbus hp hzero hcount haddr
  obtain ⟨b, l, hv⟩ : ∃ b l, v.toList = b :: l :=
    List.exists_cons_of_length_eq_add_one (n := 511) (by simp)
  have hlen : l.length = 511 := by simpa [hv] using v.length_toList
  obtain ⟨w, hruns, hbytes⟩ := runs_dataWrites l (b := b) hd hbus hp hcount haddr (by omega)
  have hw : w = v := vector_ext_byteAt fun k hk => by
    rw [hbytes k, hzero, if_pos ⟨Nat.zero_le k, hk⟩, ← hv, byteAt_eq, Nat.sub_zero]
  rw [hv, hruns, hlen, hw]
  rfl

end Sys2Proof.Machine
end

section
/-! The ATA commands (42_ata_commands.md). -/

namespace Sys2Proof.Machine

/-! ### Every command is the acceptance of one of five procedures (R190 to R199) -/

/-- The instructions that hand a command to the drive. -/
def commands (op : Byte) : List Instr :=
  [.readSectorRetry, .readSectorNoretry, .writeSectorRetry, .writeSectorNoretry, .identifyDriveAta,
    .identifyDriveAtapi, .initializeDeviceParameters, .ataCmdOther op, .ataWrCommand op]

/-- The procedures of the commands. -/
def isCommandBody (body : Drive → State → State) : Prop :=
  body = readBegin ∨ body = writeBegin ∨ body = identifyDevice ∨ body = initDeviceParams ∨
    body = abort

theorem exec_command {i : Instr} {op : Byte} (h : i ∈ commands op) :
    ∃ body, isCommandBody body ∧ ∀ s, exec i s = completes .nothing (acceptCommand body s) := by
  simp only [commands, List.mem_cons, List.not_mem_nil, or_false] at h
  unfold isCommandBody
  obtain rfl | rfl | rfl | rfl | rfl | rfl | rfl | rfl | rfl := h
  · exact ⟨readBegin, by simp, fun _ => rfl⟩
  · exact ⟨readBegin, by simp, fun _ => rfl⟩
  · exact ⟨writeBegin, by simp, fun _ => rfl⟩
  · exact ⟨writeBegin, by simp, fun _ => rfl⟩
  · exact ⟨identifyDevice, by simp, fun _ => rfl⟩
  · exact ⟨identifyDevice, by simp, fun _ => rfl⟩
  · exact ⟨initDeviceParams, by simp, fun _ => rfl⟩
  · exact ⟨abort, by simp, fun _ => rfl⟩
  · obtain ⟨body, hbody, hexec⟩ := command_body op
    exact ⟨body, hbody, fun s => (hexec s).1⟩

/-- Settles O19: acceptance looks at the phase first. -/
theorem commandsIgnoredOutsideReady : Obligations.CommandsIgnoredOutsideReady := by
  intro s op hp i hi
  obtain ⟨body, -, hexec⟩ := exec_command (op := op) hi
  rw [hexec, acceptCommand_busy hp]
  rfl

/-! ### The procedures on an accepted command -/

/-- The state in which the procedure of an accepted command starts: the preamble has run. -/
def State.accepted (d : Drive) (s : State) : State :=
  { s with chan := s.chan.setDrive s.chan.selected (some d.afterPreamble) }

theorem accepted_drv (d : Drive) (s : State) : (s.accepted d).chan.drv = some d.afterPreamble :=
  setDrive_drv

section Accepted
variable {s : State} {d : Drive} (hd : s.chan.drv = some d) (hp : s.chan.phase = .ready)
include hd hp

theorem exec_accepted {i : Instr} {body : Drive → State → State}
    (hi : exec i s = completes .nothing (acceptCommand body s)) :
    exec i s = completes .nothing (body d.afterPreamble (s.accepted d)) := by
  rw [hi, acceptCommand_ready hd hp]
  rfl

theorem exec_read {i : Instr} (hi : i ∈ [Instr.readSectorRetry, .readSectorNoretry]) :
    exec i s = completes .nothing (loadSector d.afterPreamble (s.accepted d)) := by
  simp only [List.mem_cons, List.not_mem_nil, or_false] at hi
  obtain rfl | rfl := hi <;> exact exec_accepted hd hp rfl

theorem exec_write {i : Instr} (hi : i ∈ [Instr.writeSectorRetry, .writeSectorNoretry]) :
    exec i s = completes .nothing ((s.accepted d).mapChan (openTransfer .pioOut)) := by
  simp only [List.mem_cons, List.not_mem_nil, or_false] at hi
  obtain rfl | rfl := hi <;> exact exec_accepted hd hp (body := writeBegin) rfl

theorem exec_identify {i : Instr} (hi : i ∈ [Instr.identifyDriveAta, .identifyDriveAtapi]) :
    exec i s = completes .nothing (identifyDevice d.afterPreamble (s.accepted d)) := by
  simp only [List.mem_cons, List.not_mem_nil, or_false] at hi
  obtain rfl | rfl := hi <;> exact exec_accepted hd hp rfl

end Accepted

/-- The taken-over phase of a channel that is Ready: writing Ready there changes nothing. -/
theorem with_phase_ready {c : Channel} (h : c.phase = .ready) : { c with phase := .ready } = c := by
  rw [← h]

/-- Settles O20: load_sector after the preamble, its store read a success. -/
theorem readCommandLoadsSector : Obligations.ReadCommandLoadsSector := by
  intro s d n hd hp haddr hgives i hi
  rw [exec_read hd hp hi, loadSector_gives (s := s.accepted d) (n := n) (by simpa [State.accepted])
    (by simpa [State.accepted]), receiveSector_eq (d := d.afterPreamble)
    (by rw [seekAdvance_drv, accepted_drv])]
  simp [State.accepted, completes, State.returns]

/-- Settles O21: load_sector after the preamble, by its two failures; the phase was Ready and stays. -/
theorem readCommandFailures : Obligations.ReadCommandFailures := by
  intro s d hd hp i hi
  refine ⟨fun haddr => ?range, fun n haddr hfails => ?storeFailure⟩
  case range =>
    rw [exec_read hd hp hi, loadSector_range (s := s.accepted d) (by simpa [State.accepted]),
      State.mapChan, rangeError, endTransfer_error (accepted_drv d s), rangeErrorByte_eq,
      with_phase_ready (by simp [State.accepted, hp])]
    simp [State.accepted, completes, State.returns]; rfl
  case storeFailure =>
    rw [exec_read hd hp hi, loadSector_fails (s := s.accepted d) (n := n) (by simpa [State.accepted])
      (by simpa [State.accepted]), endTransfer_error (d := d.afterPreamble)
      (by rw [seekAdvance_drv, accepted_drv]), readErrorByte_eq,
      with_phase_ready (by simp [State.accepted, hp])]
    simp [State.accepted, completes, State.returns]; rfl

/-- Settles O22: the transfer opens, with no look at the address. -/
theorem writeCommandOpensTransfer : Obligations.WriteCommandOpensTransfer := by
  intro s d hd hp i hi
  rw [exec_write hd hp hi, State.mapChan, openTransfer_eq (accepted_drv d s)]
  simp [State.accepted, completes, State.returns]

/-- Settles O24: the preamble, then a geometry that the default effect leaves as it was. -/
theorem initializeDeviceParametersKeepsGeometry :
    Obligations.InitializeDeviceParametersKeepsGeometry := by
  intro s d hd hp
  rw [exec_accepted hd hp (body := initDeviceParams) rfl, initDeviceParams, State.mapChan,
    mapDrv_eq (accepted_drv d s)]
  simp [State.accepted, completes, State.returns, initParamsEffect]

/-- Settles O25: the preamble, then ERR and ABRT; a COMMAND write of such a byte is that command. -/
theorem unknownOpcodesAbort : Obligations.UnknownOpcodesAbort := by
  intro s d op hd hp
  refine ⟨?_, fun hwf => execAtaWrCommand_other (opcode_free hwf) s⟩
  rw [exec_accepted hd hp (body := abort) rfl, abort, State.mapChan, mapDrv_eq (accepted_drv d s)]
  simp [State.accepted, completes, State.returns, recordError, setErr, statusErr, errorAbrt]

/-! ### IDENTIFY (R202) -/

/-- A word stored is two bytes stored. -/
theorem byteAt_setWord {n : Nat} (v : Vector Byte n) {i : Nat} (hi : 2 * i + 1 < n) (w : BitVec 16)
    (k : Nat) :
    byteAt (setWord v i w) k =
      if k = 2 * i then w.extractLsb' 0 8 else if k = 2 * i + 1 then w.extractLsb' 8 8
      else byteAt v k :=
  byteAt_setByte_pair v hi _ _ k

/-- A word reads back as stored, and no other word changes. -/
theorem wordAt_setWord {n : Nat} (v : Vector Byte n) {i : Nat} (hi : 2 * i + 1 < n) (w : BitVec 16)
    (j : Nat) : wordAt (setWord v i w) j = if j = i then w else wordAt v j := by
  simp only [wordAt, byteAt_setWord v hi]
  by_cases hj : j = i
  · subst hj
    rw [if_pos rfl, if_neg (by omega), if_pos rfl, if_pos rfl]
    ext k hk
    rw [BitVec.getElem_append]
    grind
  · simp only [if_neg hj]
    rw [if_neg (by omega), if_neg (by omega), if_neg (by omega), if_neg (by omega)]

/-- A byte outside a stored word is as before. -/
theorem byteAt_setWord_other {n : Nat} (v : Vector Byte n) {i : Nat} (hi : 2 * i + 1 < n)
    (w : BitVec 16) {k : Nat} (hk : k / 2 ≠ i) : byteAt (setWord v i w) k = byteAt v k := by
  rw [byteAt_setWord v hi, if_neg (by omega), if_neg (by omega)]

/-- The stored identity, zeros behind it. -/
theorem byteAt_identityBuffer (d : Drive) {k : Nat} (hk : k < 512) :
    byteAt (identityBuffer d) k = if k < 106 then byteAt d.identity k else 0x00 := by
  rw [identityBuffer, byteAt_blockOf _ _ _ hk, byteAt_eq]
  split
  · rfl
  · next h => exact List.getD_eq_default _ _ (by simpa using h)

/-- Outside the seven words of the geometry and the capacity the block is the stored identity. -/
theorem byteAt_identifyBuffer (d : Drive) {k : Nat} (hk : k / 2 ∉ [54, 55, 56, 57, 58, 60, 61]) :
    byteAt (identifyBuffer d) k = byteAt (identityBuffer d) k := by
  simp only [List.mem_cons, List.not_mem_nil, or_false, not_or] at hk
  obtain ⟨h54, h55, h56, h57, h58, h60, h61⟩ := hk
  have hcurrent : byteAt (currentBuffer d) k = byteAt (identityBuffer d) k := by
    simp only [currentBuffer]
    rw [byteAt_setWord_other _ (by decide) _ h58, byteAt_setWord_other _ (by decide) _ h57,
      byteAt_setWord_other _ (by decide) _ h56, byteAt_setWord_other _ (by decide) _ h55,
      byteAt_setWord_other _ (by decide) _ h54]
  unfold identifyBuffer
  split
  · rw [byteAt_setWord_other _ (by decide) _ h61, byteAt_setWord_other _ (by decide) _ h60, hcurrent]
  · exact hcurrent

/-- The words of the current geometry and capacity, and the other words, before words 60 and 61. -/
theorem wordAt_currentBuffer (d : Drive) (j : Nat) :
    wordAt (currentBuffer d) j =
      if j = 58 then highWord d.total else if j = 57 then lowWord d.total
      else if j = 56 then d.sectors else if j = 55 then d.heads else if j = 54 then d.cylinders
      else wordAt (identityBuffer d) j := by
  simp only [currentBuffer]
  repeat rw [wordAt_setWord _ (by decide)]

/-- The capabilities word is the stored one (R202). -/
theorem wordAt_currentBuffer_capabilities (d : Drive) :
    wordAt (currentBuffer d) 49 = wordAt d.identity 49 := by
  rw [wordAt_currentBuffer]
  simp only [wordAt, Nat.reduceMul, Nat.reduceAdd]
  rw [byteAt_identityBuffer d (by decide), byteAt_identityBuffer d (by decide)]
  rfl

/-- With LBA in the capabilities words 60 and 61 hold the capacity. -/
theorem identifyBuffer_lba {d : Drive} (h : (wordAt d.identity 49).getLsbD 9 = true) :
    identifyBuffer d =
      setWord (setWord (currentBuffer d) 60 (lowWord d.total)) 61 (highWord d.total) := by
  rw [identifyBuffer, wordAt_currentBuffer_capabilities, if_pos h]

theorem identifyBuffer_chs {d : Drive} (h : (wordAt d.identity 49).getLsbD 9 = false) :
    identifyBuffer d = currentBuffer d := by
  rw [identifyBuffer, wordAt_currentBuffer_capabilities, if_neg (Bool.eq_false_iff.mp h)]

/-- In either case the words before 60 are those of the current buffer. -/
theorem wordAt_identifyBuffer (d : Drive) {j : Nat} (hj : j < 60) :
    wordAt (identifyBuffer d) j = wordAt (currentBuffer d) j := by
  cases h : (wordAt d.identity 49).getLsbD 9 with
  | false => rw [identifyBuffer_chs h]
  | true =>
    rw [identifyBuffer_lba h, wordAt_setWord _ (by decide), if_neg (by omega),
      wordAt_setWord _ (by decide), if_neg (by omega)]

theorem wordAt_identityBuffer_zero (d : Drive) {j : Nat} (hlow : 53 ≤ j) (hhigh : j < 256) :
    wordAt (identityBuffer d) j = 0 := by
  simp only [wordAt]
  rw [byteAt_identityBuffer d (by omega), byteAt_identityBuffer d (by omega), if_neg (by omega),
    if_neg (by omega)]
  rfl

/-- IDENTIFY opens the transfer on its own buffer, the count forced to 0. -/
theorem openTransfer_loaded {c : Channel} {d : Drive} (h : c.drv = some d) (v : Sector) (count : Byte) :
    openTransfer .pioIn { c with buffer := v, sectorCount := count } =
      { c.setDrive c.selected (some { d with status := d.status ||| 0x08 }) with
        buffer := v, sectorCount := count, phase := .pioIn, datacounter := 0 } := by
  rw [openTransfer_eq (c := { c with buffer := v, sectorCount := count }) (d := d) h]
  cases hs : c.selected <;> simp [Channel.setDrive, hs]

/-- Settles O23: the block is the stored identity under the words that the drive fills in. -/
theorem identifyLoadsIdentity : Obligations.IdentifyLoadsIdentity := by
  intro s d hd hp
  refine ⟨identifyBuffer d, fun i hi => ?next, fun k hk => ?identity, ?cylinders, ?heads, ?sectors,
    ?low, ?high, fun hlba => ⟨?lbaLow, ?lbaHigh⟩, fun hchs => ⟨?chsLow, ?chsHigh⟩,
    fun k hlow hhigh hk => ?zero⟩
  case next =>
    rw [exec_identify hd hp hi, identifyDevice, State.mapChan,
      openTransfer_loaded (accepted_drv d s)]
    simp [State.accepted, completes, State.returns]; rfl
  case identity =>
    rw [byteAt_identifyBuffer d (by simp only [List.mem_cons, List.not_mem_nil, or_false]; omega),
      byteAt_identityBuffer d (by omega), if_pos hk]
  case zero =>
    rw [byteAt_identifyBuffer d hk, byteAt_identityBuffer d hhigh, if_neg (by omega)]
  case lbaLow | lbaHigh =>
    rw [identifyBuffer_lba hlba, wordAt_setWord _ (by decide), wordAt_setWord _ (by decide)]
    rfl
  case chsLow | chsHigh =>
    rw [identifyBuffer_chs hchs, wordAt_currentBuffer,
      wordAt_identityBuffer_zero _ (by decide) (by decide)]
    rfl
  all_goals rw [wordAt_identifyBuffer d (by decide), wordAt_currentBuffer]; rfl

end Sys2Proof.Machine
end

section
/-! seek (42_ata_commands.md): the address in the task file, its range and its successor. -/

namespace Sys2Proof.Machine

/-- Settles O27: the range check of R206. -/
theorem acceptedAddressIsBelowTotal : Obligations.AcceptedAddressIsBelowTotal := fun _ _ _ => address_lt

/-! ### The registers as one number (R99, R208) -/

theorem toNat_append_eq {w v : Nat} (x : BitVec w) (y : BitVec v) :
    (x ++ y).toNat = x.toNat * 2 ^ v + y.toNat := by
  rw [BitVec.toNat_append, ← Nat.shiftLeft_add_eq_or_of_lt y.isLt, Nat.shiftLeft_eq]

/-- The two bytes of a word, put together, are the word. -/
theorem extract_append_extract (x : BitVec 16) : x.extractLsb' 8 8 ++ x.extractLsb' 0 8 = x := by
  apply BitVec.eq_of_toNat_eq
  refine (toNat_append_eq (x.extractLsb' 8 8) (x.extractLsb' 0 8)).trans ?_
  rw [BitVec.extractLsb'_toNat, BitVec.extractLsb'_toNat, Nat.shiftRight_eq_div_pow, Nat.shiftRight_zero]
  omega

/-- The 28-bit sector number, register by register. -/
theorem lbaNumber_toNat (c : Channel) :
    c.lbaNumber.toNat = ((c.headNibble.toNat * 256 + c.cylinderHigh.toNat) * 256
      + c.cylinderLow.toNat) * 256 + c.sector.toNat := by
  refine (toNat_append_eq (c.headNibble ++ c.cylinderHigh ++ c.cylinderLow) c.sector).trans ?_
  rw [toNat_append_eq, toNat_append_eq]
  rfl

/-- A register that does not wrap, and one that does. -/
theorem byte_succ (b : Byte) :
    (b + 1 ≠ 0 ∧ b.toNat < 255 ∧ (b + 1).toNat = b.toNat + 1) ∨ (b + 1 = 0 ∧ b.toNat = 255) := by
  revert b; decide +kernel

/-- The carry ripples through the registers: the number goes up by one, modulo 2^28 (R208). -/
theorem lbaNumber_advanceLba (c : Channel) : (advanceLba c).lbaNumber = c.lbaNumber + 1 := by
  apply BitVec.eq_of_toNat_eq
  rw [BitVec.toNat_add, lbaNumber_toNat, lbaNumber_toNat]
  have hnibble := c.headNibble.isLt
  have hnext : (c.headNibble + 1).toNat = (c.headNibble.toNat + 1) % 16 := BitVec.toNat_add ..
  have hlow := c.cylinderLow.isLt
  have hhigh := c.cylinderHigh.isLt
  unfold advanceLba
  obtain ⟨h1, l1, e1⟩ | ⟨h1, e1⟩ := byte_succ c.sector
  · simp only [if_pos h1, Channel.headNibble, e1, BitVec.reduceToNat] at *
    omega
  · rw [if_neg (not_not.mpr h1)]
    obtain ⟨h2, l2, e2⟩ | ⟨h2, e2⟩ := byte_succ c.cylinderLow
    · simp only [if_pos h2, Channel.headNibble, e1, e2, BitVec.reduceToNat] at *
      omega
    · rw [if_neg (not_not.mpr h2)]
      obtain ⟨h3, l3, e3⟩ | ⟨h3, e3⟩ := byte_succ c.cylinderHigh
      · simp only [if_pos h3, Channel.headNibble, e1, e2, e3, BitVec.reduceToNat] at *
        omega
      · simp only [if_neg (not_not.mpr h3), Channel.headNibble, e1, e2, e3, withNibble_low, hnext,
          BitVec.reduceToNat] at *
        omega

/-! ### seek, by mode and by what the registers hold (R205, R208, R209) -/

section Remaining
variable {c : Channel} (hcount : c.sectorCount ≠ 1) (d : Drive)
include hcount

/-- With sectors remaining a seek counts and advances. -/
theorem seekAdvance_remaining :
    seekAdvance d c = advance { c with sectorCount := c.sectorCount - 1 } d :=
  if_pos fun h => hcount (by bv_omega)

theorem lbaNumber_seekAdvance (hlba : c.lba = true) :
    (seekAdvance d c).lbaNumber = c.lbaNumber + 1 := by
  rw [seekAdvance_remaining hcount, advance, if_pos (by exact hlba)]
  exact lbaNumber_advanceLba _

variable {d} (hchs : c.lba = false)
include hchs

theorem seekAdvance_chs :
    seekAdvance d c = advanceChs { c with sectorCount := c.sectorCount - 1 } d := by
  rw [seekAdvance_remaining hcount, advance, if_neg (by simpa [Channel.lba] using hchs)]

theorem seekAdvance_nextSector (hs : c.sector.toNat ≠ d.sectors.toNat) :
    seekAdvance d c = { c with sectorCount := c.sectorCount - 1, sector := c.sector + 1 } := by
  rw [seekAdvance_chs hcount hchs]
  exact if_neg hs

theorem seekAdvance_nextHead (hs : c.sector.toNat = d.sectors.toNat)
    (hh : c.headNibble.toNat + 1 ≠ d.heads.toNat) :
    (seekAdvance d c).sector = 1 ∧ (seekAdvance d c).headNibble = c.headNibble + 1 ∧
      (seekAdvance d c).cylinder = c.cylinder := by
  have hseek : seekAdvance d c = { c with
      sectorCount := c.sectorCount - 1, sector := 1
      head := withNibble c.head (c.headNibble + 1) } := by
    rw [seekAdvance_chs hcount hchs]
    exact (if_pos hs).trans (if_neg hh)
  rw [hseek]
  exact ⟨rfl, withNibble_low _ _, rfl⟩

theorem seekAdvance_nextCylinder (hs : c.sector.toNat = d.sectors.toNat)
    (hh : c.headNibble.toNat + 1 = d.heads.toNat) :
    (seekAdvance d c).sector = 1 ∧ (seekAdvance d c).headNibble = 0 ∧
      (seekAdvance d c).cylinder = c.cylinder + 1 := by
  have hseek : seekAdvance d c = { c with
      sectorCount := c.sectorCount - 1, sector := 1, head := withNibble c.head 0
      cylinderLow := (c.cylinder + 1).extractLsb' 0 8
      cylinderHigh := (c.cylinder + 1).extractLsb' 8 8 } := by
    rw [seekAdvance_chs hcount hchs]
    exact (if_pos hs).trans (if_pos hh)
  rw [hseek]
  exact ⟨rfl, withNibble_low _ _, extract_append_extract _⟩

end Remaining

/-- Settles O26: the frame of a seek, then the mode and the place in the track. -/
theorem seekCountsDownAndAdvances : Obligations.SeekCountsDownAndAdvances := fun c d =>
  ⟨seekAdvance_frame d c, seekAdvance_head d c, fun hone => seekAdvance_last hone d,
    fun hcount => lbaNumber_seekAdvance hcount d,
    fun hcount hchs => ⟨seekAdvance_nextSector hcount hchs, seekAdvance_nextHead hcount hchs,
      seekAdvance_nextCylinder hcount hchs⟩⟩

/-! ### Consecutive sectors -/

/-- A seek leaves the mode, which is in the upper half of HEAD. -/
theorem lba_seekAdvance (d : Drive) (c : Channel) : (seekAdvance d c).lba = c.lba := by
  have hbit := congrArg (fun v : BitVec 4 => v.getLsbD 2) (seekAdvance_head d c)
  simpa [Channel.lba] using hbit

theorem address_lba {c : Channel} (h : c.lba = true) (d : Drive) :
    address c d = if c.lbaNumber.toNat < d.total then some c.lbaNumber.toNat else none := if_pos h

/-- The registers name a sector of the drive, in CHS mode (R206). -/
def chsValid (c : Channel) (d : Drive) : Prop :=
  c.cylinder.toNat < d.cylinders.toNat ∧ c.headNibble.toNat < d.heads.toNat ∧
    1 ≤ c.sector.toNat ∧ c.sector.toNat ≤ d.sectors.toNat

/-- The sector number that they name. -/
def chsNumber (c : Channel) (d : Drive) : Nat :=
  (c.cylinder.toNat * d.heads.toNat + c.headNibble.toNat) * d.sectors.toNat + (c.sector.toNat - 1)

theorem address_chs_valid {c : Channel} {d : Drive} (h : c.lba = false) (hv : chsValid c d) :
    address c d = some (chsNumber c d) := by
  rw [address, if_neg (Bool.eq_false_iff.mp h)]
  exact if_pos hv

theorem address_chs_invalid {c : Channel} {d : Drive} (h : c.lba = false) (hv : ¬ chsValid c d) :
    address c d = none := by
  rw [address, if_neg (Bool.eq_false_iff.mp h)]
  exact if_neg hv

theorem address_seekAdvance_lba {c : Channel} {d : Drive} {n : Nat} (haddr : address c d = some n)
    (hcount : c.sectorCount ≠ 1) (hlba : c.lba = true) (htotal : d.total ≤ 2 ^ 28) :
    address (seekAdvance d c) d =
      if n + 1 < d.total then some (n + 1) else if d.total = 2 ^ 28 then some 0 else none := by
  have hn : n < d.total := address_lt haddr
  have hnumber : c.lbaNumber.toNat = n := by
    rw [address_lba hlba] at haddr
    split at haddr
    · exact Option.some.inj haddr
    · cases haddr
  have hnext : (seekAdvance d c).lbaNumber.toNat = (n + 1) % 2 ^ 28 := by
    rw [lbaNumber_seekAdvance hcount d hlba, BitVec.toNat_add, hnumber]
    rfl
  rw [address_lba ((lba_seekAdvance d c).trans hlba), hnext]
  obtain hlt | heq : n + 1 < d.total ∨ n + 1 = d.total := by omega
  · rw [Nat.mod_eq_of_lt (by omega), if_pos hlt, if_pos hlt]
  · rw [if_neg (by omega : ¬ n + 1 < d.total), heq]
    obtain hfull | hless : d.total = 2 ^ 28 ∨ d.total < 2 ^ 28 := by omega
    · rw [hfull, Nat.mod_self, if_pos (by decide), if_pos rfl]
    · rw [Nat.mod_eq_of_lt hless, if_neg (by omega), if_neg (by omega)]

/-- The number after the last sector of the last head of a cylinder. -/
theorem chs_next (cylinder nibble : Nat) {sectors : Nat} (h : 1 ≤ sectors) :
    (cylinder * (nibble + 1) + nibble) * sectors + (sectors - 1) + 1 =
      (cylinder + 1) * (nibble + 1) * sectors := by
  have hcylinder : (cylinder + 1) * (nibble + 1) = cylinder * (nibble + 1) + nibble + 1 := by ring
  rw [hcylinder, Nat.succ_mul]
  omega

theorem address_seekAdvance_chs {c : Channel} {d : Drive} {n : Nat} (haddr : address c d = some n)
    (hcount : c.sectorCount ≠ 1) (hchs : c.lba = false) (hsectors : d.sectors.toNat ≤ 255)
    (hheads : d.heads.toNat ≤ 16) :
    address (seekAdvance d c) d = if n + 1 < d.total then some (n + 1) else none := by
  have hmode : (seekAdvance d c).lba = false := (lba_seekAdvance d c).trans hchs
  obtain ⟨⟨hcyl, hhead, hfirst, hlast⟩, hnumber⟩ : chsValid c d ∧ chsNumber c d = n := by
    by_cases hv : chsValid c d
    · rw [address_chs_valid hchs hv] at haddr
      exact ⟨hv, Option.some.inj haddr⟩
    · rw [address_chs_invalid hchs hv] at haddr
      cases haddr
  have hvalid : chsValid (seekAdvance d c) d → chsNumber (seekAdvance d c) d = n + 1 →
      address (seekAdvance d c) d = if n + 1 < d.total then some (n + 1) else none := by
    intro hv hnext
    have hok := address_chs_valid hmode hv
    rw [hnext] at hok
    rw [hok, if_pos (address_lt hok)]
  unfold chsNumber at hnumber hvalid
  unfold chsValid at hvalid
  by_cases hs : c.sector.toNat = d.sectors.toNat
  · by_cases hh : c.headNibble.toNat + 1 = d.heads.toNat
    · obtain ⟨esector, enibble, ecylinder⟩ := seekAdvance_nextCylinder hcount hchs hs hh
      have hnext : n + 1 = (c.cylinder.toNat + 1) * d.heads.toNat * d.sectors.toNat := by
        rw [← hnumber, ← hh, hs]
        exact chs_next _ _ (by omega)
      have hcylinder : (c.cylinder + 1).toNat = c.cylinder.toNat + 1 := by
        have := d.cylinders.isLt
        rw [BitVec.toNat_add]
        exact Nat.mod_eq_of_lt (by simp only [BitVec.reduceToNat]; omega)
      rw [esector, enibble, ecylinder, hcylinder] at hvalid
      by_cases hend : c.cylinder.toNat + 1 < d.cylinders.toNat
      · exact hvalid ⟨hend, by simp only [BitVec.reduceToNat]; omega, by decide, by
          simp only [BitVec.reduceToNat]; omega⟩ (by simp [hnext])
      · have htotal : n + 1 = d.total := by
          rw [hnext, Drive.total, show c.cylinder.toNat + 1 = d.cylinders.toNat by omega]
        rw [if_neg (by omega)]
        exact address_chs_invalid hmode fun hv => hend (by
          rw [chsValid, ecylinder, hcylinder] at hv
          exact hv.1)
    · obtain ⟨esector, enibble, ecylinder⟩ := seekAdvance_nextHead hcount hchs hs hh
      have hnibble : (c.headNibble + 1).toNat = c.headNibble.toNat + 1 := by
        rw [BitVec.toNat_add]
        exact Nat.mod_eq_of_lt (by simp only [BitVec.reduceToNat]; omega)
      rw [esector, enibble, ecylinder, hnibble] at hvalid
      refine hvalid ⟨hcyl, by omega, by decide, by simp only [BitVec.reduceToNat]; omega⟩ ?_
      rw [← hnumber, hs, ← Nat.add_assoc, Nat.succ_mul]
      simp only [BitVec.reduceToNat]
      omega
  · have hseek := seekAdvance_nextSector hcount hchs hs
    have hsector : (c.sector + 1).toNat = c.sector.toNat + 1 := by
      rw [BitVec.toNat_add]
      exact Nat.mod_eq_of_lt (by simp only [BitVec.reduceToNat]; omega)
    rw [hseek] at hvalid ⊢
    simp only [hsector] at hvalid
    refine hvalid ⟨hcyl, hhead, by omega, by omega⟩ ?_
    rw [← hnumber]
    simp only [Channel.cylinder, Channel.headNibble]
    omega

/-- Settles O28: by the mode. -/
theorem successiveSeeksAreConsecutiveSectors : Obligations.SuccessiveSeeksAreConsecutiveSectors := by
  intro c d n haddr hcount hlimit hgeometry
  cases hmode : c.lba with
  | true => simpa using address_seekAdvance_lba haddr hcount hmode (hlimit hmode)
  | false =>
    obtain ⟨hsectors, hheads⟩ := hgeometry hmode
    simpa using address_seekAdvance_chs haddr hcount hmode hsectors hheads

end Sys2Proof.Machine
end

section
/-! The card: its responses, frames as SPI bytes, and the commands (43_mmc_spi_bytes.md,
44_mmc_commands.md). -/

namespace Sys2Proof.Machine

/-! ### Responses (R243) -/

/-- Settles O32: the response is laid over the front of the buffer, and the cursors enclose it. -/
theorem responseReplacesTheQueue : Obligations.ResponseReplacesTheQueue := by
  intro l c hl
  refine ⟨respond_pending l c hl, rfl, fun k hlow hk => ?_⟩
  rw [respond_responseBuffer, byteAt_overlay _ _ _ hk, if_neg (by omega)]

/-! ### Frames and data blocks are their bytes (R100, R109) -/

/-- Whatever its row is called, a standard frame sends its six bytes. -/
theorem exec_decodeCmd (index : BitVec 6) (arg : BitVec 32) (crc : Byte) (s : State) :
    exec (decodeCmd index arg crc) s = sendFrame index arg crc s := by
  by_cases h : index ∈ mmcIndices
  · simp only [mmcIndices, List.mem_cons, List.not_mem_nil, or_false] at h
    obtain rfl | rfl | rfl | rfl | rfl | rfl | rfl | rfl | rfl | rfl | rfl := h <;> rfl
  · rw [decodeCmd_other h]
    rfl

theorem exec_decodeAcmd (index : BitVec 6) (arg : BitVec 32) (crc : Byte) (s : State) :
    exec (decodeAcmd index arg crc) s = sendFrame index arg crc s := by
  unfold decodeAcmd
  split
  · next h => subst h; rfl
  · rfl

/-- The byte that completes a frame runs the command; the response starts the queue anew. -/
theorem completeFrame_spec (m : Medium) (s : State) :
    (completeFrame m s).card.commandState =
        (if entersData s.cfg s.card.cmd55Issued s.card.currentCommand then .waitingForDataToken
          else .waitingForCommand) ∧
      (completeFrame m s).card.rd = 0 ∧ (completeFrame m s).chan = s.chan := by
  have hres := executeCommand_result m s
  obtain ⟨l, c, hcard, -⟩ := hres.card
  refine ⟨rfl, ?_, ?_⟩
  · show (executeCommand m s).card.rd = 0
    rw [hcard]
    rfl
  · show (executeCommand m s).chan = s.chan
    rw [hres.frame]
    rfl

/-- The answer to a data block, written or refused, starts the queue anew. -/
theorem writeSingleBlock_rd (p : Params) (m : Medium) (c : Card) : (writeSingleBlock p m c).rd = 0 := by
  unfold writeSingleBlock
  split <;> rfl

/-- Settles O33: every frame and block is `spiWrites` of its bytes, and the completing byte is not
looked at. -/
theorem framesAreSpiBytes : Obligations.FramesAreSpiBytes := by
  refine ⟨fun index arg crc s => ?frame, fun data crc1 crc2 s => ?block, fun s m b hslot hw => ?last⟩
  case frame =>
    exact ⟨_, exec_decodeCmd index arg crc s, exec_decodeAcmd index arg crc s,
      runs_spiWr (frameBytes index arg crc) s (List.cons_ne_nil _ _)⟩
  case block =>
    have hruns := runs_spiWr (dataBlockBytes data crc1 crc2) s (List.cons_ne_nil _ _)
    rw [show (dataBlockBytes data crc1 crc2).length = 515 by simp [dataBlockBytes]] at hruns
    exact ⟨_, rfl, hruns⟩
  case last =>
    obtain hcrc | hcrc2 := hw
    · have hwrite : ∀ b, spiWrite b s = completeFrame m s := fun b => by
        simp only [spiWrite, hslot, hcrc]
      obtain ⟨hstate, hrd, hchan⟩ := completeFrame_spec m s
      refine ⟨(completeFrame m s).returns .nothing, congrArg (completes .nothing) (hwrite b),
        congrArg (completes .nothing) (hwrite 0x00), ?_, hrd, hchan⟩
      rw [State.returns_card, hstate]
      split
      · exact .inr ⟨hcrc, rfl⟩
      · exact .inl rfl
    · have hwrite : ∀ b, spiWrite b s = s.mapCard fun c =>
          { writeSingleBlock s.cfg m c with commandState := .waitingForCommand } := fun b => by
        simp only [spiWrite, hslot, hcrc2]
      exact ⟨_, congrArg (completes .nothing) (hwrite b), congrArg (completes .nothing) (hwrite 0x00),
        .inl rfl, writeSingleBlock_rd _ _ _, rfl⟩

/-! ### A frame whose command works on the card alone (R236, R260) -/

/-- The card with its receiver in a given state. -/
def Card.waiting (w : CommandState) (c : Card) : Card := { c with commandState := w }

theorem Card.waiting_self {c : Card} {w : CommandState} (h : c.commandState = w) : c.waiting w = c := by
  rw [waiting, ← h]

/-- The state in which the command of a frame runs: the preamble has run, the receiver still waits for
the CRC byte. -/
def State.atCrc (index : BitVec 6) (arg : BitVec 32) (s : State) : State :=
  { s with
      card := (s.card.framed index arg (isEraseCommand s.card.cmd55Issued index)).waiting
        .waitingForCrc }

/-- A command neither reads nor moves the receiver. -/
def keepsReceiver (f : Card → Card) : Prop := ∀ c w, f (c.waiting w) = (f c).waiting w

section Frame
variable {s : State} {m : Medium} (h : s.card.readyFor m) (index : BitVec 6) (arg : BitVec 32)
  (crc : Byte)
include h

theorem sendFrame_runs :
    sendFrame index arg crc s = completes .nothing
      (((if s.card.cmd55Issued then runAppCommand else runCommand m) (s.atCrc index arg)).mapCard
        (Card.waiting (if entersData s.cfg s.card.cmd55Issued index then .waitingForDataToken
          else .waitingForCommand))) :=
  sendFrame_eq h index arg crc

/-- A command that works on the card by `f` and leaves the file platform at `e`. -/
theorem sendFrame_mapCard {f : Card → Card} {e : Env} (hf : keepsReceiver f)
    (hrun : (if s.card.cmd55Issued then runAppCommand else runCommand m) (s.atCrc index arg) =
      { (s.atCrc index arg).mapCard f with env := e }) :
    sendFrame index arg crc s = .next { s with
      card := (f (s.card.framed index arg (isEraseCommand s.card.cmd55Issued index))).waiting
        (if entersData s.cfg s.card.cmd55Issued index then .waitingForDataToken
          else .waitingForCommand)
      env := e, result := .nothing } := by
  rw [sendFrame_runs h, hrun, State.mapCard, State.mapCard, State.atCrc, hf]
  rfl

/-- A frame that opens no data phase leaves the receiver waiting for a command, as it was. -/
theorem sendFrame_closed {f : Card → Card} {e : Env} (hf : keepsReceiver f)
    (hrun : (if s.card.cmd55Issued then runAppCommand else runCommand m) (s.atCrc index arg) =
      { (s.atCrc index arg).mapCard f with env := e })
    (hclosed : entersData s.cfg s.card.cmd55Issued index = false) :
    sendFrame index arg crc s = .next { s with
      card := f (s.card.framed index arg (isEraseCommand s.card.cmd55Issued index))
      env := e, result := .nothing } := by
  rw [sendFrame_mapCard h index arg crc hf hrun, hclosed, if_neg Bool.false_ne_true, ← hf,
    Card.waiting_self (c := s.card.framed index arg _) h.2]

variable (h55 : s.card.cmd55Issued = false)
include h55

/-- A standard command that is not WRITE_BLOCK. -/
theorem sendFrame_standard {f : Card → Card} {e : Env} (hf : keepsReceiver f)
    (hrun : runCommand m (s.atCrc index arg) = { (s.atCrc index arg).mapCard f with env := e })
    (hindex : index ≠ 24) :
    sendFrame index arg crc s = .next { s with
      card := f (s.card.framed index arg (isEraseCommand false index))
      env := e, result := .nothing } := by
  rw [sendFrame_closed h index arg crc hf (by rw [h55]; exact hrun)
    (by rw [entersData, beq_eq_false_iff_ne.mpr hindex, Bool.false_and]), h55]

end Frame

/-- Settles O34: each of the four answers as its procedure says, on the framed card. -/
theorem commandsAlwaysAccepted : Obligations.CommandsAlwaysAccepted := fun _ _ arg crc h h55 =>
  ⟨sendFrame_standard h 0 arg crc h55 (f := goIdleState) (fun _ _ => rfl) rfl (by decide),
    sendFrame_standard h 8 arg crc h55 (f := sendIfCond) (fun _ _ => rfl) rfl (by decide),
    sendFrame_standard h 55 arg crc h55 (f := appCmd) (fun _ _ => rfl) rfl (by decide),
    sendFrame_standard h 58 arg crc h55 (f := readOcr) (fun _ _ => rfl) rfl (by decide)⟩

/-! ### Commands that answer by the idle state (R263 to R268) -/

theorem keepsReceiver_refuseR1 (bits : Byte) : keepsReceiver (refuseR1 bits) := fun _ _ => rfl

theorem keepsReceiver_respondR1 (l : List Byte) : keepsReceiver (respondR1 l) := fun _ _ => rfl

/-- A choice that does not look at the receiver. -/
theorem keepsReceiver_ite {p : Card → Prop} [DecidablePred p] {f g : Card → Card}
    (hp : ∀ c w, p (c.waiting w) ↔ p c) (hf : keepsReceiver f) (hg : keepsReceiver g) :
    keepsReceiver fun c => if p c then f c else g c := by
  intro c w
  by_cases h : p c
  · simp only [if_pos h, if_pos ((hp c w).mpr h), hf c w]
  · simp only [if_neg h, if_neg (mt (hp c w).mp h), hg c w]

theorem keepsReceiver_sendCsd (p : Params) (m : Medium) : keepsReceiver (sendCsd p m) :=
  keepsReceiver_ite (p := fun c => isIdle c.r1Status = true) (fun _ _ => .rfl)
    (keepsReceiver_refuseR1 _) (keepsReceiver_respondR1 _)

theorem keepsReceiver_sendCid (p : Params) : keepsReceiver (sendCid p) :=
  keepsReceiver_ite (p := fun c => isIdle c.r1Status = true) (fun _ _ => .rfl)
    (keepsReceiver_refuseR1 _) (keepsReceiver_respondR1 _)

theorem keepsReceiver_writeBlock (m : Medium) : keepsReceiver (writeBlock m) :=
  keepsReceiver_ite (p := fun c => isIdle c.r1Status = true) (fun _ _ => .rfl)
    (keepsReceiver_refuseR1 _)
    (keepsReceiver_ite (p := fun c => m.totalSectors ≤ c.sectorArg) (fun _ _ => .rfl)
      (keepsReceiver_refuseR1 _) (keepsReceiver_respondR1 _))

/-- The idle bit as the command of a frame finds it, by its value. -/
theorem framed_idle {c : Card} (h : c.r1Status &&& 0x01 = 0x01) (index : BitVec 6) (arg : BitVec 32)
    (e : Bool) : isIdle (c.framed index arg e).r1Status = true :=
  (isIdle_r1Base c e).trans ((isIdle_iff _).mpr h)

theorem framed_notIdle {c : Card} (h : c.r1Status &&& 0x01 = 0x00) (index : BitVec 6)
    (arg : BitVec 32) (e : Bool) : ¬ isIdle (c.framed index arg e).r1Status = true :=
  Bool.eq_false_iff.mp ((isIdle_r1Base c e).trans ((isIdle_iff_not _).mpr h))

/-- The sector number that the command of a frame finds. -/
theorem framed_sectorArg (c : Card) (index : BitVec 6) (arg : BitVec 32) (e : Bool) :
    (c.framed index arg e).sectorArg = arg.toNat :=
  congrArg BitVec.toNat (argument_received c index arg)

/-- The capacity field is spread over bytes 7 to 9 of the CSD, most significant first (R264). -/
theorem csdBytes_capacity (p : Params) (cSize : Nat) :
    ((csdBytes p cSize).getD 7 0).toNat * 65536 + ((csdBytes p cSize).getD 8 0).toNat * 256
      + ((csdBytes p cSize).getD 9 0).toNat = cSize % 2 ^ 22 := by
  simp only [csdBytes, List.getD_cons_succ, List.getD_cons_zero, BitVec.toNat_ofNat]
  omega

/-- Settles O35: the idle bit decides; the CSD carries the capacity field. -/
theorem sendCsdAndCid : Obligations.SendCsdAndCid := by
  intro s m arg crc h h55
  have hcsd : exec (.cmd9SendCsd arg crc) s = .next { s with
      card := sendCsd s.cfg m (s.card.framed 9 arg false), result := .nothing } :=
    sendFrame_standard h 9 arg crc h55 (keepsReceiver_sendCsd s.cfg m) rfl (by decide)
  have hcid : exec (.cmd10SendCid arg crc) s = .next { s with
      card := sendCid s.cfg (s.card.framed 10 arg false), result := .nothing } :=
    sendFrame_standard h 10 arg crc h55 (keepsReceiver_sendCid s.cfg) rfl (by decide)
  refine ⟨fun hidle => ⟨?csdIdle, ?cidIdle⟩, fun hactive => ⟨⟨csdBytes s.cfg m.cSize, ?csd, rfl, rfl,
    rfl, csdBytes_capacity s.cfg m.cSize⟩, ?cid⟩⟩
  case csdIdle => rw [hcsd, sendCsd, if_pos (framed_idle hidle _ _ _)]; rfl
  case cidIdle => rw [hcid, sendCid, if_pos (framed_idle hidle _ _ _)]; rfl
  case csd => rw [hcsd, sendCsd, if_neg (framed_notIdle hactive _ _ _)]; rfl
  case cid => rw [hcid, sendCid, if_neg (framed_notIdle hactive _ _ _)]; rfl

/-! READ_SINGLE_BLOCK by its checks: the idle state, the range, the store (R267). -/

theorem readSingleBlock_idle {m : Medium} {s : State} (h : isIdle s.card.r1Status = true) :
    readSingleBlock m s = s.mapCard (refuseR1 r1IllegalCommand) := if_pos h

theorem readSingleBlock_range {m : Medium} {s : State} (h : ¬ isIdle s.card.r1Status = true)
    (hrange : m.totalSectors ≤ s.card.sectorArg) :
    readSingleBlock m s = s.mapCard (refuseR1 r1ParameterError) := (if_neg h).trans (if_pos hrange)

section Read
variable {m : Medium} {s : State} (h : ¬ isIdle s.card.r1Status = true)
  (hrange : s.card.sectorArg < m.totalSectors)
include h hrange

theorem readSingleBlock_gives (hgives : storeGives m.drive s.card.sectorArg s.env) :
    readSingleBlock m s =
      { s.mapCard (respondR1 (cardBlock (sectorOf m.drive s.card.sectorArg s.env).toList)) with
        env := storeEnv m.drive s.card.sectorArg s.env } := by
  rw [readSingleBlock, if_neg h, if_neg (by omega), memRead_gives hgives]
  rfl

theorem readSingleBlock_fails (hfails : ¬ storeGives m.drive s.card.sectorArg s.env) :
    readSingleBlock m s =
      { s.mapCard (respondR1 [0x01]) with env := storeEnv m.drive s.card.sectorArg s.env } := by
  rw [readSingleBlock, if_neg h, if_neg (by omega), memRead_fails hfails]
  rfl

end Read

/-- Settles O36: the idle bit, the range and the store, in this order. -/
theorem readSingleBlockAnswers : Obligations.ReadSingleBlockAnswers := by
  intro s m arg crc h h55
  have harg : (s.atCrc 17 arg).card.sectorArg = arg.toNat :=
    framed_sectorArg s.card 17 arg (isEraseCommand s.card.cmd55Issued 17)
  refine ⟨fun hidle => ?idle, fun hactive hrange => ?range, fun hactive hrange hgives => ?gives,
    fun hactive hrange hfails => ?fails⟩
  case idle =>
    exact sendFrame_standard h 17 arg crc h55 (keepsReceiver_refuseR1 _)
      (readSingleBlock_idle (framed_idle hidle 17 arg _)) (by decide)
  case range =>
    exact sendFrame_standard h 17 arg crc h55 (keepsReceiver_refuseR1 _)
      (readSingleBlock_range (framed_notIdle hactive 17 arg _) (by rwa [harg])) (by decide)
  case gives =>
    have hrun := readSingleBlock_gives (m := m) (s := s.atCrc 17 arg)
      (framed_notIdle hactive 17 arg _)
      (by rwa [harg]) (by rwa [harg])
    rw [harg] at hrun
    have hexec := sendFrame_standard h 17 arg crc h55 (keepsReceiver_respondR1 _) hrun (by decide)
    exact hexec
  case fails =>
    have hrun := readSingleBlock_fails (m := m) (s := s.atCrc 17 arg)
      (framed_notIdle hactive 17 arg _)
      (by rwa [harg]) (by rwa [harg])
    rw [harg] at hrun
    have hexec := sendFrame_standard h 17 arg crc h55 (keepsReceiver_respondR1 _) hrun (by decide)
    exact hexec

/-- Settles O37: the checks choose the answer; the index alone opens the data phase. -/
theorem writeBlockOpensDataPhase : Obligations.WriteBlockOpensDataPhase := by
  intro s m arg crc h h55
  have hexec := sendFrame_mapCard h 24 arg crc (e := s.env) (keepsReceiver_writeBlock m)
    (by rw [h55]; rfl)
  rw [h55] at hexec
  refine hexec.trans ?_
  by_cases hidle : s.card.r1Status &&& 0x01 = 0x01
  · rw [writeBlock, if_pos (framed_idle hidle _ _ _), if_pos hidle]
    rfl
  · have hactive : isIdle (s.card.framed 24 arg (isEraseCommand false 24)).r1Status = false :=
      (isIdle_r1Base s.card _).trans (Bool.eq_false_iff.mpr (mt (isIdle_iff _).mp hidle))
    rw [writeBlock, if_neg (Bool.eq_false_iff.mp hactive), framed_sectorArg, if_neg hidle]
    by_cases hrange : m.totalSectors ≤ arg.toNat
    · rw [if_pos hrange, if_pos hrange]; rfl
    · rw [if_neg hrange, if_neg hrange]; rfl

/-! ### The data phase (R237, R278) -/

theorem writeSingleBlock_inRange {m : Medium} {c : Card} (h : c.sectorArg < m.totalSectors)
    (p : Params) :
    writeSingleBlock p m c = respond [0x05, 0x01]
      { c with slot := some { m with drive := memWrite m.drive c.sectorArg c.sendBuffer } } :=
  if_neg (Nat.not_le.mpr h)

theorem writeSingleBlock_outOfRange {m : Medium} {c : Card} (h : m.totalSectors ≤ c.sectorArg)
    (p : Params) :
    writeSingleBlock p m c =
      respond (writeErrResponse p (c.r1Status ||| r1ParameterError)) (raiseR1 r1ParameterError c) :=
  if_pos h

/-- Settles O38: the token starts the block; the block's write looks at the range alone. -/
theorem dataBlockIsWritten : Obligations.DataBlockIsWritten := by
  intro s m data crc1 crc2 hslot hw
  have htoken : ∀ b, spiWrite b s = s.mapCard (receiveToken b) := fun b => by
    simp only [spiWrite, hslot, hw]
  have hblock := congrArg (completes .nothing) (spiWrites_dataBlock hslot hw data crc1 crc2)
  refine ⟨exec_spiWr_of_mapCard (htoken _) (if_pos rfl),
    fun b hb => exec_spiWr_of_mapCard (htoken b) (if_neg hb), fun hrange => ?written,
    fun hrange => ?refused⟩
  case written =>
    refine hblock.trans ?_
    rw [writeSingleBlock_inRange (by exact hrange)]
    rfl
  case refused =>
    refine hblock.trans ?_
    rw [writeSingleBlock_outOfRange (by exact hrange)]
    rfl

/-! ### Erase (R269 to R271) -/

theorem keepsReceiver_refuseErase (bits : Byte) : keepsReceiver (refuseErase bits) := fun _ _ => rfl

theorem keepsReceiver_eraseWrBlkStart (m : Medium) : keepsReceiver (eraseWrBlkStart m) :=
  keepsReceiver_ite (p := fun c => c.eraseSequence ≠ .closed) (fun _ _ => .rfl)
    (keepsReceiver_refuseErase _)
    (keepsReceiver_ite (p := fun c => m.totalSectors ≤ c.sectorArg) (fun _ _ => .rfl)
      (keepsReceiver_refuseErase _) fun _ _ => rfl)

theorem keepsReceiver_eraseWrBlkEnd (m : Medium) : keepsReceiver (eraseWrBlkEnd m) :=
  keepsReceiver_ite (p := fun c => c.eraseSequence ≠ .started) (fun _ _ => .rfl)
    (keepsReceiver_refuseErase _)
    (keepsReceiver_ite (p := fun c => m.totalSectors ≤ c.sectorArg ∨ c.sectorArg < c.eraseStart.toNat)
      (fun _ _ => .rfl) (keepsReceiver_refuseErase _) fun _ _ => rfl)

theorem keepsReceiver_erase (m : Medium) : keepsReceiver (erase m) :=
  keepsReceiver_ite (p := fun c => c.eraseSequence ≠ .ended) (fun _ _ => .rfl)
    (keepsReceiver_refuseErase _) fun _ _ => rfl

theorem erase_outOfOrder {m : Medium} {c : Card} (h : c.eraseSequence ≠ .ended) :
    erase m c = refuseErase r1EraseSeqError c := if_pos h

theorem erase_ended {m : Medium} {c : Card} (h : c.eraseSequence = .ended) :
    erase m c = respondR1 [0x01] { c with
      slot := some { m with
        drive := eraseFill (c.eraseEnd.toNat + 1 - c.eraseStart.toNat) c.eraseStart.toNat m.drive }
      eraseSequence := .closed } := if_neg (not_not.mpr h)

/-- Settles O39: the order first, then the range. -/
theorem eraseBoundsAreChecked : Obligations.EraseBoundsAreChecked := by
  intro s m arg crc h h55
  refine ⟨(sendFrame_standard h 32 arg crc h55 (e := s.env) (keepsReceiver_eraseWrBlkStart m) rfl
      (by decide)).trans ?start,
    (sendFrame_standard h 33 arg crc h55 (e := s.env) (keepsReceiver_eraseWrBlkEnd m) rfl
      (by decide)).trans ?stop⟩
  case start => simp only [eraseWrBlkStart, framed_sectorArg, Card.framed_argument]; rfl
  case stop => simp only [eraseWrBlkEnd, framed_sectorArg, Card.framed_argument]; rfl

/-- Settles O40: the fill covers both bounds. -/
theorem eraseZeroFillsTheRange : Obligations.EraseZeroFillsTheRange := by
  intro s m arg crc h h55
  have hexec : exec (.cmd38Erase arg crc) s = .next { s with
      card := erase m (s.card.framed 38 arg true), result := .nothing } :=
    sendFrame_standard h 38 arg crc h55 (keepsReceiver_erase m) rfl (by decide)
  refine ⟨fun horder => ?refused, fun hended => ?filled⟩
  case refused => rw [hexec, erase_outOfOrder (by exact horder)]; rfl
  case filled =>
    obtain ⟨hdrive, hfind⟩ := eraseFill_spec
      (s.card.eraseEnd.toNat + 1 - s.card.eraseStart.toNat) s.card.eraseStart.toNat m.drive
    refine ⟨_, ?_, fun k => (hfind k).trans ?_⟩
    · rw [hexec, erase_ended (by exact hended), ← hdrive]
      rfl
    · by_cases hk : s.card.eraseStart.toNat ≤ k ∧ k ≤ s.card.eraseEnd.toNat
      · rw [if_pos hk, if_pos (by omega)]
      · rw [if_neg hk, if_neg (by omega)]

/-! ### Unknown indices, and ACMD41 (R275 to R277) -/

theorem runCommand_other {m : Medium} {s : State} (h : s.card.currentCommand ∉ mmcIndices) :
    runCommand m s = s.mapCard cmdOther := by
  simp only [mmcIndices, List.mem_cons, List.not_mem_nil, or_false, not_or, BitVec.toNat_eq,
    BitVec.reduceToNat] at h
  unfold runCommand
  split <;> first | (exfalso; omega) | rfl

theorem runAppCommand_other {s : State} (h : s.card.currentCommand ≠ 41) :
    runAppCommand s = s.mapCard acmdOther := if_neg h

/-- An index outside R102 is neither an erase command nor WRITE_BLOCK. -/
theorem isEraseCommand_other {index : BitVec 6} (h : index ∉ mmcIndices) :
    isEraseCommand false index = false ∧ index ≠ 24 := by
  revert index; decide

/-- Settles O41: the preamble, then the refusal; after APP_CMD only the parameter can open the data
phase. -/
theorem unknownIndicesAreIllegal : Obligations.UnknownIndicesAreIllegal := by
  intro s m index arg crc h
  refine ⟨fun h55 hwf => ?standard, fun h55 hwf => ?application⟩
  case standard =>
    have hother : index ∉ mmcIndices := by simpa [Instr.wellFormed] using hwf
    obtain ⟨herase, h24⟩ := isEraseCommand_other hother
    have hexec := sendFrame_standard h index arg crc h55 (e := s.env)
      (keepsReceiver_refuseR1 r1IllegalCommand) (runCommand_other (by exact hother)) h24
    rw [herase] at hexec
    exact hexec
  case application =>
    have hother : index ≠ 41 := by simpa [Instr.wellFormed] using hwf
    have hexec := sendFrame_mapCard h index arg crc (e := s.env)
      (keepsReceiver_refuseR1 r1IllegalCommand) (by rw [h55]; exact runAppCommand_other hother)
    rw [h55] at hexec
    refine hexec.trans ?_
    by_cases hdata : index = 24 ∧ s.cfg.mmcAcmd24EntersDataPhase = true
    · rw [if_pos hdata, if_pos (by simp [entersData, hdata])]; rfl
    · rw [if_neg hdata, if_neg (by simpa [entersData] using hdata)]; rfl

theorem keepsReceiver_sdSendOpCond : keepsReceiver sdSendOpCond :=
  keepsReceiver_ite (p := fun c => (c.cmd8Issued && c.arg0.getLsbD 6) = true) (fun _ _ => .rfl)
    (fun _ _ => rfl) (keepsReceiver_respondR1 _)

/-- HCS is bit 30 of the argument, bit 6 of its first byte (R276). -/
theorem framed_hcs (c : Card) (index : BitVec 6) (arg : BitVec 32) (e : Bool) :
    (c.framed index arg e).arg0.getLsbD 6 = arg.getLsbD 30 := by
  simp [Card.framed, Card.received]

/-- Settles O42: the two conditions, R1 built after the update. -/
theorem sdSendOpCondLeavesIdle : Obligations.SdSendOpCondLeavesIdle := by
  intro s m arg crc h h55
  have hexec := sendFrame_closed h 41 arg crc (e := s.env) keepsReceiver_sdSendOpCond
    (by rw [h55]; rfl) (by rw [h55]; rfl)
  rw [h55] at hexec
  refine hexec.trans ?_
  rw [sdSendOpCond, framed_hcs]
  by_cases hleave : s.card.cmd8Issued = true ∧ arg.getLsbD 30 = true
  · rw [if_pos hleave, if_pos (by simp [hleave])]; rfl
  · rw [if_neg hleave, if_neg (by simpa using hleave)]; rfl

end Sys2Proof.Machine
end

section
/-! The sector store and the host calls (40_sector_store.md): reads of the image, construction, insert,
eject, commit, and what survives them. -/

namespace Sys2Proof.Machine

/-! ### A sector of the image (R65, R133, R134) -/

theorem sectorOf_uncached {d : Drive} {n : Nat} (h : cacheFind d.cache n = none) (e : Env) :
    sectorOf d n e =
      unpack d.sectorSize (e.fileBytes d.image (d.sectorOffset n) d.sectorSize.bytes) := by
  simp only [sectorOf, h]

/-- Byte k of some bytes of a file. -/
theorem fileBytes_getD (e : Env) (image offset : Nat) {n k : Nat} (hk : k < n) :
    (e.fileBytes image offset n).getD k 0 = readByte e.files (fileAddr image (offset + k)) := by
  rw [Env.fileBytes, readBytes_getD _ _ _ _ hk, fileAddr, fileAddr, Nat.add_assoc]

/-- Settles O44: a miss asks for two file operations, and the packed bytes are unpacked. -/
theorem uncachedSectorReadsTheImage : Obligations.UncachedSectorReadsTheImage := by
  intro d n e hmiss
  refine ⟨by rw [memRead_miss hmiss], (memRead_cases d n e).2.1, fun k hk => ?_⟩
  rw [sectorOf_uncached hmiss, byteAt_unpack _ _ k hk (by simp)]
  cases hsize : d.sectorSize with
  | s512 =>
    simp only [Drive.sectorOffset, hsize, SectorSize.bytes, fileBytes_getD e d.image _ hk]
  | s256 =>
    simp only [Drive.sectorOffset, hsize, SectorSize.bytes,
      fileBytes_getD e d.image _ (show k / 2 < 256 by omega)]

/-! ### Construction (R50, R51) -/

/-- Settles O45: both calls build a fresh record from the parameters. -/
theorem newConstructsChannelAndCard : Obligations.NewConstructsChannelAndCard := fun _ _ =>
  ⟨⟨_, rfl, rfl, rfl, rfl, rfl, rfl⟩, ⟨_, rfl, rfl, rfl, rfl, rfl, rfl⟩⟩

/-! ### Opening an image (R62, R64, R130) -/

theorem headerValid_iff (header : List Byte) :
    headerValid header = true ↔
      header.take 6 = [0x52, 0x53, 0x2D, 0x49, 0x44, 0x45] ∧ header.getD 6 0 = 0x1A := by
  rw [headerValid, headerSignature, Bool.and_eq_true, beq_iff_eq, beq_iff_eq]

section Open
variable (p : Params) (image : Nat) {e : Env}

theorem openDrive_ioError (h : e.askTwice.1.2 = false) :
    openDrive p image e = (.error .ioError, e.askTwice.2) :=
  if_neg (Bool.eq_false_iff.mp h)

variable (h : e.askTwice.1.2 = true)
include h

theorem openDrive_invalidFormat (hheader : headerValid (e.fileBytes image 0 headerLength) = false) :
    openDrive p image e = (.error .invalidFormat, e.askTwice.2) :=
  (if_pos h).trans (if_neg (Bool.eq_false_iff.mp hheader))

theorem openDrive_ok (hheader : headerValid (e.fileBytes image 0 headerLength) = true) :
    openDrive p image e =
      (.ok (driveOfHeader p image (e.fileBytes image 0 headerLength)), e.askTwice.2) :=
  (if_pos h).trans (if_pos hheader)

end Open

/-- Whatever a header says, the identity is its 106 bytes from offset 22. -/
theorem byteAt_headerIdentity (header : List Byte) {k : Nat} (hk : k < 106) :
    byteAt (headerIdentity header) k = header.getD (22 + k) 0 := by
  rw [headerIdentity, byteAt_blockOf _ _ _ hk, List.getD_eq_getElem?_getD, List.getElem?_drop,
    List.getD_eq_getElem?_getD]

theorem wordAt_headerIdentity (header : List Byte) {j : Nat} (hj : 2 * j + 1 < 106) :
    wordAt (headerIdentity header) j =
      header.getD (22 + (2 * j + 1)) 0 ++ header.getD (22 + 2 * j) 0 := by
  rw [wordAt, byteAt_headerIdentity _ hj, byteAt_headerIdentity _ (by omega)]

/-! ### Insert and eject (R130 to R132, R141) -/

theorem exec_ataInsert {u : DriveUnit} {image : Nat} {s : State}
    (h : dutiful (.ataInsert u image) s) :
    exec (.ataInsert u image) s = .next (ataInsert u image s) := by
  obtain ⟨hempty, hready, hshared⟩ := h
  simp [exec, execAtaInsert, hempty, hready, hshared]

theorem exec_mmcInsert {image : Nat} {s : State} (h : dutiful (.mmcInsert image) s) :
    exec (.mmcInsert image) s = .next (mmcInsert image s) := by
  obtain ⟨hempty, hshared⟩ := h
  simp [exec, execMmcInsert, hempty, hshared]

theorem exec_ataEject {u : DriveUnit} {s : State} (h : dutiful (.ataEject u) s) :
    exec (.ataEject u) s = .next { s with chan := s.chan.setDrive u none, result := .nothing } := by
  obtain ⟨hfull, hready⟩ := h
  simp only [exec, execAtaEject]
  rw [if_neg (by simpa [Option.isSome_iff_ne_none] using hfull), if_neg (not_not.mpr hready)]
  rfl

theorem exec_mmcEject {s : State} (h : dutiful .mmcEject s) :
    exec .mmcEject s = .next { s with card := { s.card with slot := none }, result := .nothing } := by
  obtain ⟨hfull, hready⟩ := h
  simp only [exec, execMmcEject]
  rw [if_neg (by simpa [Option.isSome_iff_ne_none] using hfull), if_neg (not_not.mpr hready)]
  rfl

/-- An insert changes the slot if the image opens, and nothing of the block if it does not. -/
theorem ataInsert_opened {u : DriveUnit} {image : Nat} {s : State} {d : Drive} {e : Env}
    (h : openDrive s.cfg image s.env = (.ok d, e)) :
    ataInsert u image s = { s with chan := s.chan.setDrive u (some d), env := e, result := .ok } := by
  simp only [ataInsert, h]

theorem ataInsert_failed {u : DriveUnit} {image : Nat} {s : State} {x : InsertError} {e : Env}
    (h : openDrive s.cfg image s.env = (.error x, e)) :
    ataInsert u image s = { s with env := e, result := .error x } := by
  simp only [ataInsert, h]

theorem mmcInsert_card {image : Nat} {s : State} {d : Drive} {e : Env}
    (h : openDrive s.cfg image s.env = (.ok d, e)) (hd : cardGeometryOk d = true) :
    mmcInsert image s = { s with card := s.card.withMedium s.cfg d, env := e, result := .ok } := by
  simp only [mmcInsert, h, if_pos hd]

theorem mmcInsert_rejected {image : Nat} {s : State} {d : Drive} {e : Env}
    (h : openDrive s.cfg image s.env = (.ok d, e)) (hd : ¬ cardGeometryOk d = true) :
    mmcInsert image s = { s with env := e, result := .error .insertRejected } := by
  simp only [mmcInsert, h, if_neg hd]

theorem mmcInsert_failed {image : Nat} {s : State} {x : InsertError} {e : Env}
    (h : openDrive s.cfg image s.env = (.error x, e)) :
    mmcInsert image s = { s with env := e, result := .error x } := by
  simp only [mmcInsert, h]

/-- Settles O46: by what opening the image answers. -/
theorem ataInsertBuildsTheDrive : Obligations.AtaInsertBuildsTheDrive := by
  intro s u image hduty
  refine ⟨fun hio => ?io, fun header hheader hok => ⟨fun hbad => ?invalid, fun hsig hid => ?built⟩⟩
  case io => rw [exec_ataInsert hduty, ataInsert_failed (openDrive_ioError _ _ hio)]
  case invalid =>
    have hinvalid : headerValid header = false := by
      rw [Bool.eq_false_iff, Ne, headerValid_iff]; tauto
    rw [exec_ataInsert hduty,
      ataInsert_failed (openDrive_invalidFormat _ _ hok (hheader ▸ hinvalid))]
  case built =>
    have hvalid : headerValid header = true := (headerValid_iff header).mpr ⟨hsig, hid⟩
    refine ⟨driveOfHeader s.cfg image header, ?_, rfl, rfl, rfl,
      fun k hk => byteAt_headerIdentity header hk, wordAt_headerIdentity header (j := 1) (by decide),
      wordAt_headerIdentity header (j := 3) (by decide),
      wordAt_headerIdentity header (j := 6) (by decide), rfl, rfl, rfl⟩
    subst hheader
    rw [exec_ataInsert hduty, ataInsert_opened (openDrive_ok _ _ hok hvalid)]
    rfl

theorem cardGeometryOk_iff (d : Drive) :
    cardGeometryOk d = true ↔ d.sectorSize = .s512 ∧ d.total % 1024 = 0 ∧ d.total ≠ 0 := by
  simp [cardGeometryOk, and_assoc]

/-- Settles O47: by what opening the image answers, then by the drive's geometry. -/
theorem mmcInsertBuildsTheCard : Obligations.MmcInsertBuildsTheCard := by
  intro s image hduty
  refine ⟨fun hio => ?io, fun header d hheader hd hok => ⟨fun hbad => ?invalid, fun hsig hid =>
    ⟨fun hbad => ?rejected, fun hsize hmultiple hnonzero => ?built⟩⟩⟩
  case io => rw [exec_mmcInsert hduty, mmcInsert_failed (openDrive_ioError _ _ hio)]
  case invalid =>
    have hinvalid : headerValid header = false := by
      rw [Bool.eq_false_iff, Ne, headerValid_iff]; tauto
    rw [exec_mmcInsert hduty,
      mmcInsert_failed (openDrive_invalidFormat _ _ hok (hheader ▸ hinvalid))]
  case rejected =>
    have hvalid : headerValid header = true := (headerValid_iff header).mpr ⟨hsig, hid⟩
    have hgeometry : ¬ cardGeometryOk d = true := by rw [cardGeometryOk_iff]; tauto
    subst hd hheader
    rw [exec_mmcInsert hduty, mmcInsert_rejected (openDrive_ok _ _ hok hvalid) hgeometry]
  case built =>
    have hvalid : headerValid header = true := (headerValid_iff header).mpr ⟨hsig, hid⟩
    have hgeometry : cardGeometryOk d = true :=
      (cardGeometryOk_iff d).mpr ⟨hsize, hmultiple, hnonzero⟩
    subst hd hheader
    rw [exec_mmcInsert hduty, mmcInsert_card (openDrive_ok _ _ hok hvalid) hgeometry]
    rfl

theorem Drive.dirty_eq (d : Drive) : d.dirty = decide (d.cache ≠ []) := by
  cases h : d.cache <;> simp [Drive.dirty, h]

/-- Settles O48: each call inside its duty. -/
theorem ejectAndDirty : Obligations.EjectAndDirty := by
  intro s
  refine ⟨fun u => exec_ataEject, exec_mmcEject, fun u d hd => ?ata, fun m hm => ?mmc⟩
  case ata => simp only [exec, execAtaDirty, hd, Drive.dirty_eq]; rfl
  case mmc => simp only [exec, execMmcDirty, hm, Drive.dirty_eq]; rfl

/-! ### Commit (R137) -/

theorem exec_ataCommit {u : DriveUnit} {d : Drive} {s : State} (h : s.chan.drive u = some d) :
    exec (.ataCommit u) s = .next { s with
      chan := s.chan.setDrive u (some (commit d s.env).1), env := (commit d s.env).2
      result := .nothing } := by
  simp only [exec, execAtaCommit, h]; rfl

theorem exec_mmcCommit {m : Medium} {s : State} (h : s.card.slot = some m) :
    exec .mmcCommit s = .next { s with
      card := { s.card with slot := some { m with drive := (commit m.drive s.env).1 } }
      env := (commit m.drive s.env).2, result := .nothing } := by
  simp only [exec, execMmcCommit, h]; rfl

/-- A commit changes of the drive the cache alone. -/
theorem commit_drive {d : Drive} {e : Env} (hwf : Mem.wf e.files = true) (hok : d.cacheOk) :
    (commit d e).1 = { d with cache := (commit d e).1.cache } := by
  obtain ⟨cache, hcache⟩ := (commit_inv hwf hok).drive
  rw [hcache]

/-- With no file operation failing every entry's bytes are at its place. -/
theorem commit_written {d : Drive} {e : Env} (hwf : Mem.wf e.files = true) (hok : d.cacheOk)
    (hsays : e.says (2 * d.cache.length)) {entry : Nat × List Byte} (hentry : entry ∈ d.cache) :
    (commit d e).2.fileBytes d.image (d.sectorOffset entry.1) d.sectorSize.bytes = entry.2 := by
  have hempty : (commit d e).1.cache = [] := (commit_says (k := 0) hok hsays).1
  have hfind : cacheFind d.cache entry.1 = some entry.2 := cacheFind_of_mem hok.1 hentry
  obtain hkept | ⟨-, hwritten⟩ := (commit_inv hwf hok).kept entry.1
  · rw [hempty, hfind] at hkept
    cases hkept
  · exact hwritten _ hfind

/-- Settles O49: the commit's invariant, with nothing left in the cache. -/
theorem commitWritesTheCache : Obligations.CommitWritesTheCache := by
  intro s d hwf hok hsays
  have hempty : (commit d s.env).1 = { d with cache := [] } := by
    rw [commit_drive hwf hok, (commit_says (k := 0) hok hsays).1]
  refine ⟨(commit d s.env).2, fun u hu => ?ata, fun m hm hdrive => ?mmc,
    fun entry hentry k hk => ?place, (commit_inv hwf hok).outside⟩
  case ata => rw [exec_ataCommit hu, hempty]
  case mmc => subst hdrive; rw [exec_mmcCommit hm, hempty]
  case place =>
    have hbytes := commit_written hwf hok hsays hentry
    have hlen : entry.2.length = d.sectorSize.bytes := (hok.2 entry hentry).2
    rw [← hbytes, Env.fileBytes, readBytes_getD _ _ _ _ (by omega)]

/-- Settles O50: the commit's invariant, whatever failed. -/
theorem commitKeepsEverySector : Obligations.CommitKeepsEverySector := by
  intro s d hwf hok
  have hdrive := commit_drive hwf hok
  have hinv := commit_inv hwf hok
  refine ⟨(commit d s.env).1.cache, (commit d s.env).2, fun u hu => ?ata, fun m hm hd => ?mmc,
    fun n => ?sector, hinv.kept, hinv.outside, hinv.wf⟩
  case ata => rw [exec_ataCommit hu, ← hdrive]
  case mmc => subst hd; rw [exec_mmcCommit hm, ← hdrive]
  case sector => rw [← hdrive]; exact sectorOf_commit hwf hok n

/-! ### What survives an eject (R139) -/

/-- The bytes that a commit leaves: everything in front of the drive's data. -/
theorem fileBytes_commit_header {d : Drive} {e : Env} (hwf : Mem.wf e.files = true) (hok : d.cacheOk)
    {n : Nat} (hn : n ≤ d.dataOffset) :
    (commit d e).2.fileBytes d.image 0 n = e.fileBytes d.image 0 n := by
  refine List.map_congr_left fun i hi => (commit_inv hwf hok).outside _ fun entry _ hin => ?_
  have hi' : i < n := List.mem_range.mp hi
  have hlow : fileAddr d.image (d.sectorOffset entry.1) ≤ fileAddr d.image 0 + i := hin.1
  simp only [fileAddr, Drive.sectorOffset] at hlow
  omega

/-- Asking for file operations changes no sector. -/
theorem sectorOf_askTwice (d : Drive) (n : Nat) (e : Env) :
    sectorOf d n e.askTwice.2 = sectorOf d n e := by
  simp only [sectorOf, Env.fileBytes_askTwice]

/-- A drive record as inserting its image would build it, but for status, error and cache. -/
def agreesWithHeader (p : Params) (e : Env) (d : Drive) : Prop :=
  ∃ status error cache, d = { driveOfHeader p d.image (e.fileBytes d.image 0 128) with
    status := status, error := error, cache := cache }

/-- Such a drive and the one that its image gives read alike, but for the cache. -/
theorem sectorOf_reinserted {p : Params} {e e' : Env} {d : Drive} (h : agreesWithHeader p e d)
    (n : Nat) :
    sectorOf (driveOfHeader p d.image (e.fileBytes d.image 0 128)) n e' =
      sectorOf { d with cache := [] } n e' := by
  obtain ⟨status, error, cache, hd⟩ := h
  rw [hd]
  rfl

/-- Eject and insert of the same image, the two file operations succeeding. -/
theorem runs_reinsert {s : State} {u : DriveUnit} {d : Drive} (hu : s.chan.drive u = some d)
    (hready : s.chan.phase = .ready) (hcard : s.card.holdsImage d.image = false)
    (hvalid : headerValid (s.env.fileBytes d.image 0 128) = true) (hsays : s.env.says 2) :
    runs [.ataEject u, .ataInsert u d.image] s = some ([.nothing, .ok], { s with
      chan := s.chan.setDrive u
        (some (driveOfHeader s.cfg d.image (s.env.fileBytes d.image 0 128)))
      env := s.env.askTwice.2, result := .ok }) := by
  have heject := exec_ataEject (u := u) (s := s) ⟨by rw [hu]; rfl, hready⟩
  have hduty : dutiful (.ataInsert u d.image)
      { s with chan := s.chan.setDrive u none, result := .nothing } :=
    ⟨Channel.drive_setDrive_same .., (Channel.setDrive_phase ..).trans hready, hcard⟩
  have hask : s.env.askTwice.1.2 = true := by rw [(Env.says_askTwice (k := 0) hsays).1]
  have hinsert := exec_ataInsert hduty
  rw [ataInsert_opened (s := { s with chan := s.chan.setDrive u none, result := .nothing })
    (openDrive_ok s.cfg d.image hask hvalid)] at hinsert
  rw [runs_cons_next heject, runs_cons_next hinsert, setDrive_setDrive]
  rfl

/-- Settles O52: the new record is the header's, and no file changed. -/
theorem uncommittedDataAreLost : Obligations.UncommittedDataAreLost := by
  intro s u d hu hready hcard hvalid hrecord hsays
  refine ⟨_, _, runs_reinsert hu hready hcard hvalid hsays, Channel.drive_setDrive_same ..,
    Env.askTwice_files _, fun n => ?_⟩
  rw [sectorOf_reinserted hrecord]
  exact sectorOf_askTwice ..

/-- Settles O51: the commit wrote every entry and left the header, so the same record comes back over
the same bytes. -/
theorem committedDataSurviveReinsertion : Obligations.CommittedDataSurviveReinsertion := by
  intro s u d hu hready hcard hwf hok hvalid hoffset hrecord hsays
  have hheader := fileBytes_commit_header (e := s.env) hwf hok hoffset
  obtain ⟨hempty, hsays'⟩ := commit_says (k := 2) hok hsays
  have hdrive : (commit d s.env).1 = { d with cache := [] } := by
    rw [commit_drive hwf hok, hempty]
  have hcommit := exec_ataCommit hu
  rw [hdrive] at hcommit
  have hreinsert := runs_reinsert (s := { s with
    chan := s.chan.setDrive u (some { d with cache := [] }), env := (commit d s.env).2
    result := .nothing }) (d := { d with cache := [] }) (Channel.drive_setDrive_same ..)
    ((Channel.setDrive_phase ..).trans hready) hcard (by simpa [hheader] using hvalid) hsays'
  simp only [hheader] at hreinsert
  refine ⟨_, _, by rw [runs_cons_next hcommit, hreinsert]; rfl, Channel.drive_setDrive_same .., rfl,
    ?_, fun n => ?_⟩
  · obtain ⟨status, error, cache, hd⟩ := hrecord
    conv_rhs => rw [hd]
    rfl
  · rw [sectorOf_reinserted hrecord, ← sectorOf_commit hwf hok n, hdrive]
    exact sectorOf_askTwice ..

end Sys2Proof.Machine
end

section
/-! What an access to the ATA registers can do to the machine, said once: which drives it keeps, and how
phase, counter and DRQ move (10_state.md section 3, 41_ata_register_access.md section 7). -/

namespace Sys2Proof.Machine

/-! ### A drive through an access -/

/-- The drive is the same record with other values of status, error and cache, the cache in order and
BSY and DRDY as they have to be if they were. -/
structure Drive.Keeps (d d' : Drive) : Prop where
  record : d' = { d with status := d'.status, error := d'.error, cache := d'.cache }
  cacheOk : d.cacheOk → d'.cacheOk
  ready : d.status &&& 0xC0 = 0x40 → d'.status &&& 0xC0 = 0x40

namespace Drive.Keeps

theorem refl (d : Drive) : d.Keeps d := ⟨rfl, id, id⟩

theorem trans {d d' d'' : Drive} (h : d.Keeps d') (h' : d'.Keeps d'') : d.Keeps d'' :=
  ⟨by rw [h'.record, h.record], h'.cacheOk ∘ h.cacheOk, h'.ready ∘ h.ready⟩

theorem image {d d' : Drive} (h : d.Keeps d') : d'.image = d.image := by rw [h.record]

theorem ok {d d' : Drive} (h : d.Keeps d') (hd : d.ok) : d'.ok := by
  obtain ⟨hcache, hstatus, himage, hoffset⟩ := hd
  refine ⟨h.cacheOk hcache, h.ready hstatus, ?_, ?_⟩
  · rw [h.record]; exact himage
  · rw [h.record]; exact hoffset

end Drive.Keeps

/-! The status bits, byte by byte: what each update leaves of BSY, DRDY and DRQ. -/

theorem setErr_bits (b : Byte) :
    setErr b &&& 0xC0 = b &&& 0xC0 ∧ hasBit (setErr b) statusDrq = hasBit b statusDrq := by
  revert b; decide +kernel

theorem setDrq_bits (b : Byte) : setDrq b &&& 0xC0 = b &&& 0xC0 ∧ hasBit (setDrq b) statusDrq = true := by
  revert b; decide +kernel

theorem clearDrq_bits (b : Byte) :
    clearDrq b &&& 0xC0 = b &&& 0xC0 ∧ hasBit (clearDrq b) statusDrq = false := by
  revert b; decide +kernel

theorem preambleStatus_bits (b : Byte) :
    preambleStatus b &&& 0xC0 = 0x40 ∧ hasBit (preambleStatus b) statusDrq = hasBit b statusDrq := by
  revert b; decide +kernel

theorem keeps_recordError (code : Byte) (d : Drive) : d.Keeps (recordError code d) :=
  ⟨rfl, id, fun h => (setErr_bits d.status).1.trans h⟩

theorem keeps_setDrq (d : Drive) : d.Keeps { d with status := setDrq d.status } :=
  ⟨rfl, id, fun h => (setDrq_bits d.status).1.trans h⟩

theorem keeps_clearDrq (d : Drive) : d.Keeps { d with status := clearDrq d.status } :=
  ⟨rfl, id, fun h => (clearDrq_bits d.status).1.trans h⟩

theorem keeps_preambleDrive (d : Drive) : d.Keeps (preambleDrive d) :=
  ⟨rfl, id, fun _ => (preambleStatus_bits d.status).1⟩

theorem keeps_memWrite {d : Drive} {n : Nat} (h : n < d.total) (v : Sector) :
    d.Keeps (memWrite d n v) :=
  ⟨rfl, fun hd => memWrite_cacheOk hd h v, id⟩

/-! ### A channel through an access -/

/-- The selection and the bus are as before, the drive that is not selected is untouched, the selected
one kept. -/
structure Channel.Keeps (c c' : Channel) : Prop where
  databus : c'.databus = c.databus
  selected : c'.selected = c.selected
  unit : unitOfHead c'.head = unitOfHead c.head
  other : ∀ u, u ≠ c.selected → c'.drive u = c.drive u
  slot : Option.Rel Drive.Keeps c.drv c'.drv

theorem Option.rel_keeps_refl (x : Option Drive) : Option.Rel Drive.Keeps x x := by
  cases x with
  | none => exact .none
  | some d => exact .some (.refl d)

theorem Option.rel_keeps_trans {x y z : Option Drive} (h : Option.Rel Drive.Keeps x y)
    (h' : Option.Rel Drive.Keeps y z) : Option.Rel Drive.Keeps x z := by
  cases h with
  | none => exact h'
  | some h => cases h' with | some h' => exact .some (h.trans h')

namespace Channel.Keeps

/-- Nothing the relation looks at has changed. -/
theorem of_eq {c c' : Channel} (hbus : c'.databus = c.databus) (hsel : c'.selected = c.selected)
    (hunit : unitOfHead c'.head = unitOfHead c.head) (hdrive : ∀ u, c'.drive u = c.drive u) :
    c.Keeps c' := by
  refine ⟨hbus, hsel, hunit, fun u _ => hdrive u, ?_⟩
  rw [Channel.drv, Channel.drv, hsel, hdrive]
  exact Option.rel_keeps_refl _

theorem refl (c : Channel) : c.Keeps c := .of_eq rfl rfl rfl fun _ => rfl

theorem trans {c c' c'' : Channel} (h : c.Keeps c') (h' : c'.Keeps c'') : c.Keeps c'' :=
  ⟨h'.databus.trans h.databus, h'.selected.trans h.selected, h'.unit.trans h.unit,
    fun u hu => (h'.other u (h.selected.symm ▸ hu)).trans (h.other u hu),
    Option.rel_keeps_trans h.slot h'.slot⟩

/-- Both slots, whichever is selected. -/
theorem drive {c c' : Channel} (h : c.Keeps c') (u : DriveUnit) :
    Option.Rel Drive.Keeps (c.drive u) (c'.drive u) := by
  by_cases hu : u = c.selected
  · subst hu
    have hslot := h.slot
    rwa [Channel.drv, Channel.drv, h.selected] at hslot
  · rw [h.other u hu]
    exact Option.rel_keeps_refl _

end Channel.Keeps

theorem keeps_mapDrv {c : Channel} {g : Drive → Drive} (h : ∀ d, c.drv = some d → d.Keeps (g d)) :
    c.Keeps (c.mapDrv g) := by
  refine ⟨Channel.mapDrv_databus .., Channel.mapDrv_selected .., by rw [Channel.mapDrv_head],
    fun u hu => by rw [Channel.drive_mapDrv, if_neg hu], ?_⟩
  rw [Channel.drv_mapDrv]
  cases hd : c.drv with
  | none => exact .none
  | some d => exact .some (h d hd)

theorem keeps_seekAdvance (d : Drive) (c : Channel) : c.Keeps (seekAdvance d c) :=
  .of_eq (seekAdvance_databus ..) (seekAdvance_selected ..) (unitOfHead_seekAdvance ..)
    (seekAdvance_drive d c)

theorem keeps_endTransfer (c : Channel) : c.Keeps (endTransfer c) :=
  (keeps_mapDrv fun d _ => keeps_clearDrq d).trans (.of_eq rfl rfl rfl fun _ => rfl)

theorem keeps_openTransfer (p : Phase) (c : Channel) : c.Keeps (openTransfer p c) :=
  (keeps_mapDrv fun d _ => keeps_setDrq d).trans (.of_eq rfl rfl rfl fun _ => rfl)

theorem keeps_receiveSector (v : Sector) (c : Channel) : c.Keeps (receiveSector v c) :=
  Channel.Keeps.trans (c' := { c with buffer := v }) (.of_eq rfl rfl rfl fun _ => rfl)
    (keeps_openTransfer _ _)

theorem keeps_nextBufferOrReady (c : Channel) : c.Keeps (nextBufferOrReady c) := by
  unfold nextBufferOrReady
  split
  · exact .of_eq rfl rfl rfl fun _ => rfl
  · exact keeps_endTransfer c

/-! ### Phase, counter and DRQ -/

/-- DRQ of the selected drive, if there is one. -/
def Channel.drqShown (c : Channel) : Option Bool := c.drv.map Drive.drq

/-- The moves of a channel under an access; a transfer opens only if `mayOpen` allows it. -/
inductive PhaseMove (mayOpen : Prop) (c c' : Channel) : Prop where
  | stays (phase : c'.phase = c.phase) (counter : c'.datacounter = c.datacounter)
      (drq : c'.drqShown = c.drqShown)
  | moves (busy : c.phase ≠ .ready) (phase : c'.phase = c.phase)
      (counter : c'.datacounter = c.datacounter + busStep c.databus) (inside : c'.datacounter < 512)
      (drq : c'.drqShown = c.drqShown)
  | reloads (busy : c.phase ≠ .ready) (phase : c'.phase = c.phase) (counter : c'.datacounter = 0)
      (drq : c'.drqShown = c.drqShown ∨ c'.drqShown = some true)
  | ends (phase : c'.phase = .ready)
      (counter : c'.datacounter = c.datacounter ∨
        (c.phase ≠ .ready ∧ c'.datacounter = c.datacounter + busStep c.databus))
      (drq : c'.drqShown = some false)
  | opens (may : mayOpen) (idle : c.phase = .ready) (phase : c'.phase ≠ .ready)
      (counter : c'.datacounter = 0) (drq : c'.drqShown = some true)

theorem drqShown_mapDrv {c : Channel} {g : Drive → Drive} (h : ∀ d, (g d).drq = d.drq) :
    (c.mapDrv g).drqShown = c.drqShown := by
  simp only [Channel.drqShown, Channel.drv_mapDrv, Option.map_map]
  exact congrArg (fun f => Option.map f c.drv) (funext h)

theorem drqShown_endTransfer {c : Channel} {d : Drive} (h : c.drv = some d) :
    (endTransfer c).drqShown = some false := by
  rw [endTransfer_eq h]
  exact (congrArg (Option.map Drive.drq) setDrive_drv).trans
    (congrArg some (clearDrq_bits d.status).2)

theorem drqShown_openTransfer {c : Channel} {d : Drive} (h : c.drv = some d) (p : Phase) :
    (openTransfer p c).drqShown = some true := by
  rw [openTransfer_eq h]
  exact (congrArg (Option.map Drive.drq) setDrive_drv).trans (congrArg some (setDrq_bits d.status).2)

end Sys2Proof.Machine
end

section
/-! Every access to the ATA registers, by what it does to the machine (R150 to R211). -/

namespace Sys2Proof.Machine

/-! ### load_sector and store_sector -/

/-- The three ways a transfer of a sector leaves phase, counter and DRQ: ended, the next buffer loaded, or
the next buffer awaited. -/
def Channel.ended (c c' : Channel) : Prop :=
  c'.phase = .ready ∧ c'.datacounter = c.datacounter ∧ c'.drqShown = some false

def Channel.loaded (c' : Channel) : Prop :=
  c'.phase = .pioIn ∧ c'.datacounter = 0 ∧ c'.drqShown = some true

def Channel.awaits (c c' : Channel) : Prop :=
  c'.phase = c.phase ∧ c'.datacounter = 0 ∧ c'.drqShown = c.drqShown

theorem ended_endTransfer {c : Channel} {d : Drive} (h : c.drv = some d) : c.ended (endTransfer c) :=
  ⟨rfl, endTransfer_datacounter c, drqShown_endTransfer h⟩

theorem loaded_receiveSector {c : Channel} {d : Drive} (h : c.drv = some d) (v : Sector) :
    (receiveSector v c).loaded :=
  ⟨rfl, rfl, drqShown_openTransfer (c := { c with buffer := v }) h .pioIn⟩

/-- An error recorded on the selected drive as its transfer ends. -/
theorem endTransfer_error_effect {c : Channel} {d : Drive} (h : c.drv = some d) (code : Byte) :
    c.Keeps (endTransfer (c.mapDrv (recordError code))) ∧
      c.ended (endTransfer (c.mapDrv (recordError code))) := by
  refine ⟨(keeps_mapDrv fun d _ => keeps_recordError code d).trans (keeps_endTransfer _), ?_⟩
  obtain ⟨hphase, hcounter, hdrq⟩ := ended_endTransfer
    (c := c.mapDrv (recordError code)) (d := recordError code d) (by rw [Channel.drv_mapDrv, h]; rfl)
  exact ⟨hphase, hcounter.trans (Channel.mapDrv_datacounter ..), hdrq⟩

theorem loadSector_effect {d d' : Drive} {s : State} (hd : s.chan.drv = some d') :
    s.chan.Keeps (loadSector d s).chan ∧
      (s.chan.ended (loadSector d s).chan ∨ (loadSector d s).chan.loaded) := by
  have hseek : (seekAdvance d s.chan).drv = some d' := (seekAdvance_drv ..).trans hd
  cases haddr : address s.chan d with
  | none =>
    rw [loadSector_range haddr]
    obtain ⟨hkeeps, hended⟩ := endTransfer_error_effect hd (rangeErrorByte s.cfg)
    exact ⟨hkeeps, .inl hended⟩
  | some n =>
    by_cases hgives : storeGives d n s.env
    · rw [loadSector_gives haddr hgives]
      exact ⟨(keeps_seekAdvance d s.chan).trans (keeps_receiveSector _ _),
        .inr (loaded_receiveSector hseek _)⟩
    · rw [loadSector_fails haddr hgives]
      obtain ⟨hkeeps, hphase, hcounter, hdrq⟩ :=
        endTransfer_error_effect hseek (readErrorByte s.cfg)
      exact ⟨(keeps_seekAdvance d s.chan).trans hkeeps,
        .inl ⟨hphase, hcounter.trans (seekAdvance_datacounter ..), hdrq⟩⟩

theorem storeSector_effect {d : Drive} {s : State} (hd : s.chan.drv = some d) :
    s.chan.Keeps (storeSector d s).chan ∧
      (s.chan.ended (storeSector d s).chan ∨ s.chan.awaits (storeSector d s).chan) := by
  cases haddr : address s.chan d with
  | none =>
    rw [storeSector_range haddr]
    obtain ⟨hkeeps, hended⟩ := endTransfer_error_effect hd (rangeErrorByte s.cfg)
    exact ⟨hkeeps, .inl hended⟩
  | some n =>
    have hseek : (seekAdvance d s.chan).drv = some d := (seekAdvance_drv ..).trans hd
    have hwritten : (storeSector d s).chan = nextBufferOrReady
        ((seekAdvance d s.chan).mapDrv fun d => memWrite d n s.chan.buffer) := by
      simp only [storeSector, haddr]
    rw [hwritten]
    refine ⟨(keeps_seekAdvance d s.chan).trans ((keeps_mapDrv fun d' hd' => ?_).trans
      (keeps_nextBufferOrReady _)), ?_⟩
    · obtain rfl : d' = d := Option.some.inj (hd'.symm.trans hseek)
      exact keeps_memWrite (address_lt haddr) _
    · unfold nextBufferOrReady
      split
      · exact .inr ⟨(Channel.mapDrv_phase ..).trans (seekAdvance_phase ..), rfl,
          (drqShown_mapDrv (g := fun d => memWrite d n s.chan.buffer) fun _ => rfl).trans
            (congrArg (Option.map Drive.drq) (hseek.trans hd.symm))⟩
      · obtain ⟨hphase, hcounter, hdrq⟩ := ended_endTransfer
          (c := (seekAdvance d s.chan).mapDrv fun d => memWrite d n s.chan.buffer)
          (d := memWrite d n s.chan.buffer) (by rw [Channel.drv_mapDrv, hseek]; rfl)
        exact .inl ⟨hphase, hcounter.trans ((Channel.mapDrv_datacounter ..).trans
          (seekAdvance_datacounter ..)), hdrq⟩

theorem storeSector_frame (d : Drive) (s : State) :
    storeSector d s = { s with chan := (storeSector d s).chan } := by
  unfold storeSector
  split <;> rfl

/-! ### The effect of an access -/

/-- The commands that open a transfer (R200 to R202). -/
def openingCommands : List Instr :=
  [.readSectorRetry, .readSectorNoretry, .writeSectorRetry, .writeSectorNoretry, .identifyDriveAta,
    .identifyDriveAtapi]

/-- The operation is such a command, or carries one to COMMAND. -/
def mayOpen (i : Instr) : Prop :=
  ∃ b, decodeAtaCmd b ∈ openingCommands ∧ (i = decodeAtaCmd b ∨ i = .ataWrCommand b)

/-- What an access to the ATA registers does to the machine; a write of HEAD_DRIVE, which selects, is
apart. -/
structure AtaEffect (may : Prop) (s t : State) : Prop where
  cfg : t.cfg = s.cfg
  card : t.card = s.card
  inbox : t.inbox = s.inbox
  files : t.env.files = s.env.files
  chan : s.chan.Keeps t.chan
  phase : PhaseMove may s.chan t.chan

namespace AtaEffect

theorem refl (may : Prop) (s : State) : AtaEffect may s s :=
  ⟨rfl, rfl, rfl, rfl, .refl _, .stays rfl rfl rfl⟩

theorem returns {may : Prop} {s t : State} (h : AtaEffect may s t) (r : Result) :
    AtaEffect may s (t.returns r) :=
  ⟨h.cfg, h.card, h.inbox, h.files, h.chan, h.phase⟩

/-- A change of the channel alone. -/
theorem mapChan {may : Prop} {s : State} {f : Channel → Channel} (h : s.chan.Keeps (f s.chan))
    (hp : PhaseMove may s.chan (f s.chan)) : AtaEffect may s (s.mapChan f) :=
  ⟨rfl, rfl, rfl, rfl, h, hp⟩

/-- A change of the selected drive that keeps it and its DRQ. -/
theorem mapDrv {may : Prop} {s : State} {g : Drive → Drive}
    (h : ∀ d : Drive, s.chan.drv = some d → d.Keeps (g d)) (hdrq : ∀ d, (g d).drq = d.drq) :
    AtaEffect may s (s.mapChan fun c => c.mapDrv g) :=
  .mapChan (keeps_mapDrv h)
    (.stays (Channel.mapDrv_phase ..) (Channel.mapDrv_datacounter ..) (drqShown_mapDrv hdrq))

end AtaEffect

/-- A move starts from phase, counter, DRQ and bus alone. -/
theorem PhaseMove.of_same {may : Prop} {c c₁ c' : Channel} (hphase : c₁.phase = c.phase)
    (hcounter : c₁.datacounter = c.datacounter) (hdrq : c₁.drqShown = c.drqShown)
    (hbus : c₁.databus = c.databus) (h : PhaseMove may c₁ c') : PhaseMove may c c' := by
  cases h with
  | stays phase counter drq =>
    exact .stays (phase.trans hphase) (counter.trans hcounter) (drq.trans hdrq)
  | moves busy phase counter inside drq =>
    exact .moves (hphase ▸ busy) (phase.trans hphase) (by rw [counter, hcounter, hbus]) inside
      (drq.trans hdrq)
  | reloads busy phase counter drq =>
    exact .reloads (hphase ▸ busy) (phase.trans hphase) counter (hdrq ▸ drq)
  | ends phase counter drq =>
    exact .ends phase (by rwa [hcounter, hbus, hphase] at counter) drq
  | opens may idle phase counter drq =>
    exact .opens may (hphase.symm.trans idle) phase counter drq

/-! ### The commands (R190 to R204) -/

section Body
variable {s : State} {d : Drive} (hd : s.chan.drv = some d)
include hd

theorem initDeviceParams_effect (may : Prop) : AtaEffect may s (initDeviceParams d s) := by
  refine .mapDrv (fun d' hd' => ?_) fun _ => rfl
  obtain rfl : d' = d := Option.some.inj (hd'.symm.trans hd)
  exact .refl d'

variable (hp : s.chan.phase = .ready) {may : Prop} (hmay : may)
include hp hmay

theorem writeBegin_effect : AtaEffect may s (writeBegin d s) :=
  .mapChan (keeps_openTransfer ..) (.opens hmay hp nofun rfl (drqShown_openTransfer hd _))

theorem identifyDevice_effect : AtaEffect may s (identifyDevice d s) :=
  .mapChan
    (Channel.Keeps.trans (c' := { s.chan with buffer := identifyBuffer d, sectorCount := 0 })
      (.of_eq rfl rfl rfl fun _ => rfl) (keeps_openTransfer ..))
    (.opens hmay hp nofun rfl (drqShown_openTransfer
      (c := { s.chan with buffer := identifyBuffer d, sectorCount := 0 }) hd _))

theorem readBegin_effect : AtaEffect may s (readBegin d s) := by
  obtain ⟨hcfg, hcard, hinbox, -, hfiles, -⟩ := loadSector_frame d s
  obtain ⟨hkeeps, ⟨hphase, hcounter, hdrq⟩ | ⟨hphase, hcounter, hdrq⟩⟩ := loadSector_effect (d := d) hd
  · exact ⟨hcfg, hcard, hinbox, hfiles, hkeeps, .ends hphase (.inl hcounter) hdrq⟩
  · have hopen : (loadSector d s).chan.phase ≠ .ready := by rw [hphase]; nofun
    exact ⟨hcfg, hcard, hinbox, hfiles, hkeeps, .opens hmay hp hopen hcounter hdrq⟩

end Body

/-- A command that is not accepted does nothing; an accepted one runs after the preamble (R191). -/
theorem acceptCommand_effect {may : Prop} {body : Drive → State → State}
    (h : ∀ d s, s.chan.drv = some d → s.chan.phase = .ready → AtaEffect may s (body d s)) (s : State) :
    AtaEffect may s (acceptCommand body s) := by
  cases hd : s.chan.drv with
  | none => rw [acceptCommand_none hd]; exact .refl may s
  | some d =>
    by_cases hp : s.chan.phase = .ready
    · rw [acceptCommand_ready hd hp]
      have hdrq : (s.accepted d).chan.drqShown = s.chan.drqShown := by
        simp only [Channel.drqShown, accepted_drv, hd, ← preambleDrive_eq]
        exact congrArg some (preambleStatus_bits d.status).2
      have hkeeps : s.chan.Keeps (s.accepted d).chan := by
        rw [State.accepted, ← preambleDrive_eq, ← mapDrv_eq hd]
        exact keeps_mapDrv fun d _ => keeps_preambleDrive d
      have hbody := h _ _ (accepted_drv d s) (by simpa [State.accepted] using hp)
      exact ⟨hbody.cfg, hbody.card, hbody.inbox, hbody.files, hkeeps.trans hbody.chan,
        .of_same (by simp [State.accepted]) (by simp [State.accepted]) hdrq (by simp [State.accepted])
          hbody.phase⟩
    · rw [acceptCommand_busy hp]; exact .refl may s

/-- The effect of an operation that completes. -/
def hasAtaEffect (i : Instr) (s : State) : Prop :=
  ∃ t, exec i s = .next t ∧ AtaEffect (mayOpen i) s t

/-- An operation that completes with a state that differs from an effect only in the result. -/
theorem hasAtaEffect_completes {i : Instr} {s t : State} {r : Result} (h : exec i s = completes r t)
    (ht : AtaEffect (mayOpen i) s t) : hasAtaEffect i s := ⟨t.returns r, h, ht.returns r⟩

theorem mayOpen_of_mem {i : Instr} (h : i ∈ openingCommands) : mayOpen i := by
  have hopcode : ∃ b, i = decodeAtaCmd b := by
    simp only [openingCommands, List.mem_cons, List.not_mem_nil, or_false] at h
    obtain rfl | rfl | rfl | rfl | rfl | rfl := h
    · exact ⟨0x20, rfl⟩
    · exact ⟨0x21, rfl⟩
    · exact ⟨0x30, rfl⟩
    · exact ⟨0x31, rfl⟩
    · exact ⟨0xEC, rfl⟩
    · exact ⟨0xA1, rfl⟩
  obtain ⟨b, hb⟩ := hopcode
  exact ⟨b, hb ▸ h, .inl hb⟩

/-- An opening command, under whatever the access that carries it allows. -/
theorem openingCommand_effect {i : Instr} (h : i ∈ openingCommands) {may : Prop} (hmay : may)
    (s : State) : ∃ t, exec i s = completes .nothing t ∧ AtaEffect may s t := by
  simp only [openingCommands, List.mem_cons, List.not_mem_nil, or_false] at h
  obtain rfl | rfl | rfl | rfl | rfl | rfl := h
  · exact ⟨_, rfl, acceptCommand_effect (fun _ _ hd hp => readBegin_effect hd hp hmay) s⟩
  · exact ⟨_, rfl, acceptCommand_effect (fun _ _ hd hp => readBegin_effect hd hp hmay) s⟩
  · exact ⟨_, rfl, acceptCommand_effect (fun _ _ hd hp => writeBegin_effect hd hp hmay) s⟩
  · exact ⟨_, rfl, acceptCommand_effect (fun _ _ hd hp => writeBegin_effect hd hp hmay) s⟩
  · exact ⟨_, rfl, acceptCommand_effect (fun _ _ hd hp => identifyDevice_effect hd hp hmay) s⟩
  · exact ⟨_, rfl, acceptCommand_effect (fun _ _ hd hp => identifyDevice_effect hd hp hmay) s⟩

/-- The commands that never open one. -/
theorem quietCommand_effect {i : Instr} {op : Byte}
    (h : i = .initializeDeviceParameters ∨ i = .ataCmdOther op) (may : Prop) (s : State) :
    ∃ t, exec i s = completes .nothing t ∧ AtaEffect may s t := by
  obtain rfl | rfl := h
  · exact ⟨_, rfl, acceptCommand_effect (fun _ _ hd _ => initDeviceParams_effect hd may) s⟩
  · exact ⟨_, rfl, acceptCommand_effect (body := abort) (fun _ _ _ _ =>
      .mapDrv (fun d _ => keeps_recordError _ d) fun d => (setErr_bits d.status).2) s⟩

theorem decodeAtaCmd_cases (b : Byte) : decodeAtaCmd b ∈ openingCommands ∨
    decodeAtaCmd b = .initializeDeviceParameters ∨ decodeAtaCmd b = .ataCmdOther b := by
  unfold decodeAtaCmd
  split <;> simp [openingCommands]

/-- A COMMAND write performs the command that its byte names. -/
theorem ataWrCommand_effect (b : Byte) (s : State) : hasAtaEffect (.ataWrCommand b) s := by
  obtain ⟨body, -, hexec⟩ := command_body b
  have hsame : exec (.ataWrCommand b) s = exec (decodeAtaCmd b) s :=
    (hexec s).1.trans (hexec s).2.symm
  obtain hopens | hquiet := decodeAtaCmd_cases b
  · obtain ⟨t, ht, heffect⟩ := openingCommand_effect hopens
      (may := mayOpen (.ataWrCommand b)) ⟨b, hopens, .inr rfl⟩ s
    exact hasAtaEffect_completes (hsame.trans ht) heffect
  · obtain ⟨t, ht, heffect⟩ := quietCommand_effect hquiet (mayOpen (.ataWrCommand b)) s
    exact hasAtaEffect_completes (hsame.trans ht) heffect

/-! ### The registers (R150 to R168) -/

theorem plainRead_effect {i : Instr} (h : i ∈ plainReads) (s : State) : hasAtaEffect i s := by
  obtain ⟨value, hexec⟩ := exec_plainRead h
  cases hd : s.chan.drv with
  | none => exact ⟨_, (hexec s).trans (readRegister_absent hd value), (AtaEffect.refl _ s).returns _⟩
  | some d => exact ⟨_, (hexec s).trans (readRegister_present hd value), (AtaEffect.refl _ s).returns _⟩

/-- The writes that only store their byte. -/
def plainWrites (b : Byte) : List Instr :=
  [.ataWrFeature b, .ataWrSectorCount b, .ataWrSector b, .ataWrCylinderLow b, .ataWrCylinderHigh b,
    .ataWrData2 b]

/-- A register stored, with nothing that an effect looks at changed. -/
theorem writeRegister_effect {i : Instr} {s : State} {store : Channel → Channel}
    (h : exec i s = writeRegister store s) (hkeeps : s.chan.Keeps (store s.chan))
    (hphase : (store s.chan).phase = s.chan.phase)
    (hcounter : (store s.chan).datacounter = s.chan.datacounter)
    (hdrq : (store s.chan).drqShown = s.chan.drqShown) : hasAtaEffect i s :=
  hasAtaEffect_completes h (.mapChan hkeeps (.stays hphase hcounter hdrq))

theorem plainWrite_effect {i : Instr} {b : Byte} (h : i ∈ plainWrites b) (s : State) :
    hasAtaEffect i s := by
  simp only [plainWrites, List.mem_cons, List.not_mem_nil, or_false] at h
  obtain rfl | rfl | rfl | rfl | rfl | rfl := h <;>
    exact writeRegister_effect rfl (.of_eq rfl rfl rfl fun _ => rfl) rfl rfl rfl

/-! ### DATA (R169 to R180) -/

/-- The DATA access has moved the counter by one step inside an open transfer. -/
theorem moves_effect {s : State} {may : Prop} {f : Channel → Channel} (busy : s.chan.phase ≠ .ready)
    (hkeeps : s.chan.Keeps (f s.chan)) (hphase : (f s.chan).phase = s.chan.phase)
    (hcounter : (f s.chan).datacounter = s.chan.datacounter + busStep s.chan.databus)
    (hinside : s.chan.datacounter + busStep s.chan.databus < 512)
    (hdrq : (f s.chan).drqShown = s.chan.drqShown) : AtaEffect may s (s.mapChan f) :=
  .mapChan hkeeps (.moves busy hphase hcounter (by omega) hdrq)

theorem keeps_busRead (c : Channel) : c.Keeps (busRead c) := .of_eq rfl rfl rfl fun _ => rfl

theorem keeps_busWrite (p : Params) (b : Byte) (c : Channel) : c.Keeps (busWrite p b c) :=
  .of_eq rfl rfl rfl fun _ => rfl

/-- The end of the buffer, whichever way it goes: the transfer ends, or starts the next buffer. -/
theorem phaseMove_endOfBuffer {may : Prop} {c c₁ c' : Channel} (busy : c.phase ≠ .ready)
    (hphase : c₁.phase = c.phase) (hcounter : c₁.datacounter = c.datacounter + busStep c.databus)
    (hdrq : c₁.drqShown = c.drqShown)
    (h : c₁.ended c' ∨ (c₁.phase = .pioIn ∧ c'.loaded) ∨ c₁.awaits c') : PhaseMove may c c' := by
  obtain ⟨hp, hc, hd⟩ | ⟨hin, hp, hc, hd⟩ | ⟨hp, hc, hd⟩ := h
  · exact .ends hp (.inr ⟨busy, hc.trans hcounter⟩) hd
  · exact .reloads busy (hp.trans (hin.symm.trans hphase)) hc (.inr hd)
  · exact .reloads busy (hp.trans hphase) hc (.inl (hd.trans hdrq))

theorem ataRdData_effect (s : State) : hasAtaEffect .ataRdData s := by
  cases hd : s.chan.drv with
  | none => exact ⟨_, exec_ataRdData_absent hd, (AtaEffect.refl _ s).returns _⟩
  | some d =>
    by_cases hp : s.chan.phase = .pioIn
    · have busy : s.chan.phase ≠ .ready := by rw [hp]; nofun
      refine hasAtaEffect_completes (exec_ataRdData_pioIn hd hp) ?_
      unfold endOfBufferIn
      split
      · split
        · obtain ⟨hcfg, hcard, hinbox, -, hfiles, -⟩ := loadSector_frame d (s.mapChan busRead)
          obtain ⟨hkeeps, hmove⟩ := loadSector_effect (d := d) (s := s.mapChan busRead) hd
          exact ⟨hcfg, hcard, hinbox, hfiles, (keeps_busRead _).trans hkeeps,
            phaseMove_endOfBuffer (c₁ := busRead s.chan) busy rfl rfl rfl
              (hmove.imp_right fun h => .inl ⟨hp, h⟩)⟩
        · exact .mapChan (f := fun c => endTransfer (busRead c))
            ((keeps_busRead _).trans (keeps_endTransfer _))
            (phaseMove_endOfBuffer (c₁ := busRead s.chan) busy rfl rfl rfl
              (.inl (ended_endTransfer (c := busRead s.chan) hd)))
      · next hinside =>
        exact moves_effect busy (keeps_busRead _) rfl rfl (Nat.not_le.mp hinside) rfl
    · exact ⟨_, exec_ataRdData_gated hd hp, (AtaEffect.refl _ s).returns _⟩

theorem ataWrData_effect (b : Byte) (s : State) : hasAtaEffect (.ataWrData b) s := by
  cases hd : s.chan.drv with
  | none => exact ⟨_, exec_ataWrData_absent hd b, (AtaEffect.refl _ s).returns _⟩
  | some d =>
    by_cases hp : s.chan.phase = .pioOut
    · have busy : s.chan.phase ≠ .ready := by rw [hp]; nofun
      by_cases hinside : s.chan.datacounter + busStep s.chan.databus < 512
      · exact ⟨_, exec_ataWrData_inside hd hp b hinside,
          (moves_effect busy (keeps_busWrite s.cfg b _) rfl rfl hinside rfl).returns .nothing⟩
      · refine hasAtaEffect_completes (exec_ataWrData_fills hd hp b (Nat.not_lt.mp hinside)) ?_
        obtain ⟨hkeeps, hmove⟩ := storeSector_effect (d := d) (s := s.mapChan (busWrite s.cfg b)) hd
        rw [storeSector_frame]
        exact ⟨rfl, rfl, rfl, rfl, (keeps_busWrite ..).trans hkeeps,
          phaseMove_endOfBuffer (c₁ := busWrite s.cfg b s.chan) busy rfl rfl rfl (hmove.imp_right .inr)⟩
    · exact ⟨_, exec_ataWrData_gated hd hp b, (AtaEffect.refl _ s).returns _⟩

/-! ### Every access -/

/-- The ATA accesses, by what they do. -/
theorem isAtaAccess_cases {i : Instr} (h : isAtaAccess i = true) :
    i ∈ plainReads ∨ (∃ b, i ∈ plainWrites b) ∨ i ∈ openingCommands ∨
      (∃ op, i = .initializeDeviceParameters ∨ i = .ataCmdOther op) ∨ i = .ataRdData ∨
      (∃ b, i = .ataWrData b) ∨ (∃ b, i = .ataWrCommand b) ∨ ∃ b, i = .ataWrHeadDrive b := by
  unfold isAtaAccess at h
  split at h <;> simp [plainReads, plainWrites, openingCommands] at h ⊢

theorem exec_ata_effect {i : Instr} (h : isAtaAccess i = true) (hhead : ∀ b, i ≠ .ataWrHeadDrive b)
    (s : State) : hasAtaEffect i s := by
  obtain h | ⟨b, h⟩ | h | ⟨op, h⟩ | rfl | ⟨b, rfl⟩ | ⟨b, rfl⟩ | ⟨b, rfl⟩ := isAtaAccess_cases h
  · exact plainRead_effect h s
  · exact plainWrite_effect h s
  · obtain ⟨t, ht, heffect⟩ := openingCommand_effect h (mayOpen_of_mem h) s
    exact hasAtaEffect_completes ht heffect
  · obtain ⟨t, ht, heffect⟩ := quietCommand_effect h (mayOpen i) s
    exact hasAtaEffect_completes ht heffect
  · exact ataRdData_effect s
  · exact ataWrData_effect b s
  · exact ataWrCommand_effect b s
  · exact absurd rfl (hhead b)

end Sys2Proof.Machine
end

section
/-! Every operation on the SPI port, by what it does to the machine (R230 to R245, R260 to R278). -/

namespace Sys2Proof.Machine

/-! ### The medium -/

/-- Of a medium only the cache of its drive has changed. -/
def Medium.Keeps (m m' : Medium) : Prop :=
  m' = { m with drive := { m.drive with cache := m'.drive.cache } }

theorem Medium.Keeps.refl (m : Medium) : m.Keeps m := rfl

theorem Medium.Keeps.trans {m m' m'' : Medium} (h : m.Keeps m') (h' : m'.Keeps m'') : m.Keeps m'' := by
  rw [Medium.Keeps, h', h]

theorem Medium.Keeps.image {m m' : Medium} (h : m.Keeps m') : m'.drive.image = m.drive.image := by
  rw [h]

theorem slotKeeps_refl (x : Option Medium) : Option.Rel Medium.Keeps x x := by
  cases x with
  | none => exact .none
  | some m => exact .some (.refl m)

theorem slotKeeps_trans {x y z : Option Medium} (h : Option.Rel Medium.Keeps x y)
    (h' : Option.Rel Medium.Keeps y z) : Option.Rel Medium.Keeps x z := by
  cases h with
  | none => exact h'
  | some h => cases h' with | some h' => exact .some (h.trans h')

/-- Another cache in order for the drive of the medium. -/
theorem Medium.ok.withCache {m : Medium} (h : m.ok) {d : Drive}
    (hd : d = { m.drive with cache := d.cache }) (hcache : d.cacheOk) : Medium.ok { m with drive := d } := by
  obtain ⟨⟨-, hstatus, himage, hoffset⟩, hsize, htotal, hmultiple, hnonzero, hfield⟩ := h
  refine ⟨⟨hcache, ?_, ?_, ?_⟩, ?_, ?_, hmultiple, hnonzero, hfield⟩
  · rw [hd]; exact hstatus
  · rw [hd]; exact himage
  · rw [hd]; exact hoffset
  · rw [hd]; exact hsize
  · rw [hd]; exact htotal

/-- A zero fill inside the drive keeps the cache in order. -/
theorem eraseFill_cacheOk (count : Nat) : ∀ {n : Nat} {d : Drive}, d.cacheOk → n + count ≤ d.total →
    (eraseFill count n d).cacheOk := by
  induction count with
  | zero => exact fun h _ => h
  | succ count ih =>
    intro n d h hrange
    exact ih (memWrite_cacheOk h (by omega) _) (by rw [memWrite_total]; omega)

/-! ### The effect of an operation -/

/-- What an operation on the SPI port does to the machine. -/
structure SpiEffect (s t : State) : Prop where
  cfg : t.cfg = s.cfg
  chan : t.chan = s.chan
  inbox : t.inbox = s.inbox
  files : t.env.files = s.env.files
  slot : Option.Rel Medium.Keeps s.card.slot t.card.slot
  ok : paramsOk s.cfg → s.card.ok → t.card.ok

namespace SpiEffect

theorem refl (s : State) : SpiEffect s s := ⟨rfl, rfl, rfl, rfl, slotKeeps_refl _, fun _ h => h⟩

theorem trans {s t u : State} (h : SpiEffect s t) (h' : SpiEffect t u) : SpiEffect s u :=
  ⟨h'.cfg.trans h.cfg, h'.chan.trans h.chan, h'.inbox.trans h.inbox, h'.files.trans h.files,
    slotKeeps_trans h.slot h'.slot, fun hp hok => h'.ok (h.cfg ▸ hp) (h.ok hp hok)⟩

theorem returns {s t : State} (h : SpiEffect s t) (r : Result) : SpiEffect s (t.returns r) :=
  ⟨h.cfg, h.chan, h.inbox, h.files, h.slot, h.ok⟩

/-- A change of the card that leaves the slot. -/
theorem mapCard {s : State} {f : Card → Card} (hslot : (f s.card).slot = s.card.slot)
    (hok : s.card.ok → (f s.card).ok) : SpiEffect s (s.mapCard f) :=
  ⟨rfl, rfl, rfl, rfl, by rw [State.mapCard_card, hslot]; exact slotKeeps_refl _, fun _ => hok⟩

end SpiEffect

/-! ### One byte to the receiver (R231 to R239) -/

/-- A byte that only moves the receiver: frame and block fields change, and a data phase has room for
its next byte. -/
theorem Card.ok.received {c c' : Card} (h : c.ok)
    (hrest : c' = { c with
      commandState := c'.commandState, currentCommand := c'.currentCommand, arg0 := c'.arg0
      arg1 := c'.arg1, arg2 := c'.arg2, arg3 := c'.arg3, sendBuffer := c'.sendBuffer
      dataCount := c'.dataCount })
    (hcount : c'.commandState = .waitingForData → c'.dataCount < 512) : c'.ok := by
  obtain ⟨hmedium, hrd, hwr, -, hr1⟩ := h
  rw [hrest]
  exact ⟨hmedium, hrd, hwr, hcount, hr1⟩

theorem receiveCommandByte_ok {c : Card} (h : c.ok) (b : Byte) : (receiveCommandByte b c).ok := by
  by_cases hb : b &&& 0xC0 = 0x40
  · rw [receiveCommandByte_start hb]
    exact h.received rfl nofun
  · rwa [receiveCommandByte_ignored hb]

theorem receiveToken_ok {c : Card} (h : c.ok) (b : Byte) : (receiveToken b c).ok := by
  unfold receiveToken
  split
  · exact h.received rfl fun _ => Nat.zero_lt_succ 511
  · exact h

theorem receiveDataByte_ok {c : Card} (h : c.ok) (hw : c.commandState = .waitingForData) (b : Byte) :
    (receiveDataByte b c).ok := by
  obtain ⟨-, -, -, hcount, -⟩ := id h
  have hroom := hcount hw
  by_cases hlast : c.dataCount + 1 = 512
  · rw [receiveDataByte_last hlast]
    exact h.received rfl nofun
  · rw [receiveDataByte_more (by omega)]
    exact h.received rfl fun _ => by show c.dataCount + 1 < 512; omega

theorem receiveCommandByte_slot (b : Byte) (c : Card) : (receiveCommandByte b c).slot = c.slot := by
  unfold receiveCommandByte; split <;> rfl

theorem receiveToken_slot (b : Byte) (c : Card) : (receiveToken b c).slot = c.slot := by
  unfold receiveToken; split <;> rfl

/-! ### The byte that completes a frame (R236, R260) -/

/-- An answer of at most 516 bytes on a card whose slot, R1 and erase bounds are in order. -/
theorem Card.ok.answered {c : Card} {l : List Byte} (hl : l.length ≤ 516)
    (hmedium : ∀ m, c.slot = some m → m.ok ∧ c.eraseOk m.totalSectors)
    (hr1 : c.r1Status &&& 0xA8 = 0) {w : CommandState} (hw : w ≠ .waitingForData) :
    ((respond l c).waiting w).ok :=
  ⟨hmedium, Nat.zero_le _, hl, fun h => absurd h hw, hr1⟩

theorem framePreamble_slot (c : Card) : (framePreamble c).slot = c.slot := by
  rw [(framePreamble_frame c).1]

theorem framePreamble_eraseOk {c : Card} {total : Nat} (h : c.eraseOk total) :
    (framePreamble c).eraseOk total := by
  obtain ⟨hframe, -, hclosed | hsame⟩ := framePreamble_frame c
  · exact ⟨fun hs => absurd (hclosed.symm.trans hs) nofun,
      fun hs => absurd (hclosed.symm.trans hs) nofun⟩
  · rw [hframe, hsame]; exact h

/-- The drive of a medium after the erase between the bounds of a card (R271). -/
def Card.erasedDrive (c : Card) (d : Drive) : Drive :=
  eraseFill (c.eraseEnd.toNat + 1 - c.eraseStart.toNat) c.eraseStart.toNat d

/-- The medium after the erase of a complete handshake. -/
theorem erasedDrive_medium {m : Medium} {c : Card} (h : m.ok) (herase : c.eraseOk m.totalSectors)
    (hended : c.eraseSequence = .ended) : Medium.ok { m with drive := c.erasedDrive m.drive } := by
  obtain ⟨horder, hrange⟩ := herase.2 hended
  obtain ⟨⟨hcache, -⟩, -, htotal, -⟩ := id h
  exact h.withCache (eraseFill_spec ..).1 (eraseFill_cacheOk _ hcache (by omega))

theorem completeFrame_effect {m : Medium} {s : State} (hslot : s.card.slot = some m) :
    SpiEffect s (completeFrame m s) := by
  obtain ⟨hframe, hfiles, -, l, c, hcard, hl, -, hr1, herase, hslots⟩ := executeCommand_result m s
  have hpre : (s.mapCard framePreamble).card.slot = some m := (framePreamble_slot s.card).trans hslot
  have hanswer : ∃ w : CommandState, w ≠ .waitingForData ∧
      (completeFrame m s).card = (respond (c.r1Status :: l) c).waiting w := by
    refine ⟨if entersData s.cfg s.card.cmd55Issued s.card.currentCommand then .waitingForDataToken
      else .waitingForCommand, by split <;> nofun, ?_⟩
    show (executeCommand m s).card.waiting _ = _
    rw [hcard]
    rfl
  obtain ⟨w, hw, hafter⟩ := hanswer
  have hcfg := congrArg State.cfg hframe
  have hchan := congrArg State.chan hframe
  have hinbox := congrArg State.inbox hframe
  refine ⟨hcfg, hchan, hinbox, hfiles, ?slot, fun _ hok => ?ok⟩
  case slot =>
    rw [hafter]
    show Option.Rel Medium.Keeps s.card.slot c.slot
    obtain hsame | ⟨-, hfill⟩ := hslots
    · rw [hsame, hpre, hslot]; exact slotKeeps_refl _
    · rw [hfill, hslot]
      exact .some (congrArg (Medium.mk · m.totalSectors m.cSize) (eraseFill_spec ..).1)
  case ok =>
    obtain ⟨hmedium, hbounds⟩ := hok.1 m hslot
    have hpreBounds : (framePreamble s.card).eraseOk m.totalSectors := framePreamble_eraseOk hbounds
    have hr1Clear : c.r1Status &&& 0xA8 = 0 := hr1.trans (framePreamble_frame s.card).2.1
    rw [hafter]
    refine .answered (by simpa using Nat.succ_le_succ hl) (fun m' hm' => ?_) hr1Clear hw
    obtain hsame | ⟨hended, hfill⟩ := hslots
    · obtain rfl : m = m' := Option.some.inj ((hsame.trans hpre).symm.trans hm')
      exact ⟨hmedium, herase hpreBounds⟩
    · obtain rfl := Option.some.inj (hfill.symm.trans hm')
      exact ⟨erasedDrive_medium hmedium hpreBounds hended, herase hpreBounds⟩

/-! ### The byte that completes a block (R278) -/

theorem writeSingleBlock_effect {m : Medium} {s : State} (hslot : s.card.slot = some m) :
    SpiEffect s (s.mapCard fun c => (writeSingleBlock s.cfg m c).waiting .waitingForCommand) := by
  have hwait : CommandState.waitingForCommand ≠ .waitingForData := nofun
  by_cases hrange : s.card.sectorArg < m.totalSectors
  · refine ⟨rfl, rfl, rfl, rfl, ?_, fun _ ⟨hmediumOk, _, _, _, hr1⟩ => ?_⟩ <;>
      rw [State.mapCard_card, writeSingleBlock_inRange hrange]
    · rw [hslot]; exact .some rfl
    · obtain ⟨hmedium, hbounds⟩ := hmediumOk m hslot
      obtain ⟨⟨hcache, -⟩, -, htotal, -⟩ := id hmedium
      refine .answered (by decide) (fun m' hm' => ?_) ?_ hwait
      · obtain rfl := Option.some.inj hm'
        exact ⟨hmedium.withCache rfl (memWrite_cacheOk hcache (htotal ▸ hrange) _), hbounds⟩
      · exact hr1
  · refine ⟨rfl, rfl, rfl, rfl, ?_, fun ⟨_, _, hanswer, _⟩ ⟨hmediumOk, _, _, _, hr1⟩ => ?_⟩ <;>
      rw [State.mapCard_card, writeSingleBlock_outOfRange (Nat.not_lt.mp hrange)]
    · exact slotKeeps_refl _
    · refine .answered (c := raiseR1 r1ParameterError s.card) ?_ hmediumOk ?_ hwait
      · rw [writeErrResponse, List.length_map]; exact hanswer
      · exact (raised_reserved _ _ (by decide)).trans hr1

/-! ### Every operation on the port -/

theorem spiWrite_effect (b : Byte) (s : State) : SpiEffect s (spiWrite b s) := by
  cases hslot : s.card.slot with
  | none =>
    have hnothing : spiWrite b s = s := by simp only [spiWrite, hslot]
    rw [hnothing]
    exact .refl s
  | some m =>
    unfold spiWrite
    rw [hslot]
    cases hw : s.card.commandState with
    | waitingForCommand =>
      exact .mapCard (receiveCommandByte_slot b _) fun h => receiveCommandByte_ok h b
    | waitingForData0 | waitingForData1 | waitingForData2 | waitingForData3 | waitingForDataCrc1 =>
      exact .mapCard rfl fun h => h.received rfl nofun
    | waitingForCrc => exact completeFrame_effect hslot
    | waitingForDataToken => exact .mapCard (receiveToken_slot b _) fun h => receiveToken_ok h b
    | waitingForData => exact .mapCard rfl fun h => receiveDataByte_ok h hw b
    | waitingForDataCrc2 => exact writeSingleBlock_effect hslot

theorem spiWrites_effect (bs : List Byte) : ∀ s, SpiEffect s (spiWrites bs s) := by
  induction bs with
  | nil => exact .refl
  | cons b bs ih => exact fun s => (spiWrite_effect b s).trans (ih _)

/-- A read moves the cursor, if there is a byte to read (R241, R242). -/
theorem spiRd_effect (s : State) : ∃ t, exec .spiRd s = .next t ∧ SpiEffect s t := by
  by_cases hmore : s.card.slot.isSome ∧ s.card.rd < s.card.wr
  · refine ⟨_, if_pos hmore, (SpiEffect.mapCard (f := fun c => { c with rd := c.rd + 1 }) rfl
      fun h => ?_).returns _⟩
    obtain ⟨hmedium, -, hwr, hcount, hr1⟩ := h
    exact ⟨hmedium, hmore.2, hwr, hcount, hr1⟩
  · exact ⟨_, if_neg hmore, (SpiEffect.refl s).returns _⟩

theorem exec_spi_effect {i : Instr} (h : isSpiAccess i = true) (s : State) :
    ∃ t, exec i s = .next t ∧ SpiEffect s t := by
  by_cases hread : i = .spiRd
  · subst hread; exact spiRd_effect s
  · obtain ⟨bs, hexec⟩ := exec_eq_spiWrites h hread
    exact ⟨_, hexec s, (spiWrites_effect bs s).returns _⟩

end Sys2Proof.Machine
end

section
/-! The host calls (40_sector_store.md), by what each does to the machine inside its host duties, and
with them every operation. -/

namespace Sys2Proof.Machine

/-! ### What opening an image gives (R130) -/

/-- Opening an image gives an error, or the drive of a header; no file changes. -/
theorem openDrive_cases (p : Params) (image : Nat) (e : Env) :
    ∃ e' : Env, e'.files = e.files ∧
      ((∃ x, openDrive p image e = (.error x, e')) ∨
        ∃ header, openDrive p image e = (.ok (driveOfHeader p image header), e')) := by
  refine ⟨e.askTwice.2, Env.askTwice_files e, ?_⟩
  unfold openDrive
  split
  · split
    · exact .inr ⟨_, rfl⟩
    · exact .inl ⟨_, rfl⟩
  · exact .inl ⟨_, rfl⟩

/-- The status of ATA_RESET: BSY clear, DRDY set, DRQ clear (R50). -/
theorem resetStatus_bits {b : Byte} (h : b &&& 0xC9 = 0x40) :
    b &&& 0xC0 = 0x40 ∧ hasBit b statusDrq = false := by
  revert b; decide +kernel

theorem headerDataOffset_lt (header : List Byte) : headerDataOffset header < 65536 := by
  unfold headerDataOffset; omega

theorem driveOfHeader_ok {p : Params} (hp : paramsOk p) {image : Nat} (himage : image < imageLimit)
    (header : List Byte) : (driveOfHeader p image header).ok :=
  ⟨⟨rfl, nofun⟩, (resetStatus_bits hp.2.1).1, himage, headerDataOffset_lt header⟩

theorem driveOfHeader_drq {p : Params} (hp : paramsOk p) (image : Nat) (header : List Byte) :
    (driveOfHeader p image header).drq = false := (resetStatus_bits hp.2.1).2

/-! ### What a commit leaves of the drive (R137) -/

/-- Whatever the files hold, of the drive only the cache changes. -/
theorem commit_record (d : Drive) (e : Env) :
    (commit d e).1 = { d with cache := (commit d e).1.cache } := by
  have hfold : ∀ (l : List (Nat × List Byte)) (de : Drive × Env),
      (l.foldl commitEntry de).1 = { de.1 with cache := (l.foldl commitEntry de).1.cache } := by
    intro l
    induction l with
    | nil => exact fun _ => rfl
    | cons x l ih =>
      intro de
      have hentry : (commitEntry de x).1 = { de.1 with cache := (commitEntry de x).1.cache } := by
        unfold commitEntry
        split
        · split <;> rfl
        · rfl
      rw [List.foldl_cons, ih, hentry]
  exact hfold _ _

theorem commit_cacheOk {d : Drive} {e : Env} (hwf : Mem.wf e.files = true) (hok : d.cacheOk) :
    (commit d e).1.cacheOk := by
  have hinv := commit_inv hwf hok
  rw [Drive.cacheOk, commit_record]
  refine ⟨hinv.rising, fun entry hentry => ?_⟩
  have hfind : cacheFind (commit d e).1.cache entry.1 = some entry.2 :=
    cacheFind_of_mem hinv.rising hentry
  obtain hkept | ⟨hgone, -⟩ := hinv.kept entry.1
  · exact hok.2 entry (mem_of_cacheFind (hkept.symm.trans hfind))
  · exact nomatch hgone.symm.trans hfind

theorem commit_keeps {d : Drive} {e : Env} (hwf : Mem.wf e.files = true) : d.Keeps (commit d e).1 := by
  refine ⟨?_, commit_cacheOk hwf, ?_⟩ <;> rw [commit_record]
  exact id

/-! ### The outcome of a host call -/

/-- What a host call that completes does, with the duties it was inside of. -/
inductive CallEffect (s : State) : Instr → State → Prop
  /-- Dirty, and an insert that fails: an answer, and answers of FileOK taken. -/
  | answers (i : Instr) (r : Result) {e : Env} (files : e.files = s.env.files) :
      CallEffect s i { s with env := e, result := r }
  | newChannel (databus : Databus) :
      CallEffect s (.ataNew databus) ((newChannel databus s).returns .ok)
  | newCard : CallEffect s .mmcNew ((newCard s).returns .ok)
  | ataInsert {u : DriveUnit} {image : Nat} (duty : dutiful (.ataInsert u image) s)
      (header : List Byte) {e : Env} (files : e.files = s.env.files) :
      CallEffect s (.ataInsert u image) { s with
        chan := s.chan.setDrive u (some (driveOfHeader s.cfg image header)), env := e, result := .ok }
  | mmcInsert {image : Nat} (duty : dutiful (.mmcInsert image) s) (header : List Byte)
      (geometry : cardGeometryOk (driveOfHeader s.cfg image header) = true) {e : Env}
      (files : e.files = s.env.files) :
      CallEffect s (.mmcInsert image) { s with
        card := s.card.withMedium s.cfg (driveOfHeader s.cfg image header), env := e, result := .ok }
  | ataEject {u : DriveUnit} (duty : dutiful (.ataEject u) s) :
      CallEffect s (.ataEject u) { s with chan := s.chan.setDrive u none, result := .nothing }
  | mmcEject : CallEffect s .mmcEject { s with card := { s.card with slot := none }, result := .nothing }
  | ataCommit {u : DriveUnit} {d : Drive} (full : s.chan.drive u = some d) :
      CallEffect s (.ataCommit u) { s with
        chan := s.chan.setDrive u (some (commit d s.env).1), env := (commit d s.env).2
        result := .nothing }
  | mmcCommit {m : Medium} (full : s.card.slot = some m) :
      CallEffect s .mmcCommit { s with
        card := { s.card with slot := some { m with drive := (commit m.drive s.env).1 } }
        env := (commit m.drive s.env).2, result := .nothing }

theorem ataInsert_effect {u : DriveUnit} {image : Nat} {s : State} (h : dutiful (.ataInsert u image) s) :
    CallEffect s (.ataInsert u image) (ataInsert u image s) := by
  obtain ⟨e, hfiles, ⟨x, hopen⟩ | ⟨header, hopen⟩⟩ := openDrive_cases s.cfg image s.env
  · rw [ataInsert_failed hopen]; exact .answers _ _ hfiles
  · rw [ataInsert_opened hopen]; exact .ataInsert h header hfiles

theorem mmcInsert_effect {image : Nat} {s : State} (h : dutiful (.mmcInsert image) s) :
    CallEffect s (.mmcInsert image) (mmcInsert image s) := by
  obtain ⟨e, hfiles, ⟨x, hopen⟩ | ⟨header, hopen⟩⟩ := openDrive_cases s.cfg image s.env
  · rw [mmcInsert_failed hopen]; exact .answers _ _ hfiles
  · by_cases hgeometry : cardGeometryOk (driveOfHeader s.cfg image header) = true
    · rw [mmcInsert_card hopen hgeometry]; exact .mmcInsert h header hgeometry hfiles
    · rw [mmcInsert_rejected hopen hgeometry]; exact .answers _ _ hfiles

/-- The host calls (R93). -/
def isHostCall : Instr → Bool
  | .ataNew _ | .ataInsert _ _ | .ataEject _ | .ataCommit _ | .ataDirty _ | .mmcNew | .mmcInsert _
  | .mmcEject | .mmcCommit | .mmcDirty => true
  | _ => false

/-- Inside its duties a host call completes. -/
theorem exec_call_effect {i : Instr} {s : State} (hcall : isHostCall i = true) (h : dutiful i s) :
    ∃ t, exec i s = .next t ∧ CallEffect s i t := by
  cases i with
  | ataNew databus => exact ⟨_, rfl, .newChannel databus⟩
  | mmcNew => exact ⟨_, rfl, .newCard⟩
  | ataInsert u image => exact ⟨_, exec_ataInsert h, ataInsert_effect h⟩
  | mmcInsert image => exact ⟨_, exec_mmcInsert h, mmcInsert_effect h⟩
  | ataEject u => exact ⟨_, exec_ataEject h, .ataEject h⟩
  | mmcEject => exact ⟨_, exec_mmcEject h, .mmcEject⟩
  | ataCommit u =>
    obtain ⟨d, hd⟩ := Option.isSome_iff_exists.mp h
    exact ⟨_, exec_ataCommit hd, .ataCommit hd⟩
  | mmcCommit =>
    obtain ⟨m, hm⟩ := Option.isSome_iff_exists.mp h
    exact ⟨_, exec_mmcCommit hm, .mmcCommit hm⟩
  | ataDirty u =>
    obtain ⟨d, hd⟩ := Option.isSome_iff_exists.mp h
    have hexec : exec (.ataDirty u) s = .next (s.returns (.flag d.dirty)) := by
      simp only [exec, execAtaDirty, hd]; rfl
    exact ⟨_, hexec, .answers _ _ rfl⟩
  | mmcDirty =>
    obtain ⟨m, hm⟩ := Option.isSome_iff_exists.mp h
    have hexec : exec .mmcDirty s = .next (s.returns (.flag m.drive.dirty)) := by
      simp only [exec, execMmcDirty, hm]; rfl
    exact ⟨_, hexec, .answers _ _ rfl⟩
  | _ => exact Bool.noConfusion hcall

/-- Outside its duties it is refused. -/
theorem dutiful_of_exec_call {i : Instr} {s t : State} (hcall : isHostCall i = true)
    (h : exec i s = .next t) : dutiful i s := by
  cases i with
  | ataNew | mmcNew => exact trivial
  | ataInsert u image =>
    simp only [exec, execAtaInsert] at h
    split_ifs at h with hfull hopen hshared
    exact ⟨Option.not_isSome_iff_eq_none.mp hfull, not_not.mp hopen, Bool.eq_false_iff.mpr hshared⟩
  | mmcInsert image =>
    simp only [exec, execMmcInsert] at h
    split_ifs at h with hfull hshared
    exact ⟨Option.not_isSome_iff_eq_none.mp hfull, Bool.eq_false_iff.mpr hshared⟩
  | ataEject u =>
    simp only [exec, execAtaEject] at h
    split_ifs at h with hempty hopen
    exact ⟨by simpa [Option.isSome_iff_ne_none] using hempty, not_not.mp hopen⟩
  | mmcEject =>
    simp only [exec, execMmcEject] at h
    split_ifs at h with hempty hopen
    exact ⟨by simpa [Option.isSome_iff_ne_none] using hempty, not_not.mp hopen⟩
  | ataCommit u | ataDirty u =>
    simp only [exec, execAtaCommit, execAtaDirty] at h
    split at h
    · next hd => exact Option.isSome_iff_exists.mpr ⟨_, hd⟩
    · cases h
  | mmcCommit | mmcDirty =>
    simp only [exec, execMmcCommit, execMmcDirty] at h
    split at h
    · next hm => exact Option.isSome_iff_exists.mpr ⟨_, hm⟩
    · cases h
  | _ => exact Bool.noConfusion hcall

/-! ### Every operation -/

/-- The three families. -/
theorem family (i : Instr) : isAtaAccess i = true ∨ isSpiAccess i = true ∨ isHostCall i = true := by
  cases i <;> simp [isAtaAccess, isSpiAccess, isHostCall]

theorem families_disjoint (i : Instr) : (isSpiAccess i = true → isAtaAccess i = false) ∧
    (isHostCall i = true → isAtaAccess i = false ∧ isSpiAccess i = false) := by
  cases i <;> simp [isAtaAccess, isSpiAccess, isHostCall]

/-- The state after a write of HEAD_DRIVE (R166). -/
def State.headWritten (b : Byte) (s : State) : State :=
  { s with chan := { s.chan with head := b, selected := unitOfHead b }, result := .nothing }

/-- What an operation that completes does. -/
inductive Effect (s : State) (i : Instr) (t : State) : Prop
  | ata (access : isAtaAccess i = true) (effect : AtaEffect (mayOpen i) s t)
  | selects (b : Byte) (write : i = .ataWrHeadDrive b) (after : t = s.headWritten b)
  | spi (access : isSpiAccess i = true) (effect : SpiEffect s t)
  | call (call : isHostCall i = true) (effect : CallEffect s i t)

theorem exec_effect {i : Instr} {s t : State} (h : exec i s = .next t) : Effect s i t := by
  obtain hata | hspi | hcall := family i
  · by_cases hhead : ∃ b, i = .ataWrHeadDrive b
    · obtain ⟨b, rfl⟩ := hhead
      exact .selects b rfl (Host.Outcome.next.inj h).symm
    · obtain ⟨t', ht', heffect⟩ := exec_ata_effect hata (fun b hb => hhead ⟨b, hb⟩) s
      obtain rfl := Host.Outcome.next.inj (ht'.symm.trans h)
      exact .ata hata heffect
  · obtain ⟨t', ht', heffect⟩ := exec_spi_effect hspi s
    obtain rfl := Host.Outcome.next.inj (ht'.symm.trans h)
    exact .spi hspi heffect
  · obtain ⟨t', ht', heffect⟩ := exec_call_effect hcall (dutiful_of_exec_call hcall h)
    obtain rfl := Host.Outcome.next.inj (ht'.symm.trans h)
    exact .call hcall heffect

end Sys2Proof.Machine
end

section
/-! The machine as a whole: which operations complete, what they leave alone, and what every one of them
keeps (00_scope.md, 10_state.md, 60_exceptions.md). -/

namespace Sys2Proof.Machine

/-! ### Completion, and what is left alone -/

theorem dutiful_of_access {i : Instr} (h : isHostCall i = false) (s : State) : dutiful i s := by
  cases i <;> trivial

/-- Settles O53: accesses complete by their effects, and have no duties; host calls complete inside
theirs. -/
theorem operationsCompleteWithinDuties : Obligations.OperationsCompleteWithinDuties := by
  intro i s
  have haccess : isAtaAccess i = true ∨ isSpiAccess i = true → ∃ t, exec i s = .next t := by
    rintro (hata | hspi)
    · by_cases hhead : ∃ b, i = .ataWrHeadDrive b
      · obtain ⟨b, rfl⟩ := hhead
        exact ⟨s.headWritten b, rfl⟩
      · obtain ⟨t, ht, -⟩ := exec_ata_effect hata (fun b hb => hhead ⟨b, hb⟩) s
        exact ⟨t, ht⟩
    · obtain ⟨t, ht, -⟩ := exec_spi_effect hspi s
      exact ⟨t, ht⟩
  refine ⟨haccess, ?_⟩
  cases hcall : isHostCall i with
  | true =>
    refine ⟨fun hduty => ?_, fun ⟨t, ht⟩ => dutiful_of_exec_call hcall ht⟩
    obtain ⟨t, ht, -⟩ := exec_call_effect hcall hduty
    exact ⟨t, ht⟩
  | false =>
    have hfamily := family i
    rw [hcall, Bool.false_eq_true, or_false] at hfamily
    exact ⟨fun _ => haccess hfamily, fun _ => dutiful_of_access hcall s⟩

/-- Settles O54: only the effect of a commit writes a file. -/
theorem imagesChangeOnlyByCommit : Obligations.ImagesChangeOnlyByCommit := by
  intro i s t h hcommit
  cases exec_effect h with
  | ata _ effect => exact effect.files
  | selects b _ after => rw [after]; rfl
  | spi _ effect => exact effect.files
  | call _ effect =>
    cases effect with
    | answers _ _ files | ataInsert _ _ files | mmcInsert _ _ _ files => exact files
    | newChannel | newCard | ataEject | mmcEject => rfl
    | ataCommit | mmcCommit => cases hcommit

/-- A slot that is written holds what was put there, the other one what it held. -/
theorem drive_setDrive_cases {c : Channel} {u v : DriveUnit} {x : Option Drive} {d : Drive}
    (h : (c.setDrive u x).drive v = some d) : v = u ∧ x = some d ∨ v ≠ u ∧ c.drive v = some d := by
  by_cases hv : v = u
  · subst hv
    exact .inl ⟨rfl, (Channel.drive_setDrive_same ..).symm.trans h⟩
  · exact .inr ⟨hv, (Channel.drive_setDrive_other _ _ _ _ hv).symm.trans h⟩

/-- The fields of a drive that no operation changes while it stays in its slot. -/
def Drive.sameRecord (d d' : Drive) : Prop :=
  d' = { d with status := d'.status, error := d'.error, cache := d'.cache }

theorem Channel.Keeps.sameRecord {c c' : Channel} (h : c.Keeps c') {u : DriveUnit} {d d' : Drive}
    (hd : c.drive u = some d) (hd' : c'.drive u = some d') : d.sameRecord d' := by
  have hdrive := h.drive u
  rw [hd, hd'] at hdrive
  cases hdrive with | some hkeeps => exact hkeeps.record

theorem SpiEffect.medium {s t : State} (h : SpiEffect s t) {m m' : Medium} (hm : s.card.slot = some m)
    (hm' : t.card.slot = some m') : m.Keeps m' := by
  have hslot := h.slot
  rw [hm, hm'] at hslot
  cases hslot with | some hkeeps => exact hkeeps

theorem sameRecord_of_eq {x : Option Drive} {d d' : Drive} (hd : x = some d) (hd' : x = some d') :
    d.sameRecord d' := by
  obtain rfl : d = d' := Option.some.inj (hd.symm.trans hd')
  rfl

theorem medium_of_eq {x : Option Medium} {m m' : Medium} (hm : x = some m) (hm' : x = some m') :
    m.Keeps m' := by
  obtain rfl : m = m' := Option.some.inj (hm.symm.trans hm')
  rfl

/-- A host call leaves a drive that stays in its slot the record it was: an insert needs the slot
empty, and a commit changes the cache alone. -/
theorem CallEffect.sameRecord {s t : State} {i : Instr} (h : CallEffect s i t) {u : DriveUnit}
    {d d' : Drive} (hd : s.chan.drive u = some d) (hd' : t.chan.drive u = some d') :
    d.sameRecord d' := by
  cases h with
  | answers | newCard | mmcInsert | mmcEject | mmcCommit => exact sameRecord_of_eq hd hd'
  | newChannel => cases u <;> cases hd'
  | @ataInsert v image duty header =>
    obtain ⟨hempty, -⟩ := duty
    obtain ⟨rfl, -⟩ | ⟨-, hother⟩ := drive_setDrive_cases hd'
    · exact nomatch hempty.symm.trans hd
    · exact sameRecord_of_eq hd hother
  | ataEject =>
    obtain ⟨-, hnone⟩ | ⟨-, hother⟩ := drive_setDrive_cases hd'
    · cases hnone
    · exact sameRecord_of_eq hd hother
  | ataCommit full =>
    obtain ⟨rfl, hcommit⟩ | ⟨-, hother⟩ := drive_setDrive_cases hd'
    · obtain rfl := Option.some.inj (full.symm.trans hd)
      obtain rfl := Option.some.inj hcommit
      rw [Drive.sameRecord, commit_record]
    · exact sameRecord_of_eq hd hother

theorem CallEffect.medium {s t : State} {i : Instr} (h : CallEffect s i t) {m m' : Medium}
    (hm : s.card.slot = some m) (hm' : t.card.slot = some m') : m.Keeps m' := by
  cases h with
  | answers | newChannel | ataInsert | ataEject | ataCommit => exact medium_of_eq hm hm'
  | newCard | mmcEject => cases hm'
  | mmcInsert duty => exact nomatch duty.1.symm.trans hm
  | @mmcCommit m₀ full =>
    obtain rfl : m₀ = m := Option.some.inj (full.symm.trans hm)
    obtain rfl := Option.some.inj hm'
    exact congrArg (Medium.mk · m₀.totalSectors m₀.cSize) (commit_record ..)

/-- Settles O55: family by family. -/
theorem driveRecordIsImmutable : Obligations.DriveRecordIsImmutable := by
  intro i s t h
  cases exec_effect h with
  | ata _ effect =>
    exact ⟨fun u d d' => effect.chan.sameRecord, fun m m' hm hm' => medium_of_eq hm (effect.card ▸ hm')⟩
  | selects b _ after =>
    subst after
    exact ⟨fun u d d' hd hd' => sameRecord_of_eq hd hd', fun m m' => medium_of_eq⟩
  | spi _ effect =>
    exact ⟨fun u d d' hd hd' => sameRecord_of_eq hd (effect.chan ▸ hd'), fun m m' => effect.medium⟩
  | call _ effect => exact ⟨fun u d d' => effect.sameRecord, fun m m' => effect.medium⟩

theorem CallEffect.cfg {s t : State} {i : Instr} (h : CallEffect s i t) : t.cfg = s.cfg := by
  cases h <;> rfl

theorem CallEffect.inbox {s t : State} {i : Instr} (h : CallEffect s i t) : t.inbox = s.inbox := by
  cases h <;> rfl

/-- Settles O56: each family leaves the other engine, and none the parameters or the inbox. -/
theorem enginesAreSeparate : Obligations.EnginesAreSeparate := by
  intro i s t h
  obtain ⟨hspiAta, hcallOther⟩ := families_disjoint i
  cases exec_effect h with
  | ata access effect =>
    refine ⟨fun _ => ⟨effect.card, effect.chan.other⟩, fun hspi => ?_, effect.cfg, effect.inbox⟩
    exact nomatch access.symm.trans (hspiAta hspi)
  | selects b write after =>
    subst write after
    exact ⟨fun _ => ⟨rfl, fun _ _ => rfl⟩, fun hspi => Bool.noConfusion hspi, rfl, rfl⟩
  | spi access effect =>
    refine ⟨fun hata => ?_, fun _ => effect.chan, effect.cfg, effect.inbox⟩
    exact nomatch hata.symm.trans (hspiAta access)
  | call call effect =>
    obtain ⟨hata, hspi⟩ := hcallOther call
    exact ⟨fun h => Bool.noConfusion (hata.symm.trans h), fun h => Bool.noConfusion (hspi.symm.trans h),
      effect.cfg, effect.inbox⟩

/-! ### Phase and DRQ (R38, R181) -/

/-- What the moves allow of the phases: a transfer stays, or ends, and only `mayOpen` opens one. -/
theorem PhaseMove.edges {may : Prop} {c c' : Channel} (h : PhaseMove may c c') :
    c'.phase = c.phase ∨ c'.phase = .ready ∨ (c.phase = .ready ∧ may) := by
  cases h with
  | stays phase | moves _ phase | reloads _ phase => exact .inl phase
  | ends phase => exact .inr (.inl phase)
  | opens may idle => exact .inr (.inr ⟨idle, may⟩)

theorem CallEffect.phase {s t : State} {i : Instr} (h : CallEffect s i t) :
    t.chan.phase = s.chan.phase ∨ t.chan.phase = .ready := by
  cases h with
  | newChannel => exact .inr rfl
  | answers | newCard | mmcInsert | mmcEject | mmcCommit => exact .inl rfl
  | ataInsert | ataEject | ataCommit => exact .inl (Channel.setDrive_phase ..)

/-- The phase after an operation. -/
theorem exec_phase {i : Instr} {s t : State} (h : exec i s = .next t) :
    t.chan.phase = s.chan.phase ∨ t.chan.phase = .ready ∨ (s.chan.phase = .ready ∧ mayOpen i) := by
  cases exec_effect h with
  | ata _ effect => exact effect.phase.edges
  | selects b _ after => subst after; exact .inl rfl
  | spi _ effect => exact .inl (congrArg Channel.phase effect.chan)
  | call _ effect => exact effect.phase.imp_right .inl

/-- Settles O60: by the three edges. -/
theorem phaseEdges : Obligations.PhaseEdges := by
  intro i s t h
  obtain hsame | hready | ⟨hidle, hopens⟩ := exec_phase h
  · rw [hsame]
    exact ⟨fun hp => by rw [hp]; nofun, fun hp => by rw [hp]; nofun, fun hp ho => absurd hp ho⟩
  · rw [hready]
    exact ⟨fun _ => nofun, fun _ => nofun, fun _ ho => absurd rfl ho⟩
  · rw [hidle]
    exact ⟨nofun, nofun, fun _ _ => hopens⟩

/-- The selected drive, if there is one, shows DRQ exactly while a transfer is open, and there is one
then. -/
def Channel.showsPhase (c : Channel) : Prop :=
  (c.phase = .ready → c.drqShown ≠ some true) ∧ (c.phase ≠ .ready → c.drqShown = some true)

theorem PhaseMove.showsPhase {may : Prop} {c c' : Channel} (h : PhaseMove may c c')
    (hc : c.showsPhase) : c'.showsPhase := by
  obtain ⟨hready, hbusy⟩ := hc
  cases h with
  | stays phase _ drq | moves _ phase _ _ drq =>
    rw [Channel.showsPhase, phase, drq]; exact ⟨hready, hbusy⟩
  | reloads busy phase _ drq =>
    rw [Channel.showsPhase, phase]
    refine ⟨fun h => absurd h busy, fun h => ?_⟩
    exact drq.elim (fun hsame => hsame.trans (hbusy h)) id
  | ends phase _ drq => exact ⟨fun _ => by rw [drq]; nofun, fun h => absurd phase h⟩
  | opens _ _ phase _ drq => exact ⟨fun h => absurd h phase, fun _ => drq⟩

/-- Coherence, drive by drive: the other one never shows DRQ, the selected one shows the phase. -/
theorem Channel.coherent_iff (c : Channel) :
    c.coherent ↔ (∀ u d, u ≠ c.selected → c.drive u = some d → d.drq = false) ∧ c.showsPhase := by
  have hother : ∀ u, u ≠ c.selected → (c.phase != .ready && u == c.selected) = false := fun u hu => by
    simp [hu]
  have hselected : (c.phase != .ready && c.selected == c.selected) = (c.phase != .ready) := by simp
  unfold Channel.coherent showsPhase drqShown
  constructor
  · rintro ⟨hdrq, hsome⟩
    refine ⟨fun u d hu hd => (hdrq u d hd).trans (hother u hu), fun hp => ?_, fun hp => ?_⟩
    · cases hd : c.drv with
      | none => nofun
      | some d =>
        have hshown : d.drq = false := (hdrq _ d hd).trans (by rw [hselected, hp]; rfl)
        simp [hshown]
    · obtain ⟨d, hd⟩ := Option.isSome_iff_exists.mp (hsome hp)
      have hshown : d.drq = true := (hdrq _ d hd).trans (by rw [hselected]; simpa using hp)
      simp [hd, hshown]
  · rintro ⟨hquiet, hready, hbusy⟩
    refine ⟨fun u d hd => ?_, fun hp => ?_⟩
    · by_cases hu : u = c.selected
      · subst hu
        have hshown : c.drv.map Drive.drq = some d.drq := congrArg (Option.map Drive.drq) hd
        rw [hselected]
        by_cases hp : c.phase = .ready
        · have hclear := hready hp
          rw [hshown] at hclear
          simpa [hp] using hclear
        · have hset := hbusy hp
          rw [hshown] at hset
          rw [Option.some.inj hset]
          simpa using hp
      · rw [hother u hu]; exact hquiet u d hu hd
    · have hset := hbusy hp
      cases hd : c.drv with
      | none => rw [hd] at hset; cases hset
      | some d => rfl

theorem AtaEffect.coherent {may : Prop} {s t : State} (h : AtaEffect may s t) (hs : s.chan.coherent) :
    t.chan.coherent := by
  rw [Channel.coherent_iff] at hs ⊢
  obtain ⟨hquiet, hshows⟩ := hs
  rw [h.chan.selected]
  exact ⟨fun u d hu hd => hquiet u d hu (h.chan.other u hu ▸ hd), h.phase.showsPhase hshows⟩

/-- With no transfer open coherence is that no drive shows DRQ. -/
theorem Channel.coherent_ready {c : Channel} (h : c.phase = .ready) :
    c.coherent ↔ ∀ u d, c.drive u = some d → d.drq = false := by
  simp [Channel.coherent, h]

/-- A drive put back with the DRQ it had. -/
theorem Channel.coherent_setDrive {c : Channel} (h : c.coherent) {u : DriveUnit} {d d' : Drive}
    (hd : c.drive u = some d) (hdrq : d'.drq = d.drq) : (c.setDrive u (some d')).coherent := by
  obtain ⟨hshows, hsome⟩ := h
  refine ⟨fun v x hx => ?_, fun hp => ?_⟩
  · rw [Channel.setDrive_phase, Channel.setDrive_selected]
    obtain ⟨rfl, hput⟩ | ⟨-, hother⟩ := drive_setDrive_cases hx
    · obtain rfl := Option.some.inj hput
      exact hdrq.trans (hshows _ _ hd)
    · exact hshows _ _ hother
  · rw [Channel.setDrive_phase] at hp
    rw [Channel.drv, Channel.setDrive_selected]
    by_cases hu : c.selected = u
    · rw [hu, Channel.drive_setDrive_same]; rfl
    · rw [Channel.drive_setDrive_other _ _ _ _ hu]; exact hsome hp

theorem CallEffect.coherent {s t : State} {i : Instr} (h : CallEffect s i t) (hp : paramsOk s.cfg)
    (hs : s.chan.coherent) : t.chan.coherent := by
  cases h with
  | answers | newCard | mmcInsert | mmcEject | mmcCommit => exact hs
  | newChannel => exact (Channel.coherent_ready rfl).mpr fun u d hd => by cases u <;> cases hd
  | ataInsert duty header =>
    obtain ⟨-, hready, -⟩ := duty
    refine (Channel.coherent_ready ((Channel.setDrive_phase ..).trans hready)).mpr fun v d hd => ?_
    obtain ⟨-, hput⟩ | ⟨-, hother⟩ := drive_setDrive_cases hd
    · obtain rfl := Option.some.inj hput
      exact driveOfHeader_drq hp ..
    · exact (Channel.coherent_ready hready).mp hs v d hother
  | ataEject duty =>
    obtain ⟨-, hready⟩ := duty
    refine (Channel.coherent_ready ((Channel.setDrive_phase ..).trans hready)).mpr fun v d hd => ?_
    obtain ⟨-, hput⟩ | ⟨-, hother⟩ := drive_setDrive_cases hd
    · cases hput
    · exact (Channel.coherent_ready hready).mp hs v d hother
  | ataCommit full =>
    exact Channel.coherent_setDrive hs full (by rw [commit_record]; rfl)

/-- Settles O59: an access moves phase and DRQ together; the duty of R337 is for the selection. -/
theorem phaseAndDrqStayTogether : Obligations.PhaseAndDrqStayTogether := by
  intro i s t hinv hs hkeeps h
  obtain ⟨hparams, -⟩ := hinv
  cases exec_effect h with
  | ata _ effect => exact effect.coherent hs
  | selects b write after =>
    subst after
    by_cases hready : s.chan.phase = .ready
    · exact (Channel.coherent_ready (c := (s.headWritten b).chan) hready).mpr
        ((Channel.coherent_ready hready).mp hs)
    · have hsame : (s.headWritten b).chan = { s.chan with head := b } := by
        simp only [State.headWritten, hkeeps b write hready]
      rw [hsame]
      exact hs
  | spi _ effect => rw [effect.chan]; exact hs
  | call _ effect => exact effect.coherent hparams hs

/-! ### The invariant (R38, R49, R140, R314) -/

/-- The counter after a step of the bus inside an open transfer. -/
theorem busStep_bounds {c : Channel} (h : c.ok) (busy : c.phase ≠ .ready) :
    c.datacounter + busStep c.databus ≤ 512 ∧
      (c.databus = .d8 ∨ c.databus = .d16Data2 → (c.datacounter + busStep c.databus) % 2 = 0) := by
  obtain ⟨-, -, -, hopen, heven⟩ := h
  have hroom := hopen busy
  cases hbus : c.databus <;> simp_all [busStep] <;> omega

/-- The counter after a move. -/
theorem PhaseMove.counter_ok {may : Prop} {c c' : Channel} (h : PhaseMove may c c') (hc : c.ok)
    (hbus : c'.databus = c.databus) :
    c'.datacounter ≤ 512 ∧ (c'.phase ≠ .ready → c'.datacounter < 512) ∧
      (c'.databus = .d8 ∨ c'.databus = .d16Data2 → c'.datacounter % 2 = 0) := by
  obtain ⟨-, -, hle, hopen, heven⟩ := id hc
  rw [hbus]
  cases h with
  | stays phase counter => rw [phase, counter]; exact ⟨hle, hopen, heven⟩
  | moves busy _ counter inside =>
    exact ⟨inside.le, fun _ => inside, fun hd => by rw [counter]; exact (busStep_bounds hc busy).2 hd⟩
  | reloads _ _ counter | opens _ _ _ counter =>
    rw [counter]; exact ⟨by decide, fun _ => by decide, fun _ => rfl⟩
  | ends phase counter =>
    refine ⟨?_, fun hp => absurd phase hp, fun hd => ?_⟩ <;> obtain hsame | ⟨busy, hstep⟩ := counter
    · rw [hsame]; exact hle
    · rw [hstep]; exact (busStep_bounds hc busy).1
    · rw [hsame]; exact heven hd
    · rw [hstep]; exact (busStep_bounds hc busy).2 hd

theorem AtaEffect.chan_ok {may : Prop} {s t : State} (h : AtaEffect may s t) (hs : s.chan.ok) :
    t.chan.ok := by
  refine ⟨fun u d' hd' => ?_, ?_, h.phase.counter_ok hs h.chan.databus⟩
  · have hdrive := h.chan.drive u
    rw [hd'] at hdrive
    cases hd : s.chan.drive u with
    | none => rw [hd] at hdrive; cases hdrive
    | some d =>
      rw [hd] at hdrive
      cases hdrive with | some hkeeps => exact hkeeps.ok (hs.1 u d hd)
  · rw [h.chan.selected, h.chan.unit]; exact hs.2.1

/-- A slot written with nothing, or with a drive in order. -/
theorem Channel.ok.setDrive {c : Channel} (h : c.ok) {u : DriveUnit} {x : Option Drive}
    (hx : ∀ d, x = some d → d.ok) : (c.setDrive u x).ok := by
  obtain ⟨hdrives, hselected, hcounter⟩ := h
  refine ⟨fun v d hd => ?_, ?_, ?_⟩
  · obtain ⟨-, hput⟩ | ⟨-, hother⟩ := drive_setDrive_cases hd
    · exact hx d hput
    · exact hdrives v d hother
  · rw [Channel.setDrive_selected, Channel.setDrive_head]; exact hselected
  · rw [Channel.setDrive_datacounter, Channel.setDrive_phase, Channel.setDrive_databus]; exact hcounter

theorem CallEffect.chan_ok {s t : State} {i : Instr} (h : CallEffect s i t) (hi : i.wellFormed = true)
    (hs : s.Inv) : t.chan.ok := by
  obtain ⟨hparams, hchan, -, hfiles, -⟩ := hs
  cases h with
  | answers | newCard | mmcInsert | mmcEject | mmcCommit => exact hchan
  | newChannel => exact Channel.fresh_ok hparams ..
  | ataInsert duty header =>
    refine hchan.setDrive fun d hd => ?_
    obtain rfl := Option.some.inj hd
    exact driveOfHeader_ok hparams (of_decide_eq_true hi) header
  | ataEject => exact hchan.setDrive nofun
  | ataCommit full =>
    refine hchan.setDrive fun d hd => ?_
    obtain rfl := Option.some.inj hd
    exact (commit_keeps hfiles).ok (hchan.1 _ _ full)

/-- The card with another medium, or none, in its slot. -/
theorem Card.ok.withSlot {c : Card} (h : c.ok) {x : Option Medium}
    (hx : ∀ m, x = some m → m.ok ∧ c.eraseOk m.totalSectors) : Card.ok { c with slot := x } := by
  obtain ⟨-, hrest⟩ := h
  exact ⟨hx, hrest⟩

theorem CallEffect.card_ok {s t : State} {i : Instr} (h : CallEffect s i t) (hi : i.wellFormed = true)
    (hs : s.Inv) : t.card.ok := by
  obtain ⟨hparams, -, hcard, hfiles, -⟩ := hs
  cases h with
  | answers | newChannel | ataInsert | ataEject | ataCommit => exact hcard
  | newCard => exact Card.fresh_ok ..
  | mmcEject => exact hcard.withSlot nofun
  | mmcInsert duty header geometry =>
    obtain ⟨hsize, hmultiple, hnonzero⟩ := (cardGeometryOk_iff _).mp geometry
    refine ⟨fun m hm => ?_, Nat.le_refl 0, Nat.zero_le _, nofun, r1AtReset_reserved _⟩
    obtain rfl := Option.some.inj hm
    exact ⟨⟨driveOfHeader_ok hparams (of_decide_eq_true hi) header, hsize, rfl, hmultiple, hnonzero, rfl⟩,
      nofun, nofun⟩
  | @mmcCommit m full =>
    obtain ⟨hmedium, hbounds⟩ := hcard.1 m full
    refine hcard.withSlot fun m' hm' => ?_
    obtain rfl := Option.some.inj hm'
    exact ⟨hmedium.withCache (commit_record ..) (commit_cacheOk hfiles hmedium.1.1), hbounds⟩

theorem CallEffect.files_wf {s t : State} {i : Instr} (h : CallEffect s i t) (hs : s.Inv) :
    Mem.wf t.env.files = true := by
  obtain ⟨-, hchan, hcard, hfiles, -⟩ := hs
  cases h with
  | answers _ _ files | ataInsert _ _ files | mmcInsert _ _ _ files => exact files ▸ hfiles
  | newChannel | newCard | ataEject | mmcEject => exact hfiles
  | ataCommit full => exact (commit_inv hfiles (hchan.1 _ _ full).1).wf
  | @mmcCommit m full =>
    obtain ⟨⟨⟨hcache, -⟩, -⟩, -⟩ := hcard.1 m full
    exact (commit_inv hfiles hcache).wf

/-! No image behind both engines (R314). -/

/-- The image behind a slot of the channel. -/
def Channel.image (c : Channel) (u : DriveUnit) : Option Nat := (c.drive u).map Drive.image

/-- The image behind the card. -/
def Card.image (c : Card) : Option Nat := c.slot.map fun m => m.drive.image

theorem Channel.holdsImage_eq_false_iff (c : Channel) (image : Nat) :
    c.holdsImage image = false ↔ ∀ u, c.image u ≠ some image := by
  have hslot : ∀ x : Option Drive,
      Sys2Proof.Machine.holdsImage x image = false ↔ x.map Drive.image ≠ some image := by
    rintro (_ | d) <;> simp [Sys2Proof.Machine.holdsImage]
  rw [Channel.holdsImage, Bool.or_eq_false_iff, hslot, hslot]
  exact ⟨fun ⟨h0, h1⟩ u => by cases u <;> assumption, fun h => ⟨h .master, h .slave⟩⟩

theorem Card.holdsImage_eq_false_iff (c : Card) (image : Nat) :
    c.holdsImage image = false ↔ c.image ≠ some image := by
  cases h : c.slot <;> simp [Card.holdsImage, Card.image, h]

/-- No image is behind both engines. -/
def State.unshared (s : State) : Prop := ∀ u x, s.chan.image u = some x → s.card.image ≠ some x

theorem State.unshared_iff (s : State) :
    s.unshared ↔ ∀ m, s.card.slot = some m → s.chan.holdsImage m.drive.image = false := by
  simp only [Channel.holdsImage_eq_false_iff]
  refine ⟨fun h m hm u hu => h u _ hu (by rw [Card.image, hm]; rfl), fun h u x hu hx => ?_⟩
  obtain ⟨m, hm, rfl⟩ := Option.map_eq_some_iff.mp hx
  exact h m hm u hu

/-- Where every image was there before. -/
theorem State.unshared.of_fewer {s t : State} (h : s.unshared)
    (hchan : ∀ u x, t.chan.image u = some x → s.chan.image u = some x)
    (hcard : ∀ x, t.card.image = some x → s.card.image = some x) : t.unshared :=
  fun u x hu hx => h u x (hchan u x hu) (hcard x hx)

/-- Two slots related by a relation that keeps a view of their contents agree on it. -/
theorem map_eq_of_rel {α β : Type} {r : α → α → Prop} {f : α → β} (hf : ∀ a b, r a b → f b = f a)
    {x y : Option α} (h : Option.Rel r x y) : y.map f = x.map f := by
  cases h with
  | none => rfl
  | some hab => exact congrArg some (hf _ _ hab)

theorem Channel.Keeps.image {c c' : Channel} (h : c.Keeps c') (u : DriveUnit) :
    c'.image u = c.image u := map_eq_of_rel (f := Drive.image) (fun _ _ hkeeps => hkeeps.image) (h.drive u)

theorem SpiEffect.image {s t : State} (h : SpiEffect s t) : t.card.image = s.card.image :=

  map_eq_of_rel (f := fun m : Medium => m.drive.image) (fun _ _ hkeeps => hkeeps.image) h.slot

/-- The image behind a slot after a write of a slot. -/
theorem image_setDrive_cases {c : Channel} {u v : DriveUnit} {y : Option Drive} {x : Nat}
    (h : (c.setDrive u y).image v = some x) : v = u ∧ y.map Drive.image = some x ∨ c.image v = some x := by
  obtain ⟨d, hd, rfl⟩ := Option.map_eq_some_iff.mp h
  obtain ⟨rfl, rfl⟩ | ⟨-, hother⟩ := drive_setDrive_cases hd
  · exact .inl ⟨rfl, rfl⟩
  · exact .inr (by rw [Channel.image, hother]; rfl)

theorem CallEffect.unshared {s t : State} {i : Instr} (h : CallEffect s i t) (hs : s.unshared) :
    t.unshared := by
  cases h with
  | answers => exact hs
  | newChannel => exact fun u x hu => by cases u <;> cases hu
  | newCard | mmcEject => exact fun u x _ => nofun
  | @ataInsert u image duty header =>
    intro v x hv
    obtain ⟨-, hnew⟩ | hold := image_setDrive_cases hv
    · obtain rfl : image = x := Option.some.inj hnew
      exact (Card.holdsImage_eq_false_iff ..).mp duty.2.2
    · exact hs v x hold
  | @mmcInsert image duty header =>
    intro u x hu hx
    obtain rfl : image = x := Option.some.inj hx
    exact (Channel.holdsImage_eq_false_iff ..).mp duty.2 u hu
  | ataEject =>
    refine hs.of_fewer (fun v x hv => ?_) fun _ => id
    obtain ⟨-, hnone⟩ | hold := image_setDrive_cases hv
    · cases hnone
    · exact hold
  | ataCommit full =>
    refine hs.of_fewer (fun v x hv => ?_) fun _ => id
    obtain ⟨rfl, hsame⟩ | hold := image_setDrive_cases hv
    · rw [Channel.image, full, ← hsame, commit_record]; rfl
    · exact hold
  | mmcCommit full =>
    refine hs.of_fewer (fun _ _ => id) fun x hx => ?_
    rw [← hx, Card.image, Card.image, full, commit_record]
    rfl

/-- Every operation that stands for a host operation keeps the invariant. -/
theorem exec_keeps_inv {i : Instr} {s t : State} (hi : i.wellFormed = true) (hs : s.Inv)
    (h : exec i s = .next t) : t.Inv := by
  obtain ⟨hparams, hchan, hcard, hfiles, hshared⟩ := id hs
  rw [← State.unshared_iff] at hshared
  cases exec_effect h with
  | ata _ effect =>
    refine ⟨effect.cfg ▸ hparams, effect.chan_ok hchan, effect.card ▸ hcard, effect.files ▸ hfiles, ?_⟩
    rw [← State.unshared_iff]
    exact hshared.of_fewer (fun u x hu => (effect.chan.image u).symm.trans hu)
      fun x hx => effect.card ▸ hx
  | selects b _ after =>
    subst after
    obtain ⟨hdrives, -, hcounter⟩ := hchan
    exact ⟨hparams, ⟨hdrives, rfl, hcounter⟩, hcard, hfiles, (State.unshared_iff s).mp hshared⟩
  | spi _ effect =>
    refine ⟨effect.cfg ▸ hparams, effect.chan ▸ hchan, effect.ok hparams hcard, effect.files ▸ hfiles, ?_⟩
    rw [← State.unshared_iff]
    exact hshared.of_fewer (fun u x hu => effect.chan ▸ hu) fun x hx => effect.image.symm.trans hx
  | call _ effect =>
    exact ⟨effect.cfg ▸ hparams, effect.chan_ok hi hs, effect.card_ok hi hs, effect.files_wf hs,
      (State.unshared_iff t).mp (effect.unshared hshared)⟩

/-- Settles O57: an idle step changes nothing, and what decodes is well formed. -/
theorem stepKeepsInvariant : Obligations.StepKeepsInvariant := by
  intro s t hs h
  obtain rfl | ⟨x, rest, i, -, hdecode, hexec⟩ := step_next_cases h
  · exact hs
  · exact exec_keeps_inv (s := { s with inbox := rest }) (encodeOfDecode _ x i hdecode).1 hs hexec

end Sys2Proof.Machine
end
